-- ==== Sys2Proof/Word.lean ====
section
/-! DEFINITION. The word types of the block (00_scope.md R6). -/

namespace Sys2Proof

/-- A byte of the stream, of BUF, or of a record field. -/
abbrev Byte := BitVec 8

/-- One register, one bus transfer or one command word (00_scope.md R6). -/
abbrev Word := BitVec 32

/-- A 64-bit value spread over two registers (00_scope.md R6). -/
abbrev DWord := BitVec 64

end Sys2Proof
end

