-- ==== Sys2Proof/Syntax.lean ====
section
/-! DEFINITION. The commands of the block: one constructor of `Instr` per row of spec/opcode_table.json. -/

namespace Sys2Proof

/-- The E bit of an FX command (30_encoding.md R92). -/
inductive Endian where
  | little
  | big
deriving DecidableEq, Repr

/-- The sentinel mode SM of an FX command (30_encoding.md R92, 43_field_codec.md R181). -/
inductive SentMode where
  | none
  | ones
  | maxpos
  | sent
deriving DecidableEq, Repr

/-- The S bit of an epoch-buffer write: the value comes from ARG1:ARG0 or from RES1:RES0 (30_encoding.md R92). -/
inductive Source where
  | arg
  | res
deriving DecidableEq, Repr

/-- The 24 commands (30_encoding.md R93). An operand that has illegal values (CNT, ALG, FLD, ITEM) keeps the raw
width of its field; `Instr.wf` says which values are legal. -/
inductive Instr where
  | nop
  | openSession
  | eoi
  | feed (byte : Byte)
  | feedn (cnt : BitVec 3)
  | release
  | ckInit (rotf : Bool) (alg : BitVec 3)
  | ckUpd (cnt : BitVec 3)
  | ckFin
  | ckFrm (off : BitVec 16)
  | fxU (e : Endian) (sm : SentMode) (w : BitVec 3) (off : BitVec 16)
  | fxS (e : Endian) (sm : SentMode) (w : BitVec 3) (off : BitVec 16)
  | fxF32 (e : Endian) (sm : SentMode) (off : BitVec 16)
  | fxF64 (e : Endian) (sm : SentMode) (off : BitVec 16)
  | obsDwr (src : Source) (m : Bool) (fld : BitVec 4) (slot : BitVec 4) (sat : Byte)
  | obsRd (fld : BitVec 4) (slot : BitVec 4) (idx : Byte)
  | stgCnt (n : Byte)
  | stgSat (idx : Byte) (sat : Byte)
  | stgChk (n : Byte)
  | stgWr (src : Source) (m : Bool) (fld : BitVec 4) (slot : BitVec 4) (idx : Byte)
  | stgRd (fld : BitVec 4) (slot : BitVec 4) (idx : Byte)
  | flush
  | lkUpd (c : Bool) (h : Bool) (hc : Bool) (slot : BitVec 4) (sat : Byte)
  | lkRd (item : BitVec 4) (slot : BitVec 4) (sat : Byte)
deriving DecidableEq, Repr

/-- The assigned primary opcodes (30_encoding.md R93). -/
inductive Opcode where
  | nop | openSession | eoi | feed | feedn | release
  | ckInit | ckUpd | ckFin | ckFrm
  | fxU | fxS | fxF32 | fxF64
  | obsDwr | obsRd | stgCnt | stgSat | stgChk | stgWr | stgRd | flush
  | lkUpd | lkRd
deriving DecidableEq, Repr

/-- Why a command word does not decode (30_encoding.md R94, checks 1 to 3). The block reports it in STATUS.CAUSE. -/
inductive DecodeError where
  /-- check 1: the primary opcode is unassigned -/
  | badOpcode
  /-- check 2 or 3: a reserved bit is set, or a field value is illegal -/
  | badField
deriving DecidableEq, Repr

end Sys2Proof
end

