-- ==== Sys2Proof/WellFormed.lean ====
section
/-! DEFINITION. The field constraints of 30_encoding.md R93 and R95. -/

namespace Sys2Proof

/-- CNT ∈ 1..4 (30_encoding.md R93). -/
def cntLegal (cnt : BitVec 3) : Bool := decide (1 ≤ cnt.toNat ∧ cnt.toNat ≤ 4)

/-- ALG ∈ 1..5 (30_encoding.md R93). -/
def algLegal (alg : BitVec 3) : Bool := decide (1 ≤ alg.toNat ∧ alg.toNat ≤ 5)

/-- FLD ∈ 0..5, the fields a write may name (30_encoding.md R93). -/
def fldWritable (fld : BitVec 4) : Bool := decide (fld.toNat ≤ 5)

/-- FLD ∈ 0..5, 8, 9, 10, and SLOT = 0 when FLD ≥ 8 (30_encoding.md R93). -/
def fldReadable (fld slot : BitVec 4) : Bool :=
  decide (fld.toNat ≤ 5 ∨ (8 ≤ fld.toNat ∧ fld.toNat ≤ 10 ∧ slot.toNat = 0))

/-- ITEM ∈ 0..2 (30_encoding.md R93). -/
def itemLegal (item : BitVec 4) : Bool := decide (item.toNat ≤ 2)

/-- The field constraints of every command (30_encoding.md R93, last but one column). -/
def Instr.wf : Instr → Bool
  | .nop => true
  | .openSession => true
  | .eoi => true
  | .feed _ => true
  | .feedn cnt => cntLegal cnt
  | .release => true
  | .ckInit _ alg => algLegal alg
  | .ckUpd cnt => cntLegal cnt
  | .ckFin => true
  | .ckFrm _ => true
  | .fxU _ _ _ _ => true
  | .fxS _ _ _ _ => true
  | .fxF32 _ _ _ => true
  | .fxF64 _ _ _ => true
  | .obsDwr _ _ fld _ _ => fldWritable fld
  | .obsRd fld slot _ => fldReadable fld slot
  | .stgCnt _ => true
  | .stgSat _ _ => true
  | .stgChk _ => true
  | .stgWr _ _ fld _ _ => fldWritable fld
  | .stgRd fld slot _ => fldReadable fld slot
  | .flush => true
  | .lkUpd _ _ _ _ _ => true
  | .lkRd item _ _ => itemLegal item

end Sys2Proof
end

