-- ==== Sys2Proof/Decode.lean ====
section
/-! DEFINITION. The decoder of 30_encoding.md R94, total on every 32-bit word, and the encoder beside it. -/

namespace Sys2Proof

/-- The number of an opcode, OPC = w[31:26] (30_encoding.md R93). -/
def Opcode.bits : Opcode → BitVec 6
  | .nop => 0x00#6
  | .openSession => 0x01#6
  | .eoi => 0x02#6
  | .feed => 0x04#6
  | .feedn => 0x05#6
  | .release => 0x06#6
  | .ckInit => 0x08#6
  | .ckUpd => 0x09#6
  | .ckFin => 0x0A#6
  | .ckFrm => 0x0B#6
  | .fxU => 0x10#6
  | .fxS => 0x11#6
  | .fxF32 => 0x12#6
  | .fxF64 => 0x13#6
  | .obsDwr => 0x18#6
  | .obsRd => 0x19#6
  | .stgCnt => 0x1A#6
  | .stgSat => 0x1B#6
  | .stgChk => 0x1C#6
  | .stgWr => 0x1D#6
  | .stgRd => 0x1E#6
  | .flush => 0x1F#6
  | .lkUpd => 0x20#6
  | .lkRd => 0x21#6

/-- Every assigned opcode, in the order of 30_encoding.md R93. -/
def Opcode.all : List Opcode :=
  [.nop, .openSession, .eoi, .feed, .feedn, .release, .ckInit, .ckUpd, .ckFin, .ckFrm, .fxU, .fxS, .fxF32, .fxF64,
   .obsDwr, .obsRd, .stgCnt, .stgSat, .stgChk, .stgWr, .stgRd, .flush, .lkUpd, .lkRd]

/-- The opcode with a number, if one is assigned (30_encoding.md R93, R95). -/
def Opcode.ofBits (b : BitVec 6) : Option Opcode := Opcode.all.find? fun o => o.bits == b

/-- The reserved ranges of an opcode's format (30_encoding.md R91), each as (lowest bit, number of bits). -/
def Opcode.reserved : Opcode → List (Nat × Nat)
  | .nop => [(0, 26)]
  | .openSession => [(0, 26)]
  | .eoi => [(0, 26)]
  | .feed => [(8, 18)]
  | .feedn => [(3, 23)]
  | .release => [(0, 26)]
  | .ckInit => [(4, 22)]
  | .ckUpd => [(3, 23)]
  | .ckFin => [(0, 26)]
  | .ckFrm => [(16, 10)]
  | .fxU => [(19, 4)]
  | .fxS => [(19, 4)]
  | .fxF32 => [(16, 7)]
  | .fxF64 => [(16, 7)]
  | .obsDwr => [(8, 8)]
  | .obsRd => [(24, 2), (0, 8)]
  | .stgCnt => [(8, 18)]
  | .stgSat => [(16, 10)]
  | .stgChk => [(8, 18)]
  | .stgWr => [(0, 8)]
  | .stgRd => [(24, 2), (0, 8)]
  | .flush => [(0, 26)]
  | .lkUpd => [(20, 3), (8, 8)]
  | .lkRd => [(24, 2), (8, 8)]

/-- Bits lo+n-1 down to lo of a command word (30_encoding.md R92: an unsigned slice). -/
def field (w : Word) (lo n : Nat) : BitVec n := w.extractLsb' lo n

/-- One bit of a command word. -/
def flagBit (w : Word) (i : Nat) : Bool := w.getLsbD i

/-- No reserved bit of the opcode's format is set (30_encoding.md R94, check 2). -/
def reservedClear (o : Opcode) (w : Word) : Bool :=
  o.reserved.all fun r => (field w r.1 r.2).toNat == 0

/-- E = 0 is little-endian, E = 1 big-endian (30_encoding.md R92). -/
def Endian.ofBit (b : Bool) : Endian := if b then .big else .little

/-- The E bit of a byte order (30_encoding.md R92). -/
def Endian.bit : Endian → Bool
  | .little => false
  | .big => true

/-- SM: 0 NONE, 1 ONES, 2 MAXPOS, 3 SENT (30_encoding.md R92). -/
def SentMode.ofBits (b : BitVec 2) : SentMode :=
  if b = 0#2 then .none else if b = 1#2 then .ones else if b = 2#2 then .maxpos else .sent

/-- The SM field of a sentinel mode (30_encoding.md R92). -/
def SentMode.bits : SentMode → BitVec 2
  | .none => 0#2
  | .ones => 1#2
  | .maxpos => 2#2
  | .sent => 3#2

/-- S = 0 is ARG1:ARG0, S = 1 is RES1:RES0 (30_encoding.md R92). -/
def Source.ofBit (b : Bool) : Source := if b then .res else .arg

/-- The S bit of a value source (30_encoding.md R92). -/
def Source.bit : Source → Bool
  | .arg => false
  | .res => true

/-- Operand assembly (30_encoding.md R91, R92): the command of an opcode with the operand fields of the word. -/
def Opcode.operands (o : Opcode) (w : Word) : Instr :=
  match o with
  | .nop => .nop
  | .openSession => .openSession
  | .eoi => .eoi
  | .feed => .feed (field w 0 8)
  | .feedn => .feedn (field w 0 3)
  | .release => .release
  | .ckInit => .ckInit (flagBit w 3) (field w 0 3)
  | .ckUpd => .ckUpd (field w 0 3)
  | .ckFin => .ckFin
  | .ckFrm => .ckFrm (field w 0 16)
  | .fxU => .fxU (Endian.ofBit (flagBit w 25)) (SentMode.ofBits (field w 23 2)) (field w 16 3) (field w 0 16)
  | .fxS => .fxS (Endian.ofBit (flagBit w 25)) (SentMode.ofBits (field w 23 2)) (field w 16 3) (field w 0 16)
  | .fxF32 => .fxF32 (Endian.ofBit (flagBit w 25)) (SentMode.ofBits (field w 23 2)) (field w 0 16)
  | .fxF64 => .fxF64 (Endian.ofBit (flagBit w 25)) (SentMode.ofBits (field w 23 2)) (field w 0 16)
  | .obsDwr => .obsDwr (Source.ofBit (flagBit w 25)) (flagBit w 24) (field w 20 4) (field w 16 4) (field w 0 8)
  | .obsRd => .obsRd (field w 20 4) (field w 16 4) (field w 8 8)
  | .stgCnt => .stgCnt (field w 0 8)
  | .stgSat => .stgSat (field w 8 8) (field w 0 8)
  | .stgChk => .stgChk (field w 0 8)
  | .stgWr => .stgWr (Source.ofBit (flagBit w 25)) (flagBit w 24) (field w 20 4) (field w 16 4) (field w 8 8)
  | .stgRd => .stgRd (field w 20 4) (field w 16 4) (field w 8 8)
  | .flush => .flush
  | .lkUpd => .lkUpd (flagBit w 25) (flagBit w 24) (flagBit w 23) (field w 16 4) (field w 0 8)
  | .lkRd => .lkRd (field w 20 4) (field w 16 4) (field w 0 8)

/-- Decoding of a command word, checks 1 to 3 of 30_encoding.md R94 in that order. -/
def decode (w : Word) : Except DecodeError Instr :=
  match Opcode.ofBits (field w 26 6) with
  | none => .error .badOpcode
  | some o =>
    if reservedClear o w then
      let i := o.operands w
      if i.wf then .ok i else .error .badField
    else .error .badField

/-- The decoder on a row of spec/opcode_table.json: the table gives every row 32 bits, one bus word, whose bits are
numbered as the word's own (20_memory.md R73: no byte order enters). -/
def decodeTableWord (nbits w : Nat) : Option Instr :=
  match decode (BitVec.ofNat 32 (w % 2 ^ nbits)) with
  | .ok i => some i
  | .error _ => none

/-- The opcode of a command. -/
def Instr.opcode : Instr → Opcode
  | .nop => .nop
  | .openSession => .openSession
  | .eoi => .eoi
  | .feed _ => .feed
  | .feedn _ => .feedn
  | .release => .release
  | .ckInit _ _ => .ckInit
  | .ckUpd _ => .ckUpd
  | .ckFin => .ckFin
  | .ckFrm _ => .ckFrm
  | .fxU _ _ _ _ => .fxU
  | .fxS _ _ _ _ => .fxS
  | .fxF32 _ _ _ => .fxF32
  | .fxF64 _ _ _ => .fxF64
  | .obsDwr _ _ _ _ _ => .obsDwr
  | .obsRd _ _ _ => .obsRd
  | .stgCnt _ => .stgCnt
  | .stgSat _ _ => .stgSat
  | .stgChk _ => .stgChk
  | .stgWr _ _ _ _ _ => .stgWr
  | .stgRd _ _ _ => .stgRd
  | .flush => .flush
  | .lkUpd _ _ _ _ _ => .lkUpd
  | .lkRd _ _ _ => .lkRd

/-- The operand fields of a command as (lowest bit, value) pairs (30_encoding.md R91, R92). -/
def Instr.fields : Instr → List (Nat × Nat)
  | .nop => []
  | .openSession => []
  | .eoi => []
  | .feed b => [(0, b.toNat)]
  | .feedn cnt => [(0, cnt.toNat)]
  | .release => []
  | .ckInit f alg => [(3, f.toNat), (0, alg.toNat)]
  | .ckUpd cnt => [(0, cnt.toNat)]
  | .ckFin => []
  | .ckFrm off => [(0, off.toNat)]
  | .fxU e sm w off => [(25, e.bit.toNat), (23, sm.bits.toNat), (16, w.toNat), (0, off.toNat)]
  | .fxS e sm w off => [(25, e.bit.toNat), (23, sm.bits.toNat), (16, w.toNat), (0, off.toNat)]
  | .fxF32 e sm off => [(25, e.bit.toNat), (23, sm.bits.toNat), (0, off.toNat)]
  | .fxF64 e sm off => [(25, e.bit.toNat), (23, sm.bits.toNat), (0, off.toNat)]
  | .obsDwr src m fld slot sat =>
    [(25, src.bit.toNat), (24, m.toNat), (20, fld.toNat), (16, slot.toNat), (0, sat.toNat)]
  | .obsRd fld slot idx => [(20, fld.toNat), (16, slot.toNat), (8, idx.toNat)]
  | .stgCnt n => [(0, n.toNat)]
  | .stgSat idx sat => [(8, idx.toNat), (0, sat.toNat)]
  | .stgChk n => [(0, n.toNat)]
  | .stgWr src m fld slot idx =>
    [(25, src.bit.toNat), (24, m.toNat), (20, fld.toNat), (16, slot.toNat), (8, idx.toNat)]
  | .stgRd fld slot idx => [(20, fld.toNat), (16, slot.toNat), (8, idx.toNat)]
  | .flush => []
  | .lkUpd c h hc slot sat =>
    [(25, c.toNat), (24, h.toNat), (23, hc.toNat), (16, slot.toNat), (0, sat.toNat)]
  | .lkRd item slot sat => [(20, item.toNat), (16, slot.toNat), (0, sat.toNat)]

/-- The sum of the fields, each at its place. -/
def placeFields : List (Nat × Nat) → Nat
  | [] => 0
  | (lo, v) :: rest => v * 2 ^ lo + placeFields rest

/-- The command word of a command (30_encoding.md R90 to R93): the opcode in bits 31:26, each field at its place, every
reserved bit 0. -/
def encode (i : Instr) : Word :=
  BitVec.ofNat 32 (i.opcode.bits.toNat * 2 ^ 26 + placeFields i.fields)

end Sys2Proof
end

