-- ==== Sys2Proof/Config.lean ====
section
/-! DEFINITION. What one instance of the block fixes when it is built (00_scope.md R5), and the free value. -/

namespace Sys2Proof

/-- The parameters of one instance (00_scope.md R5) and its place on the bus (20_memory.md R70).
They are constants of the instance, held in State because the host reads them in PARAM0 and PARAM1. -/
structure Params where
  /-- bytes in BUF, and the largest legal FRAME_MAX -/
  bufSize : Nat
  /-- records in each of OBS and OBUF -/
  maxObs  : Nat
  /-- frequency slots per record and per satellite -/
  nSlot   : Nat
  /-- largest satellite number the SCT accepts -/
  maxSat  : Nat
  /-- FSS_BASE, the bus address of offset 0 of the register window -/
  fssBase : Nat
deriving DecidableEq, Repr

/-- The defaults of 00_scope.md R5. FSS_BASE has no default in the spec: 0 is a DESIGN CHOICE (log 5, unsafe). -/
def Params.default : Params :=
  { bufSize := 16384, maxObs := 96, nSlot := 3, maxSat := 255, fssBase := 0 }

/-- The legal ranges of 00_scope.md R5. -/
def Params.legal (p : Params) : Bool :=
  decide (8 ≤ p.bufSize ∧ p.bufSize ≤ 65535 ∧ 1 ≤ p.maxObs ∧ p.maxObs ≤ 255 ∧
    1 ≤ p.nSlot ∧ p.nSlot ≤ 15 ∧ 1 ≤ p.maxSat ∧ p.maxSat ≤ 255)

/-- NTYPE, the number of type-filter entries (00_scope.md R5, fixed at 16). -/
def ntype : Nat := 16

/-- Bytes in the register window (20_memory.md R70). -/
def windowBytes : Nat := 512

/-- FREE VALUE (log 7, DESIGN CHOICE, safe). Which of several records of one satellite OBS.DWR writes, drawn by
the counter `freeCount`; the spec calls the record unique (44_epoch_buffer.md R203) and lets a flush make two
(R215(c)). It has no body, so no proof knows its value. -/
opaque Config.duplicateChoice : Nat → Nat

end Sys2Proof
end

