-- ==== Sys2Proof/Machine/State.lean ====
section
/-! DEFINITION. The state of one FSS instance (10_state.md R20), its faults and refusals, and hardware reset
(70_reset_and_hazards.md R290). -/

namespace Sys2Proof.Machine

/-- The outcome codes of a command (10_state.md R28). -/
inductive Code where
  | ok
  | obsUpdate
  | frameReady
  | error
  | refused
deriving DecidableEq, Repr

/-- The reasons of an ERROR or REFUSED outcome, and NONE (10_state.md R29). -/
inductive Cause where
  | none
  | lenZero
  | lenOversize
  | lenBadhex
  | ckMismatch
  | satZero
  | satRange
  | slotRange
  | epochFull
  | ordRange
  | countRange
  | countMismatch
  | oob
  | badOpcode
  | badField
  | wrongState
  | cfgIllegal
deriving DecidableEq, Repr

/-- The SYNC state SSTATE (10_state.md R47). -/
inductive SState where
  | seeking
  | header
  | payload
  | complete
deriving DecidableEq, Repr

/-- The five checksum algorithms (10_state.md R40; 42_checksum.md R151 to R155). -/
inductive Alg where
  | rotxor
  | xor
  | add8
  | crc32
  | crc24q
deriving DecidableEq, Repr

/-- The measurements of one frequency slot of a record (10_state.md R51). -/
structure SlotRec where
  p    : DWord
  l    : DWord
  d    : DWord
  snr  : BitVec 16
  lli  : Byte
  code : Byte
deriving DecidableEq, Repr

/-- An observation record (10_state.md R51): satellite, timestamp, timestamp-set bit, and NSLOT slots. -/
structure Rec where
  sat   : Byte
  time  : DWord
  tv    : Bool
  slots : List SlotRec
deriving DecidableEq, Repr

/-- One entry of the lock table (10_state.md R54). -/
structure LkEntry where
  cnt : Word
  t   : DWord
  hc  : Bool
  v   : Bool
deriving DecidableEq, Repr

/-- The CFG registers (10_state.md R36 to R46), each the word the host reads back: reserved bits are not stored. -/
structure CfgRegs where
  syncCfg     : Word
  syncPat0    : Word
  syncPat1    : Word
  hdrCfg      : Word
  lenCfg      : Word
  ckCfg       : Word
  crc32Init   : Word
  crc32Xorout : Word
  typeCfg     : Word
  frameMax    : Word
  lkCfg       : Word
  lkScale     : Word
  lkSlack     : Word
  lkSat       : Word
  sentLo      : Word
  sentHi      : Word
  tfValid     : Word
  /-- TF_TYPE0 to TF_TYPE15 -/
  tfType      : List Word
deriving DecidableEq, Repr

/-- The byte array BUF in one canonical form: addresses strictly rising, no entry equal to 0, which is what an
unlisted address reads as (70_reset_and_hazards.md R290: BUF is all 0 after reset). -/
abbrev Memory := List Host.Cell

/-- What the host does to the block: a bus transaction of some width in bits at a bus address (20_memory.md R70, R73), or
hardware reset, which happens between transactions (70_reset_and_hazards.md R290). -/
inductive BusEvent where
  | read (addr width : Nat)
  | write (addr width : Nat) (data : Word)
  | reset
deriving DecidableEq, Repr

/-- The state of one instance (10_state.md R20), and three fields of the model's own at the end. -/
structure State where
  /-- the instance's parameters, constant (00_scope.md R5) -/
  params    : Params
  arg0      : Word
  arg1      : Word
  res0      : Word
  res1      : Word
  code      : Code
  cause     : Cause
  isOpen    : Bool
  sstate    : SState
  werr      : Bool
  fxMissing : Bool
  fxNan     : Bool
  nbyte     : BitVec 16
  flen      : BitVec 16
  ftype     : Word
  fdecIdx   : BitVec 4
  fdecHit   : Bool
  obsN      : Byte
  stgN      : Byte
  timeLo    : Word
  timeHi    : Word
  /-- CKA; none is 0, not initialised (10_state.md R35) -/
  cka       : Option Alg
  ckf       : Bool
  acc       : Word
  cfg       : CfgRegs
  /-- WIN[0..4] (10_state.md R48) -/
  win       : List Byte
  wcnt      : Nat
  buf       : Memory
  /-- OBS[0..MAXOBS) -/
  obs       : List Rec
  /-- OBUF[0..MAXOBS) -/
  obuf      : List Rec
  /-- LK: row sat-1, column slot -/
  lk        : List (List LkEntry)
  /-- the model's own (log 1): what the host has yet to do, oldest first -/
  bus       : List BusEvent
  /-- the model's own (log 2): the value the last transaction answered, if it was a read -/
  reply     : Option Word
  /-- the model's own (log 7): how many free values have been drawn -/
  freeCount : Nat
deriving DecidableEq, Repr

/-- Why the machine stops. No command raises a fault: every error of the block is an outcome in STATUS, and the
machine goes on (60_exceptions.md R265). -/
inductive Fault where
  /-- Raised by a bus read or write whose address lies outside the 512-byte window at FSS_BASE (20_memory.md R70): no
  register of the block is there. Safe: the model stops where the hardware would not be addressed (log 6). -/
  | outsideWindow
deriving DecidableEq, Repr

/-- Why a step has no meaning. -/
inductive Refusal where
  /-- Raised by an arm of `exec` whose instruction has no meaning yet. No arm raises it: all 24 commands have their
  meaning. Safe. -/
  | notModelled (mnemonic : String)
deriving DecidableEq, Repr

/-- The all-zero slot (10_state.md R51). -/
def SlotRec.zero : SlotRec := { p := 0, l := 0, d := 0, snr := 0, lli := 0, code := 0 }

/-- The all-zero record of an instance with `nSlot` slots (10_state.md R51). -/
def Rec.zero (nSlot : Nat) : Rec :=
  { sat := 0, time := 0, tv := false, slots := List.replicate nSlot SlotRec.zero }

/-- The cleared lock entry (10_state.md R54). -/
def LkEntry.zero : LkEntry := { cnt := 0, t := 0, hc := false, v := false }

/-- OBS or OBUF with every record all-zero. -/
def zeroRecords (p : Params) : List Rec := List.replicate p.maxObs (Rec.zero p.nSlot)

/-- LK with every entry cleared. -/
def zeroLk (p : Params) : List (List LkEntry) :=
  List.replicate p.maxSat (List.replicate p.nSlot LkEntry.zero)

/-- The sync window with every byte 0. -/
def zeroWin : List Byte := List.replicate 5 0

/-- The CFG registers after reset (70_reset_and_hazards.md R290). -/
def CfgRegs.reset (p : Params) : CfgRegs :=
  { syncCfg := 0, syncPat0 := 0, syncPat1 := 0, hdrCfg := 0, lenCfg := 0, ckCfg := 0
    crc32Init := 0, crc32Xorout := 0, typeCfg := 0, frameMax := BitVec.ofNat 32 p.bufSize
    lkCfg := 0, lkScale := 1000000, lkSlack := 50000000, lkSat := 0xFFFFFFFF
    sentLo := 0, sentHi := 0, tfValid := 0, tfType := List.replicate ntype 0 }

/-- An instance with the given parameters after hardware reset (70_reset_and_hazards.md R290), with no transaction
pending. -/
def State.resetOf (p : Params) : State :=
  { params := p, arg0 := 0, arg1 := 0, res0 := 0, res1 := 0
    code := .ok, cause := .none, isOpen := false, sstate := .seeking, werr := false
    fxMissing := false, fxNan := false, nbyte := 0, flen := 0, ftype := 0, fdecIdx := 0, fdecHit := false
    obsN := 0, stgN := 0, timeLo := 0, timeHi := 0, cka := none, ckf := false, acc := 0
    cfg := CfgRegs.reset p, win := zeroWin, wcnt := 0, buf := []
    obs := zeroRecords p, obuf := zeroRecords p, lk := zeroLk p
    bus := [], reply := none, freeCount := 0 }

/-- The machine right after hardware reset, with the default parameters (00_scope.md R5). -/
def State.reset : State := State.resetOf Params.default

end Sys2Proof.Machine
end

