-- ==== Sys2Proof/Machine/Flags.lean ====
section
/-! DEFINITION. The encodings of the status, codec, type and checksum flags as register words, and every
computation of a flag bit: sentinel, NaN, slip and loss-of-lock. -/

namespace Sys2Proof.Machine

/-- STATUS.CODE of an outcome (10_state.md R28). -/
def Code.bits : Code → Byte
  | .ok => 0x00#8
  | .obsUpdate => 0x01#8
  | .frameReady => 0x10#8
  | .error => 0xFF#8
  | .refused => 0xFE#8

/-- STATUS.CAUSE of a reason (10_state.md R29). -/
def Cause.bits : Cause → Byte
  | .none => 0x00#8
  | .lenZero => 0x01#8
  | .lenOversize => 0x02#8
  | .lenBadhex => 0x03#8
  | .ckMismatch => 0x10#8
  | .satZero => 0x20#8
  | .satRange => 0x21#8
  | .slotRange => 0x22#8
  | .epochFull => 0x23#8
  | .ordRange => 0x24#8
  | .countRange => 0x25#8
  | .countMismatch => 0x26#8
  | .oob => 0x30#8
  | .badOpcode => 0x80#8
  | .badField => 0x81#8
  | .wrongState => 0x82#8
  | .cfgIllegal => 0x83#8

/-- STATUS.SSTATE (10_state.md R47). -/
def SState.bits : SState → BitVec 2
  | .seeking => 0#2
  | .header => 1#2
  | .payload => 2#2
  | .complete => 3#2

/-- The number of an algorithm in CK_ALG, ALG and CKA (10_state.md R40). -/
def Alg.bits : Alg → BitVec 3
  | .rotxor => 1#3
  | .xor => 2#3
  | .add8 => 3#3
  | .crc32 => 4#3
  | .crc24q => 5#3

/-- The algorithm with a number: none for 0 (no algorithm) and for the reserved 6 and 7 (10_state.md R40). -/
def Alg.ofBits (b : BitVec 3) : Option Alg :=
  match b.toNat with
  | 1 => some .rotxor
  | 2 => some .xor
  | 3 => some .add8
  | 4 => some .crc32
  | 5 => some .crc24q
  | _ => none

/-- One bit of a register word. -/
def bit (b : Bool) : BitVec 1 := BitVec.ofBool b

/-- The STATUS word (10_state.md R27): CODE [7:0], CAUSE [15:8], OPEN [16], SSTATE [18:17], WERR [19]. -/
def State.statusWord (s : State) : Word :=
  0#12 ++ bit s.werr ++ s.sstate.bits ++ bit s.isOpen ++ s.cause.bits ++ s.code.bits

/-- The FXF word (10_state.md R30): MISSING [0], NAN [1]. -/
def State.fxfWord (s : State) : Word := 0#30 ++ bit s.fxNan ++ bit s.fxMissing

/-- The FDEC word (10_state.md R32): IDX [3:0], HIT [4]. -/
def State.fdecWord (s : State) : Word := 0#27 ++ bit s.fdecHit ++ s.fdecIdx

/-- The CKA field: 0 when no host checksum is initialised (10_state.md R35). -/
def ckaBits : Option Alg → BitVec 3
  | none => 0#3
  | some a => a.bits

/-- The CKSTAT word (10_state.md R35): CKA [2:0], CKF [3]. -/
def State.ckstatWord (s : State) : Word := 0#28 ++ bit s.ckf ++ ckaBits s.cka

/-- The sentinel test on the raw value of n bytes (43_field_codec.md R181). -/
def sentinelHit (sm : SentMode) (raw n : Nat) (sent : DWord) : Bool :=
  match sm with
  | .none => false
  | .ones => raw == 2 ^ (8 * n) - 1
  | .maxpos => raw == 2 ^ (8 * n - 1) - 1
  | .sent => raw == sent.toNat % 2 ^ (8 * n)

/-- A binary32 NaN, quiet or signalling: exponent all ones, fraction not 0 (43_field_codec.md R185). -/
def isNan32 (raw : BitVec 32) : Bool :=
  raw.extractLsb' 23 8 == 0xFF#8 && raw.extractLsb' 0 23 != 0#23

/-- A binary64 NaN, quiet or signalling (43_field_codec.md R186). -/
def isNan64 (raw : BitVec 64) : Bool :=
  raw.extractLsb' 52 11 == 0x7FF#11 && raw.extractLsb' 0 52 != 0#52

/-- `mis` of 45_continuity.md R240, an exact integer in nanoseconds: elapsed time less the counter's growth. -/
def lockMismatch (e : LkEntry) (n : Word) (t : DWord) (scale : Word) : Int :=
  (t.toInt - e.t.toInt) - ((n.toNat : Int) - (e.cnt.toNat : Int)) * (scale.toNat : Int)

/-- The growth test of 45_continuity.md R240: strict when LK_GE is 0, else not strict. -/
def growthSlip (ge : Bool) (mis : Int) (slack : Word) : Bool :=
  if ge then decide (mis ≥ (slack.toNat : Int)) else decide (mis > (slack.toNat : Int))

/-- The counter's part of the slip (45_continuity.md R240): zero, a decrease, or the growth test below LK_SAT. -/
def counterSlip (ge : Bool) (scale slack sat : Word) (e : LkEntry) (n : Word) (t : DWord) : Bool :=
  if n.toNat = 0 ∨ n.toNat < e.cnt.toNat then true
  else if n.toNat < sat.toNat then growthSlip ge (lockMismatch e n t scale) slack
  else false

/-- The slip of one update (45_continuity.md R240): never on a first observation; then the counter's part if a counter is
supplied, and the half-cycle part if it is asked for. -/
def slipOf (ge : Bool) (scale slack sat : Word) (e : LkEntry) (c h hc : Bool) (n : Word) (t : DWord) : Bool :=
  e.v && ((c && counterSlip ge scale slack sat e n t) || (h && hc != e.hc))

/-- The loss-of-lock bits of LK.UPD (45_continuity.md R242): bit 0 slip, bit 1 the half-cycle flag. -/
def lliBits (slip hc : Bool) : DWord := 0#62 ++ bit hc ++ bit slip

end Sys2Proof.Machine
end

