-- ==== Sys2Proof/Machine/Operands.lean ====
section
/-! DEFINITION. Every operand a command reads: the fields of the CFG registers, the bytes packed in ARG0, the 64-bit register
pairs, byte strings as numbers, and the value source of an epoch-buffer write. -/

namespace Sys2Proof.Machine

/-! ## Fields of the CFG registers (10_state.md R37 to R46) -/

/-- SYNC_LEN (10_state.md R37). -/
def State.syncLen (s : State) : Nat := (s.cfg.syncCfg.extractLsb' 0 3).toNat

/-- PAT[0..4], PAT[0] the first stream byte (10_state.md R37). -/
def State.pattern (s : State) : List Byte :=
  [s.cfg.syncPat0.extractLsb' 0 8, s.cfg.syncPat0.extractLsb' 8 8, s.cfg.syncPat0.extractLsb' 16 8,
   s.cfg.syncPat0.extractLsb' 24 8, s.cfg.syncPat1.extractLsb' 0 8]

/-- HDR_LEN (10_state.md R38). -/
def State.hdrLen (s : State) : Nat := (s.cfg.hdrCfg.extractLsb' 0 16).toNat

/-- LEN_OFF (10_state.md R38). -/
def State.lenOff (s : State) : Nat := (s.cfg.hdrCfg.extractLsb' 16 16).toNat

/-- LEN_ENC (10_state.md R39). -/
def State.lenEnc (s : State) : Nat := (s.cfg.lenCfg.extractLsb' 0 3).toNat

/-- LW, the width of the length field (10_state.md R39): 2 for BIN16, 4 for BIN32, 3 for HEX3. The reserved
encodings 5 to 7 have none, and OPEN refuses them. -/
def lenWidth (enc : Nat) : Nat :=
  if enc ≤ 1 then 2 else if enc ≤ 3 then 4 else if enc = 4 then 3 else 0

/-- CK_ALG as a number (10_state.md R40). -/
def State.ckAlgNum (s : State) : Nat := (s.cfg.ckCfg.extractLsb' 0 3).toNat

/-- CK_ALG as an algorithm: none for NONE (10_state.md R40). -/
def State.ckAlg (s : State) : Option Alg := Alg.ofBits (s.cfg.ckCfg.extractLsb' 0 3)

/-- CK_INCL (10_state.md R40). -/
def State.ckIncl (s : State) : Bool := s.cfg.ckCfg.getLsbD 3

/-- CK_ROTF (10_state.md R40). -/
def State.ckRotf (s : State) : Bool := s.cfg.ckCfg.getLsbD 4

/-- CK_START (10_state.md R40). -/
def State.ckStart (s : State) : Nat := (s.cfg.ckCfg.extractLsb' 16 16).toNat

/-- TRL of an algorithm, in bytes (10_state.md R40). -/
def Alg.trl : Alg → Nat
  | .rotxor => 1
  | .xor => 1
  | .add8 => 1
  | .crc32 => 4
  | .crc24q => 3

/-- TRL of CK_ALG: 0 for NONE (10_state.md R40). -/
def trailerLen : Option Alg → Nat
  | none => 0
  | some a => a.trl

/-- TRL of the configured algorithm. -/
def State.trl (s : State) : Nat := trailerLen s.ckAlg

/-- TYPE_OFF (10_state.md R42). -/
def State.typeOff (s : State) : Nat := (s.cfg.typeCfg.extractLsb' 0 16).toNat

/-- TYPE_W (10_state.md R42). -/
def State.typeW (s : State) : Nat := (s.cfg.typeCfg.extractLsb' 16 3).toNat

/-- TYPE_BE as a byte order (10_state.md R42). -/
def State.typeEndian (s : State) : Endian := if s.cfg.typeCfg.getLsbD 19 then .big else .little

/-- TF_EN (10_state.md R42). -/
def State.tfEn (s : State) : Bool := s.cfg.typeCfg.getLsbD 20

/-- FRAME_MAX (10_state.md R43). -/
def State.frameMax (s : State) : Nat := (s.cfg.frameMax.extractLsb' 0 16).toNat

/-- LK_GE (10_state.md R44). -/
def State.lkGe (s : State) : Bool := s.cfg.lkCfg.getLsbD 0

/-- TF_VALID[j] (10_state.md R46). -/
def State.tfValid (s : State) (j : Nat) : Bool := (s.cfg.tfValid.extractLsb' 0 16).getLsbD j

/-- TF_TYPEj (10_state.md R46). -/
def State.tfType (s : State) (j : Nat) : Word := s.cfg.tfType.getD j 0

/-! ## Register pairs and packed bytes (20_memory.md R78) -/

/-- `{hi, lo}` as 64 bits (00_scope.md R7). -/
def pair (hi lo : Word) : DWord := hi ++ lo

/-- TIME (10_state.md R33). -/
def State.time (s : State) : DWord := pair s.timeHi s.timeLo

/-- SENT (10_state.md R45). -/
def State.sent (s : State) : DWord := pair s.cfg.sentHi s.cfg.sentLo

/-- Byte j of ARG0, byte 0 first in stream order (20_memory.md R78). -/
def State.argByte (s : State) (j : Nat) : Byte := s.arg0.extractLsb' (8 * j) 8

/-- The first n bytes packed in ARG0, in stream order (10_state.md R22). -/
def State.argBytes (s : State) (n : Nat) : List Byte := (List.range n).map s.argByte

/-! ## Byte strings as numbers (20_memory.md R77) -/

/-- Little-endian: the first byte is the least significant. -/
def leNat : List Byte → Nat
  | [] => 0
  | b :: bs => b.toNat + 256 * leNat bs

/-- The value of a byte string in a byte order (43_field_codec.md R182). -/
def bytesNat (e : Endian) (bs : List Byte) : Nat :=
  match e with
  | .little => leNat bs
  | .big => leNat bs.reverse

/-! ## The value source of OBS.DWR and STG.WR (44_epoch_buffer.md R202) -/

/-- The 64-bit value, and whether it is missing. -/
def State.writeValue (s : State) (src : Source) (m : Bool) : DWord × Bool :=
  match src with
  | .arg => (pair s.arg1 s.arg0, m)
  | .res => (pair s.res1 s.res0, m || s.fxMissing)

end Sys2Proof.Machine
end

