-- ==== Sys2Proof/Machine/Ops.lean ====
section
/-! DEFINITION. The named operations every meaning is built from: BUF as a memory, the end of a command (OK, ERROR, REFUSED), the
result and flag registers, the reset of SYNC, the frame view, the record arrays and the lock table. -/

namespace Sys2Proof.Machine

/-! ## BUF (10_state.md R49) -/

/-- What a byte of BUF that nothing has written reads as: its reset value (70_reset_and_hazards.md R290). -/
def Memory.unlisted : Byte := 0

/-- Read one byte. -/
def Memory.read : Memory → Nat → Byte
  | [], _ => Memory.unlisted
  | (k, v) :: rest, a => if a = k then v else Memory.read rest a

/-- Put a cell before a list of higher cells, or leave it out if it holds what an unlisted byte reads as. -/
def Memory.consCell (a : Nat) (b : Byte) (m : Memory) : Memory :=
  if b = Memory.unlisted then m else (a, b) :: m

/-- Write one byte, keeping the canonical form. -/
def Memory.write : Memory → Nat → Byte → Memory
  | [], a, b => Memory.consCell a b []
  | (k, v) :: rest, a, b =>
    if a < k then Memory.consCell a b ((k, v) :: rest)
    else if a = k then Memory.consCell a b rest
    else (k, v) :: Memory.write rest a b

/-- Write bytes at consecutive addresses. -/
def Memory.writeList : Memory → Nat → List Byte → Memory
  | m, _, [] => m
  | m, a, b :: bs => Memory.writeList (Memory.write m a b) (a + 1) bs

/-- The bytes of [a, a+n), in order. -/
def Memory.slice (m : Memory) (a n : Nat) : List Byte := (List.range n).map fun i => Memory.read m (a + i)

/-- Every address is at least `lo` and they rise strictly; no byte equals what an unlisted one reads as. -/
def Memory.wfFrom : Nat → Memory → Bool
  | _, [] => true
  | lo, (k, v) :: rest => decide (lo ≤ k) && decide (v ≠ Memory.unlisted) && Memory.wfFrom (k + 1) rest

/-- The canonical form. -/
def Memory.wf (m : Memory) : Bool := Memory.wfFrom 0 m

/-- Every listed address is below `n`. -/
def Memory.below (n : Nat) (m : Memory) : Bool := m.all fun c => decide (c.1 < n)

/-! ## The end of a command (00_scope.md R9). This is the whole of the block's exception mechanism: no state is saved, no
mode changes and control goes nowhere (60_exceptions.md R265); there is no return from it (R266). -/

/-- `finish(code, cause)`: every command ends in exactly one. -/
def State.finish (s : State) (c : Code) (k : Cause) : State := { s with code := c, cause := k }

/-- The normal end of a command with no update. -/
def State.finishOk (s : State) : State := s.finish .ok .none

/-- `raise Error(cause)` (00_scope.md R9, 60_exceptions.md R260), after the changes the rule lists. -/
def State.raiseError (s : State) (k : Cause) : State := s.finish .error k

/-- `raise Refused(cause)` (00_scope.md R9, 60_exceptions.md R262): nothing else changes. -/
def State.raiseRefused (s : State) (k : Cause) : State := s.finish .refused k

/-! ## Result and codec flag registers -/

/-- A 64-bit result into RES1:RES0 (10_state.md R23). -/
def State.setRes (s : State) (v : DWord) : State :=
  { s with res0 := v.extractLsb' 0 32, res1 := v.extractLsb' 32 32 }

/-- FXF.MISSING and FXF.NAN (10_state.md R30). -/
def State.setFxf (s : State) (missing nan : Bool) : State := { s with fxMissing := missing, fxNan := nan }

/-! ## SYNC -/

/-- `syncReset()` (41_synchronizer.md R122). -/
def State.syncReset (s : State) : State :=
  { s with sstate := .seeking, nbyte := 0, flen := 0, wcnt := 0, win := zeroWin }

/-- `BUF[NBYTE] <- b ; NBYTE <- NBYTE + 1` (41_synchronizer.md R125, R128). -/
def State.putByte (s : State) (b : Byte) : State :=
  { s with buf := Memory.write s.buf s.nbyte.toNat b, nbyte := s.nbyte + 1 }

/-- The bytes BUF[a .. a+n). -/
def State.bufBytes (s : State) (a n : Nat) : List Byte := Memory.slice s.buf a n

/-- The bound of the frame view: FLEN in COMPLETE, else 0 (43_field_codec.md R180). -/
def State.frameBound (s : State) : Nat :=
  match s.sstate with
  | .complete => s.flen.toNat
  | .seeking => 0
  | .header => 0
  | .payload => 0

/-! ## Records (10_state.md R51 to R53) -/

/-- An all-zero record of this instance. -/
def State.zeroRec (s : State) : Rec := Rec.zero s.params.nSlot

/-- Record i of a record array; no command reads beyond the array. -/
def State.recAt (s : State) (arr : List Rec) (i : Nat) : Rec := arr.getD i s.zeroRec

/-- One field of a slot, by FLD id 0 to 5, zero-extended to 64 bits (10_state.md R51). -/
def SlotRec.get (r : SlotRec) (fld : Nat) : DWord :=
  match fld with
  | 0 => r.p
  | 1 => r.l
  | 2 => r.d
  | 3 => r.snr.setWidth 64
  | 4 => r.lli.setWidth 64
  | 5 => r.code.setWidth 64
  | _ => 0

/-- Write one field of a slot, by FLD id 0 to 5, truncating to the field's width (44_epoch_buffer.md R202). -/
def SlotRec.set (r : SlotRec) (fld : Nat) (v : DWord) : SlotRec :=
  match fld with
  | 0 => { r with p := v }
  | 1 => { r with l := v }
  | 2 => { r with d := v }
  | 3 => { r with snr := v.setWidth 16 }
  | 4 => { r with lli := v.setWidth 8 }
  | 5 => { r with code := v.setWidth 8 }
  | _ => r

/-- Slot `slot` of a record. -/
def Rec.slot (r : Rec) (slot : Nat) : SlotRec := r.slots.getD slot SlotRec.zero

/-- `writeField` (44_epoch_buffer.md R202): a missing value leaves the field untouched. -/
def Rec.writeField (r : Rec) (slot fld : Nat) (v : DWord) (missing : Bool) : Rec :=
  if missing then r else { r with slots := r.slots.set slot ((r.slot slot).set fld v) }

/-- The value of a record field as `readRecord` returns it (44_epoch_buffer.md R206). -/
def Rec.readField (r : Rec) (slot fld : Nat) : DWord :=
  if fld = 8 then r.sat.setWidth 64
  else if fld = 9 then r.time
  else if fld = 10 then (BitVec.ofBool r.tv).setWidth 64
  else (r.slot slot).get fld

/-- OBS and OBS_N. -/
def State.setObs (s : State) (arr : List Rec) (n : Byte) : State := { s with obs := arr, obsN := n }

/-- OBUF and STG_N. -/
def State.setStaged (s : State) (arr : List Rec) (n : Byte) : State := { s with obuf := arr, stgN := n }

/-- OBUF all-zero with a staged count (44_epoch_buffer.md R208, R213). -/
def State.clearStaged (s : State) (n : Byte) : State := s.setStaged (zeroRecords s.params) n

/-- `readRecord(A, N)` (44_epoch_buffer.md R206). -/
def State.readRecord (s : State) (arr : List Rec) (n : Nat) (fld slot idx : Nat) : State :=
  if idx ≥ n then (s.setRes 0).raiseError .ordRange
  else if fld ≤ 5 ∧ slot ≥ s.params.nSlot then (s.setRes 0).raiseError .slotRange
  else (s.setRes ((s.recAt arr idx).readField slot fld)).finishOk

/-! ## The lock table (10_state.md R54) -/

/-- LK[sat][slot]: satellite numbers count from 1. -/
def lkGet (lk : List (List LkEntry)) (sat slot : Nat) : LkEntry :=
  (lk.getD (sat - 1) []).getD slot LkEntry.zero

/-- LK[sat][slot] <- e. -/
def lkSet (lk : List (List LkEntry)) (sat slot : Nat) (e : LkEntry) : List (List LkEntry) :=
  lk.set (sat - 1) ((lk.getD (sat - 1) []).set slot e)

/-- LK <- a new table. -/
def State.setLk (s : State) (lk : List (List LkEntry)) : State := { s with lk := lk }

/-- The operand errors of LK.UPD and LK.RD, in the order SAT_ZERO, SAT_RANGE, SLOT_RANGE (60_exceptions.md R264). -/
def State.lkError (s : State) (sat slot : Nat) : Option Cause :=
  if sat = 0 then some .satZero
  else if sat > s.params.maxSat then some .satRange
  else if slot ≥ s.params.nSlot then some .slotRange
  else none

/-! ## The host accumulator (10_state.md R50) -/

/-- ACC <- a. -/
def State.setAcc (s : State) (a : Word) : State := { s with acc := a }

end Sys2Proof.Machine
end

