-- ==== Sys2Proof/Machine/Codec.lean ====
section
/-! DEFINITION. The field codec (43_field_codec.md): the bounds check, byte order, sentinel, sign extension, widening
of binary32, and the commands FX.U, FX.S, FX.F32 and FX.F64. -/

namespace Sys2Proof.Machine

/-- `rawBytes(OFF, n, E)` (43_field_codec.md R182). -/
def State.rawBytes (s : State) (off n : Nat) (e : Endian) : Nat := bytesNat e (s.bufBytes off n)

/-- The end of an FX command with a value and its flags (43_field_codec.md R183). -/
def State.fxFinish (s : State) (v : DWord) (missing nan : Bool) : State :=
  ((s.setRes v).setFxf missing nan).finishOk

/-- The out-of-bounds end of an FX command (43_field_codec.md R180). -/
def State.fxOob (s : State) : State := ((s.setRes 0).setFxf false false).raiseError .oob

/-- The common part of every FX command (43_field_codec.md R180, R181): read n bytes inside the frame view and test the
sentinel; `conv` gives the value and whether the encoding is a NaN. A NaN is missing too (R188). -/
def State.fxRead (s : State) (e : Endian) (sm : SentMode) (n off : Nat) (conv : Nat → DWord × Bool) : State :=
  if off + n > s.frameBound then s.fxOob
  else
    let raw := s.rawBytes off n e
    let r := conv raw
    s.fxFinish r.1 (sentinelHit sm raw n s.sent || r.2) r.2

/-- `sext_64(raw, 8n)` (00_scope.md R8, 43_field_codec.md R184). -/
def signExtend64 (raw n : Nat) : DWord := (BitVec.ofNat (8 * n) raw).signExtend 64

/-- `widen32(x)`: the binary64 pattern of a binary32 pattern that is no NaN (43_field_codec.md R187). -/
def widen32 (x : BitVec 32) : DWord :=
  let sgn : BitVec 1 := x.extractLsb' 31 1
  let e : Nat := (x.extractLsb' 23 8).toNat
  let f : BitVec 23 := x.extractLsb' 0 23
  if e = 0xFF then sgn ++ 0x7FF#11 ++ 0#52
  else if e = 0 then
    if f = 0#23 then sgn ++ 0#11 ++ 0#52
    else
      let k := Nat.log2 f.toNat
      sgn ++ BitVec.ofNat 11 (k + 874) ++ (f.setWidth 52 <<< (52 - k))
  else sgn ++ BitVec.ofNat 11 (e + 1023 - 127) ++ f ++ 0#29

/-- The value of a binary32 field, 0 for a NaN (43_field_codec.md R185, R188). -/
def convF32 (raw : Nat) : DWord × Bool :=
  let x := BitVec.ofNat 32 raw
  if isNan32 x then (0, true) else (widen32 x, false)

/-- The value of a binary64 field, 0 for a NaN (43_field_codec.md R186, R188). -/
def convF64 (raw : Nat) : DWord × Bool :=
  let x := BitVec.ofNat 64 raw
  if isNan64 x then (0, true) else (x, false)

/-- FX.U (43_field_codec.md R183). -/
def execFxU (e : Endian) (sm : SentMode) (w : BitVec 3) (off : BitVec 16) (s : State) :
    Host.Outcome State Fault Refusal :=
  .next (s.fxRead e sm (w.toNat + 1) off.toNat fun raw => (BitVec.ofNat 64 raw, false))

/-- FX.S (43_field_codec.md R184). -/
def execFxS (e : Endian) (sm : SentMode) (w : BitVec 3) (off : BitVec 16) (s : State) :
    Host.Outcome State Fault Refusal :=
  .next (s.fxRead e sm (w.toNat + 1) off.toNat fun raw => (signExtend64 raw (w.toNat + 1), false))

/-- FX.F32 (43_field_codec.md R185). -/
def execFxF32 (e : Endian) (sm : SentMode) (off : BitVec 16) (s : State) : Host.Outcome State Fault Refusal :=
  .next (s.fxRead e sm 4 off.toNat convF32)

/-- FX.F64 (43_field_codec.md R186). -/
def execFxF64 (e : Endian) (sm : SentMode) (off : BitVec 16) (s : State) : Host.Outcome State Fault Refusal :=
  .next (s.fxRead e sm 8 off.toNat convF64)

end Sys2Proof.Machine
end

