-- ==== Sys2Proof/Machine/Continuity.lean ====
section
/-! DEFINITION. The signal continuity tracker (45_continuity.md): LK.UPD and LK.RD. -/

namespace Sys2Proof.Machine

/-- The slip that `updateLock` returns (45_continuity.md R240), with the SCT registers of the state. -/
def State.lockSlip (s : State) (c h hc : Bool) (e : LkEntry) : Bool :=
  slipOf s.lkGe s.cfg.lkScale s.cfg.lkSlack s.cfg.lkSat e c h hc s.arg0 s.time

/-- The entry that `updateLock` leaves (45_continuity.md R240): the counter only if one is supplied. -/
def State.lockEntry (s : State) (c hc : Bool) (e : LkEntry) : LkEntry :=
  { cnt := if c then s.arg0 else e.cnt, t := s.time, hc := hc, v := true }

/-- LK.UPD (45_continuity.md R241). -/
def execLkUpd (c h hc : Bool) (slot : BitVec 4) (sat : Byte) (s : State) : Host.Outcome State Fault Refusal :=
  if s.isOpen then
    match s.lkError sat.toNat slot.toNat with
    | some k => .next (s.raiseError k)
    | none =>
      let e := lkGet s.lk sat.toNat slot.toNat
      .next (((s.setLk (lkSet s.lk sat.toNat slot.toNat (s.lockEntry c hc e))).setRes
        (lliBits (s.lockSlip c h hc e) hc)).finishOk)
  else .next (s.raiseRefused .wrongState)

/-- The value of an item of a lock entry (45_continuity.md R243). -/
def LkEntry.item (e : LkEntry) (item : Nat) : DWord :=
  match item with
  | 0 => e.cnt.setWidth 64
  | 1 => e.t
  | _ => 0#62 ++ bit e.v ++ bit e.hc

/-- LK.RD (45_continuity.md R243). -/
def execLkRd (item slot : BitVec 4) (sat : Byte) (s : State) : Host.Outcome State Fault Refusal :=
  if itemLegal item then
    match s.lkError sat.toNat slot.toNat with
    | some k => .next ((s.setRes 0).raiseError k)
    | none => .next ((s.setRes ((lkGet s.lk sat.toNat slot.toNat).item item.toNat)).finishOk)
  else .next (s.raiseRefused .badField)

end Sys2Proof.Machine
end

