-- ==== Sys2Proof/Machine/Epoch.lean ====
section
/-! DEFINITION. The epoch buffer (44_epoch_buffer.md): direct mode (OBS.DWR), staged mode (STG.*), record reads (OBS.RD,
STG.RD) and the flush (FLUSH, and EOI's). -/

namespace Sys2Proof.Machine

/-! ## Direct mode -/

/-- OBS_N as OBS.DWR finds it once the new-epoch test has run: 0 when TIME differs from the set's time (44_epoch_buffer.md R203). -/
def State.epochCount (s : State) : Nat :=
  if s.obsN.toNat > 0 ∧ s.time ≠ (s.recAt s.obs 0).time then 0 else s.obsN.toNat

/-- The ordinals below `n` whose record is of satellite `sat` (44_epoch_buffer.md R203). -/
def State.satOrdinals (s : State) (n : Nat) (sat : Byte) : List Nat :=
  (List.range n).filter fun i => (s.recAt s.obs i).sat == sat

/-- A fresh record of a satellite in the epoch of TIME (44_epoch_buffer.md R203). -/
def State.freshRec (s : State) (sat : Byte) : Rec := { s.zeroRec with sat := sat, time := s.time, tv := true }

/-- OBS.DWR after its checks (44_epoch_buffer.md R203), with `n` records in the epoch. When a flush has put the satellite into the
set more than once, which of those records is written is a free value (log 7). -/
def State.directWrite (s : State) (n slot fld : Nat) (sat : Byte) (v : DWord) (missing : Bool) : State :=
  match s.satOrdinals n sat with
  | [] =>
    if n ≥ s.params.maxObs then s.raiseError .epochFull
    else (s.setObs (s.obs.set n ((s.freshRec sat).writeField slot fld v missing)) (BitVec.ofNat 8 (n + 1))).finishOk
  | [i] => (s.setObs (s.obs.set i ((s.recAt s.obs i).writeField slot fld v missing)) (BitVec.ofNat 8 n)).finishOk
  | i :: j :: rest =>
    let all := i :: j :: rest
    let k := all.getD (Config.duplicateChoice s.freeCount % all.length) i
    ({ s.setObs (s.obs.set k ((s.recAt s.obs k).writeField slot fld v missing)) (BitVec.ofNat 8 n) with
        freeCount := s.freeCount + 1 } : State).finishOk

/-- OBS.DWR (44_epoch_buffer.md R203). -/
def execObsDwr (src : Source) (m : Bool) (fld slot : BitVec 4) (sat : Byte) (s : State) :
    Host.Outcome State Fault Refusal :=
  if fldWritable fld then
    if s.isOpen then
      if sat = 0 then .next (s.raiseError .satZero)
      else if slot.toNat ≥ s.params.nSlot then .next (s.raiseError .slotRange)
      else
        let v := s.writeValue src m
        .next (s.directWrite s.epochCount slot.toNat fld.toNat sat v.1 v.2)
    else .next (s.raiseRefused .wrongState)
  else .next (s.raiseRefused .badField)

/-! ## Reading records -/

/-- OBS.RD (44_epoch_buffer.md R205). -/
def execObsRd (fld slot : BitVec 4) (idx : Byte) (s : State) : Host.Outcome State Fault Refusal :=
  if fldReadable fld slot then .next (s.readRecord s.obs s.obsN.toNat fld.toNat slot.toNat idx.toNat)
  else .next (s.raiseRefused .badField)

/-- STG.RD (44_epoch_buffer.md R212). -/
def execStgRd (fld slot : BitVec 4) (idx : Byte) (s : State) : Host.Outcome State Fault Refusal :=
  if fldReadable fld slot then .next (s.readRecord s.obuf s.stgN.toNat fld.toNat slot.toNat idx.toNat)
  else .next (s.raiseRefused .badField)

/-! ## Staged mode -/

/-- STG.CNT (44_epoch_buffer.md R208). -/
def execStgCnt (n : Byte) (s : State) : Host.Outcome State Fault Refusal :=
  if s.isOpen then
    if n.toNat > s.params.maxObs then .next (s.raiseError .countRange)
    else .next (s.clearStaged n).finishOk
  else .next (s.raiseRefused .wrongState)

/-- STG.SAT (44_epoch_buffer.md R209). -/
def execStgSat (idx sat : Byte) (s : State) : Host.Outcome State Fault Refusal :=
  if s.isOpen then
    if idx.toNat ≥ s.stgN.toNat then .next (s.raiseError .ordRange)
    else .next (s.setStaged (s.obuf.set idx.toNat { s.recAt s.obuf idx.toNat with sat := sat }) s.stgN).finishOk
  else .next (s.raiseRefused .wrongState)

/-- STG.CHK (44_epoch_buffer.md R210). -/
def execStgChk (n : Byte) (s : State) : Host.Outcome State Fault Refusal :=
  if s.isOpen then
    if n ≠ s.stgN then .next (s.raiseError .countMismatch) else .next s.finishOk
  else .next (s.raiseRefused .wrongState)

/-- STG.WR (44_epoch_buffer.md R211). -/
def execStgWr (src : Source) (m : Bool) (fld slot : BitVec 4) (idx : Byte) (s : State) :
    Host.Outcome State Fault Refusal :=
  if fldWritable fld then
    if s.isOpen then
      if idx.toNat ≥ s.stgN.toNat then .next (s.raiseError .ordRange)
      else if slot.toNat ≥ s.params.nSlot then .next (s.raiseError .slotRange)
      else
        let v := s.writeValue src m
        let r : Rec := { s.recAt s.obuf idx.toNat with time := s.time, tv := true }
        .next (s.setStaged (s.obuf.set idx.toNat (r.writeField slot.toNat fld.toNat v.1 v.2)) s.stgN).finishOk
    else .next (s.raiseRefused .wrongState)
  else .next (s.raiseRefused .badField)

/-! ## Flush -/

/-- A staged record that a flush copies: satellite not 0 and timestamp set (44_epoch_buffer.md R213). -/
def Rec.qualifies (r : Rec) : Bool := r.sat != 0 && r.tv

/-- Q of 44_epoch_buffer.md R213, in ordinal order. -/
def State.qualifying (s : State) : List Rec := (s.obuf.take s.stgN.toNat).filter Rec.qualifies

/-- `flushEpoch()` (44_epoch_buffer.md R213): the state after it. Records of OBS at and beyond m keep what they held. -/
def State.flushEpoch (s : State) : State :=
  let q := s.qualifying
  if q.isEmpty then s.clearStaged 0
  else (s.setObs (q ++ s.obs.drop q.length) (BitVec.ofNat 8 q.length)).clearStaged 0

/-- The outcome code of `flushEpoch()` (44_epoch_buffer.md R213). -/
def State.flushCode (s : State) : Code := if s.qualifying.isEmpty then .ok else .obsUpdate

/-- FLUSH (44_epoch_buffer.md R214). -/
def execFlush (s : State) : Host.Outcome State Fault Refusal :=
  if s.isOpen then .next (s.flushEpoch.finish s.flushCode .none) else .next (s.raiseRefused .wrongState)

end Sys2Proof.Machine
end

