-- ==== Sys2Proof/Machine/Session.lean ====
section
/-! DEFINITION. The session commands (40_session.md): NOP, OPEN and EOI. -/

namespace Sys2Proof.Machine

/-- The configuration check of OPEN (40_session.md R111), left to right. -/
def State.cfgLegal (s : State) : Bool :=
  decide (1 ≤ s.syncLen) && decide (s.syncLen ≤ 5)
  && decide (s.lenEnc ≤ 4)
  && decide (s.syncLen ≤ s.lenOff)
  && decide (s.lenOff + lenWidth s.lenEnc ≤ s.hdrLen)
  && decide (s.ckAlgNum ≤ 5)
  && (!s.ckIncl || s.ckAlgNum == 2 || s.ckAlgNum == 5)
  && decide (s.ckStart ≤ s.hdrLen)
  && decide (s.typeW ≤ 4)
  && (s.typeW == 0 || decide (s.typeOff + s.typeW ≤ s.hdrLen))
  && decide (s.hdrLen + 1 + s.trl ≤ s.frameMax) && decide (s.frameMax ≤ s.params.bufSize)

/-- The effects of a successful OPEN, in the order of 40_session.md R112. -/
def State.openEffects (s : State) : State :=
  let s1 : State := ({ s with isOpen := true, werr := false } : State).syncReset
  let s2 : State := { s1 with ftype := 0, fdecIdx := 0, fdecHit := false }
  ((s2.setObs (zeroRecords s.params) 0).clearStaged 0).setLk (zeroLk s.params)

/-- NOP (40_session.md R110). -/
def execNop (s : State) : Host.Outcome State Fault Refusal := .next s.finishOk

/-- OPEN (40_session.md R111, R112). -/
def execOpenSession (s : State) : Host.Outcome State Fault Refusal :=
  if s.isOpen then .next (s.raiseRefused .wrongState)
  else if s.cfgLegal then .next s.openEffects.finishOk
  else .next (s.raiseRefused .cfgIllegal)

/-- EOI (40_session.md R114): the frame in flight is discarded, the staged epoch flushed, the session closed. -/
def execEoi (s : State) : Host.Outcome State Fault Refusal :=
  if s.isOpen then
    let s1 := s.syncReset
    .next (({ s1.flushEpoch with isOpen := false } : State).finish s1.flushCode .none)
  else .next (s.raiseRefused .wrongState)

end Sys2Proof.Machine
end

