-- ==== Sys2Proof/Machine/Checksum.lean ====
section
/-! DEFINITION. The checksum unit (42_checksum.md): the five algorithms, the frame validator's computation, and the
commands CK.INIT, CK.UPD, CK.FIN and CK.FRM. -/

namespace Sys2Proof.Machine

/-! ## Algorithms -/

/-- `rotl8(x, k)` (00_scope.md R8). -/
def rotl8 (x : Byte) (k : Nat) : Byte := (x <<< k) ||| (x >>> (8 - k))

/-- The low 8 bits of an accumulator. -/
def low8 (acc : Word) : Byte := acc.setWidth 8

/-- Apply a function n times. -/
def repeatN (f : Word → Word) : Nat → Word → Word
  | 0, x => x
  | n + 1, x => repeatN f n (f x)

/-- One bit of CRC-32 (42_checksum.md R154). -/
def crc32Bit (acc : Word) : Word :=
  if acc.getLsbD 0 then (acc >>> 1) ^^^ 0xEDB88320#32 else acc >>> 1

/-- One bit of CRC-24Q (42_checksum.md R155): the 25th bit is cleared by the polynomial. -/
def crc24qBit (acc : Word) : Word :=
  if (acc <<< 1).getLsbD 24 then (acc <<< 1) ^^^ 0x1864CFB#32 else acc <<< 1

/-- `init(A)` (42_checksum.md R151 to R155). -/
def Alg.init (a : Alg) (crc32Init : Word) : Word :=
  match a with
  | .rotxor => 0
  | .xor => 0
  | .add8 => 0
  | .crc32 => crc32Init
  | .crc24q => 0

/-- `step(A, acc, b)` (42_checksum.md R151 to R155). -/
def Alg.step (a : Alg) (acc : Word) (b : Byte) : Word :=
  match a with
  | .rotxor => (rotl8 (low8 acc) 2 ^^^ b).setWidth 32
  | .xor => (low8 acc ^^^ b).setWidth 32
  | .add8 => (low8 acc + b).setWidth 32
  | .crc32 => repeatN crc32Bit 8 (acc ^^^ b.setWidth 32)
  | .crc24q => (repeatN crc24qBit 8 (acc ^^^ (b.setWidth 32 <<< 16))) &&& 0xFFFFFF#32

/-- `final(A, acc)` (42_checksum.md R151 to R155), with the final-rotate flag of ROTXOR and the final XOR of CRC-32. -/
def Alg.final (a : Alg) (rotf : Bool) (xorout : Word) (acc : Word) : Word :=
  match a with
  | .rotxor => if rotf then (rotl8 (low8 acc) 2).setWidth 32 else acc
  | .xor => acc
  | .add8 => acc
  | .crc32 => acc ^^^ xorout
  | .crc24q => acc

/-- The accumulator after a byte string. -/
def Alg.run (a : Alg) (acc : Word) (bs : List Byte) : Word := bs.foldl a.step acc

/-- `ckSerialize(A, v)`: the trailer bytes in stream order (42_checksum.md R156). -/
def Alg.serialize (a : Alg) (v : Word) : List Byte :=
  match a with
  | .rotxor => [v.extractLsb' 0 8]
  | .xor => [v.extractLsb' 0 8]
  | .add8 => [v.extractLsb' 0 8]
  | .crc32 => [v.extractLsb' 0 8, v.extractLsb' 8 8, v.extractLsb' 16 8, v.extractLsb' 24 8]
  | .crc24q => [v.extractLsb' 16 8, v.extractLsb' 8 8, v.extractLsb' 0 8]

/-- `ckCompute(A, d)` of the frame validator (42_checksum.md R150, R157). -/
def State.ckCompute (s : State) (a : Alg) (bs : List Byte) : Word :=
  a.final s.ckRotf s.cfg.crc32Xorout (a.run (a.init s.cfg.crc32Init) bs)

/-- The frame validator's verdict on the frame BUF[0 .. FLEN) (41_synchronizer.md R129). -/
def State.frameValid (s : State) : Bool :=
  match s.ckAlg with
  | none => true
  | some a =>
    let flen := s.flen.toNat
    if s.ckIncl then s.ckCompute a (s.bufBytes s.ckStart (flen - s.ckStart)) == 0
    else
      a.serialize (s.ckCompute a (s.bufBytes s.ckStart (flen - a.trl - s.ckStart))) ==
        s.bufBytes (flen - a.trl) a.trl

/-! ## Commands -/

/-- CK.INIT (42_checksum.md R158). An illegal ALG, which the decoder never gives, is BAD_FIELD (30_encoding.md R95, log 9). -/
def execCkInit (rotf : Bool) (alg : BitVec 3) (s : State) : Host.Outcome State Fault Refusal :=
  match Alg.ofBits alg with
  | none => .next (s.raiseRefused .badField)
  | some a => .next ({ s with cka := some a, ckf := rotf, acc := a.init s.cfg.crc32Init } : State).finishOk

/-- CK.UPD (42_checksum.md R159). -/
def execCkUpd (cnt : BitVec 3) (s : State) : Host.Outcome State Fault Refusal :=
  if cntLegal cnt then
    match s.cka with
    | none => .next (s.raiseRefused .wrongState)
    | some a => .next (s.setAcc (a.run s.acc (s.argBytes cnt.toNat))).finishOk
  else .next (s.raiseRefused .badField)

/-- CK.FIN (42_checksum.md R160): RES0 the value, RES1 the trailer bytes, byte 0 lowest. -/
def execCkFin (s : State) : Host.Outcome State Fault Refusal :=
  match s.cka with
  | none => .next (s.raiseRefused .wrongState)
  | some a =>
    let v := a.final s.ckf s.cfg.crc32Xorout s.acc
    .next (s.setRes (pair (BitVec.ofNat 32 (leNat (a.serialize v))) v)).finishOk

/-- CK.FRM (42_checksum.md R161). -/
def execCkFrm (off : BitVec 16) (s : State) : Host.Outcome State Fault Refusal :=
  match s.cka with
  | none => .next (s.raiseRefused .wrongState)
  | some a =>
    if off.toNat + s.arg0.toNat > s.frameBound then .next (s.raiseError .oob)
    else .next (s.setAcc (a.run s.acc (s.bufBytes off.toNat s.arg0.toNat))).finishOk

end Sys2Proof.Machine
end

