-- ==== Sys2Proof/Machine/Sync.lean ====
section
/-! DEFINITION. The synchronizer and segmenter (41_synchronizer.md): the byte step in each SYNC state, the length field,
frame completion, and the commands FEED, FEEDN and RELEASE. -/

namespace Sys2Proof.Machine

/-! ## SEEKING (41_synchronizer.md R121, R124) -/

/-- The window and its count after one byte is shifted in (41_synchronizer.md R124). -/
def shiftWindow (sl : Nat) (win : List Byte) (wcnt : Nat) (b : Byte) : List Byte × Nat :=
  if wcnt < sl then (win.set wcnt b, wcnt + 1)
  else ((win.take sl).drop 1 ++ b :: win.drop sl, wcnt)

/-- The sync predicate: the window is full and equals the pattern byte for byte (41_synchronizer.md R121). -/
def syncMatch (sl : Nat) (win : List Byte) (wcnt : Nat) (pat : List Byte) : Bool :=
  wcnt == sl && win.take sl == pat.take sl

/-- The state on a match: the sync bytes become frame bytes 0 to SL-1 (41_synchronizer.md R124). -/
def State.beginFrame (s : State) (win : List Byte) : State :=
  { s with buf := Memory.writeList s.buf 0 (win.take s.syncLen), nbyte := BitVec.ofNat 16 s.syncLen, flen := 0
           wcnt := 0, win := zeroWin, sstate := .header }

/-- `feedByte(b)` in SEEKING (41_synchronizer.md R124). -/
def seekByte (b : Byte) (s : State) : State :=
  let w := shiftWindow s.syncLen s.win s.wcnt b
  if syncMatch s.syncLen w.1 w.2 s.pattern then (s.beginFrame w.1).finishOk
  else ({ s with win := w.1, wcnt := w.2 } : State).finishOk

/-! ## The length field (41_synchronizer.md R126, R127) -/

/-- The value of an ASCII hex digit (41_synchronizer.md R126). -/
def hexDigit (d : Byte) : Option Nat :=
  let n := d.toNat
  if 0x30 ≤ n ∧ n ≤ 0x39 then some (n - 0x30)
  else if 0x41 ≤ n ∧ n ≤ 0x46 then some (n - 0x37)
  else if 0x61 ≤ n ∧ n ≤ 0x66 then some (n - 0x57)
  else none

/-- HEX3: three digits, most significant first (41_synchronizer.md R126). -/
def hexValue : List Byte → Option Nat
  | [d0, d1, d2] =>
    match hexDigit d0, hexDigit d1, hexDigit d2 with
    | some h0, some h1, some h2 => some (256 * h0 + 16 * h1 + h2)
    | _, _, _ => none
  | _ => none

/-- The decoded length L of the length field's bytes (10_state.md R39): none for a non-digit in HEX3. -/
def lenValue (enc : Nat) (bs : List Byte) : Option Nat :=
  if enc = 0 ∨ enc = 2 then some (bytesNat .little bs)
  else if enc = 1 ∨ enc = 3 then some (bytesNat .big bs)
  else hexValue bs

/-- `decodeLength()` (41_synchronizer.md R127): the total frame length, or the cause of the error. -/
def State.decodeLength (s : State) : Except Cause Nat :=
  match lenValue s.lenEnc (s.bufBytes s.lenOff (lenWidth s.lenEnc)) with
  | none => .error .lenBadhex
  | some l =>
    if l = 0 then .error .lenZero
    else if s.hdrLen + l + s.trl > s.frameMax then .error .lenOversize
    else .ok (s.hdrLen + l + s.trl)

/-! ## HEADER (41_synchronizer.md R125) -/

/-- The end of a header byte: PAYLOAD when the header is whole (41_synchronizer.md R125). -/
def headerNext (s : State) : State :=
  if s.nbyte.toNat = s.hdrLen then ({ s with sstate := .payload } : State).finishOk else s.finishOk

/-- `feedByte(b)` in HEADER (41_synchronizer.md R125). -/
def headerByte (b : Byte) (s : State) : State :=
  let s1 := s.putByte b
  if s1.nbyte.toNat = s1.lenOff + lenWidth s1.lenEnc then
    match s1.decodeLength with
    | .error k => s1.syncReset.raiseError k
    | .ok total => headerNext { s1 with flen := BitVec.ofNat 16 total }
  else headerNext s1

/-! ## PAYLOAD and completion (41_synchronizer.md R128 to R130) -/

/-- The type code of the frame in BUF (41_synchronizer.md R130). -/
def State.typeCode (s : State) : Word :=
  BitVec.ofNat 32 (bytesNat s.typeEndian (s.bufBytes s.typeOff s.typeW))

/-- The lowest valid type-filter entry equal to a type code (41_synchronizer.md R130). -/
def State.filterEntry (s : State) (t : Word) : Option Nat :=
  (List.range ntype).find? fun j => s.tfValid j && s.tfType j == t

/-- A validated frame of an accepted type is held (41_synchronizer.md R130). -/
def State.holdFrame (s : State) (idx : BitVec 4) (hit : Bool) : State :=
  ({ s with fdecIdx := idx, fdecHit := hit, sstate := .complete } : State).finish .frameReady .none

/-- `completeFrame()`, step 2: type code and type filter (41_synchronizer.md R130). -/
def typeStep (s : State) : State :=
  let s1 : State := { s with ftype := s.typeCode }
  if s1.tfEn then
    match s1.filterEntry s1.ftype with
    | none => ({ s1 with fdecIdx := 0, fdecHit := false } : State).syncReset.finishOk
    | some j => s1.holdFrame (BitVec.ofNat 4 j) true
  else s1.holdFrame 0 false

/-- `completeFrame()` (41_synchronizer.md R129, R130). -/
def completeFrame (s : State) : State :=
  if s.frameValid then typeStep s else s.syncReset.raiseError .ckMismatch

/-- `feedByte(b)` in PAYLOAD (41_synchronizer.md R128). -/
def payloadByte (b : Byte) (s : State) : State :=
  let s1 := s.putByte b
  if s1.nbyte.toNat < s1.flen.toNat then s1.finishOk else completeFrame s1

/-! ## The byte step and its commands -/

/-- `feedByte(b)` (41_synchronizer.md R124, R125, R128). In COMPLETE no command calls it (R123, R132: log 12). -/
def feedByte (b : Byte) (s : State) : State :=
  match s.sstate with
  | .seeking => seekByte b s
  | .header => headerByte b s
  | .payload => payloadByte b s
  | .complete => s.raiseRefused .wrongState

/-- The state check of FEED and FEEDN (41_synchronizer.md R123, 60_exceptions.md R263). -/
def State.mayFeed (s : State) : Bool := s.isOpen && s.sstate != .complete

/-- FEED (41_synchronizer.md R123). -/
def execFeed (b : Byte) (s : State) : Host.Outcome State Fault Refusal :=
  if s.mayFeed then .next (feedByte b s) else .next (s.raiseRefused .wrongState)

/-- The loop of FEEDN (41_synchronizer.md R132) with `left` bytes to go and `j` fed: the state and the number of bytes
consumed. It stops after the first byte whose outcome is not OK. -/
def feedLoop : Nat → Nat → State → State × Nat
  | 0, j, s => (s, j)
  | left + 1, j, s =>
    let s1 := feedByte (s.argByte j) s
    if s1.code = .ok then feedLoop left (j + 1) s1 else (s1, j + 1)

/-- FEEDN (41_synchronizer.md R132): the outcome is that of the last byte fed; RES0 counts the bytes consumed. -/
def execFeedn (cnt : BitVec 3) (s : State) : Host.Outcome State Fault Refusal :=
  if cntLegal cnt then
    if s.mayFeed then
      let r := feedLoop cnt.toNat 0 s
      .next (r.1.setRes (BitVec.ofNat 64 r.2))
    else .next (s.raiseRefused .wrongState)
  else .next (s.raiseRefused .badField)

/-- RELEASE (41_synchronizer.md R133). -/
def execRelease (s : State) : Host.Outcome State Fault Refusal :=
  if s.isOpen && s.sstate == .complete then .next s.syncReset.finishOk
  else .next (s.raiseRefused .wrongState)

end Sys2Proof.Machine
end

