-- ==== Sys2Proof/Machine/Dispatch.lean ====
section
/-! DEFINITION. The dispatch of a decoded command to its meaning (30_encoding.md R93). -/

namespace Sys2Proof.Machine

def exec (i : Instr) (s : State) : Host.Outcome State Fault Refusal :=
  match i with
  | .nop => Sys2Proof.Machine.execNop s
  | .openSession => Sys2Proof.Machine.execOpenSession s
  | .eoi => Sys2Proof.Machine.execEoi s
  | .feed byte => Sys2Proof.Machine.execFeed byte s
  | .feedn cnt => Sys2Proof.Machine.execFeedn cnt s
  | .release => Sys2Proof.Machine.execRelease s
  | .ckInit rotf alg => Sys2Proof.Machine.execCkInit rotf alg s
  | .ckUpd cnt => Sys2Proof.Machine.execCkUpd cnt s
  | .ckFin => Sys2Proof.Machine.execCkFin s
  | .ckFrm off => Sys2Proof.Machine.execCkFrm off s
  | .fxU e sm w off => Sys2Proof.Machine.execFxU e sm w off s
  | .fxS e sm w off => Sys2Proof.Machine.execFxS e sm w off s
  | .fxF32 e sm off => Sys2Proof.Machine.execFxF32 e sm off s
  | .fxF64 e sm off => Sys2Proof.Machine.execFxF64 e sm off s
  | .obsDwr src m fld slot sat => Sys2Proof.Machine.execObsDwr src m fld slot sat s
  | .obsRd fld slot idx => Sys2Proof.Machine.execObsRd fld slot idx s
  | .stgCnt n => Sys2Proof.Machine.execStgCnt n s
  | .stgSat idx sat => Sys2Proof.Machine.execStgSat idx sat s
  | .stgChk n => Sys2Proof.Machine.execStgChk n s
  | .stgWr src m fld slot idx => Sys2Proof.Machine.execStgWr src m fld slot idx s
  | .stgRd fld slot idx => Sys2Proof.Machine.execStgRd fld slot idx s
  | .flush => Sys2Proof.Machine.execFlush s
  | .lkUpd c h hc slot sat => Sys2Proof.Machine.execLkUpd c h hc slot sat s
  | .lkRd item slot sat => Sys2Proof.Machine.execLkRd item slot sat s

end Sys2Proof.Machine
end

