-- ==== Sys2Proof/Machine/Bus.lean ====
section
/-! DEFINITION. The register window (10_state.md section 2; 20_memory.md R70 to R75): the register at each offset, reads, writes,
the issue of a command word, and how a pending transaction is taken and performed. -/

namespace Sys2Proof.Machine

/-- What occupies an offset of the window (10_state.md section 2). -/
inductive Reg where
  | id | param0 | param1 | cmd | arg0 | arg1 | res0 | res1 | status | fxf | nbyte | flen | ftype | fdec
  | obsN | stgN | timeLo | timeHi | ckstat | ckacc
  | syncCfg | syncPat0 | syncPat1 | hdrCfg | lenCfg | ckCfg | crc32Init | crc32Xorout | typeCfg | frameMax
  | lkCfg | lkScale | lkSlack | lkSat | sentLo | sentHi | tfValid
  | tfType (j : Nat)
deriving DecidableEq, Repr

/-- The register map (10_state.md section 2), less the sixteen TF_TYPE registers. -/
def regMap : List (Nat × Reg) :=
  [(0x000, .id), (0x004, .param0), (0x008, .param1), (0x010, .cmd), (0x014, .arg0), (0x018, .arg1),
   (0x01C, .res0), (0x020, .res1), (0x024, .status), (0x028, .fxf), (0x02C, .nbyte), (0x030, .flen),
   (0x034, .ftype), (0x038, .fdec), (0x03C, .obsN), (0x040, .stgN), (0x044, .timeLo), (0x048, .timeHi),
   (0x04C, .ckstat), (0x050, .ckacc)]
  ++ [(0x080, .syncCfg), (0x084, .syncPat0), (0x088, .syncPat1), (0x08C, .hdrCfg), (0x090, .lenCfg),
   (0x094, .ckCfg), (0x098, .crc32Init), (0x09C, .crc32Xorout), (0x0A0, .typeCfg), (0x0A4, .frameMax),
   (0x0A8, .lkCfg), (0x0AC, .lkScale), (0x0B0, .lkSlack), (0x0B4, .lkSat), (0x0B8, .sentLo), (0x0BC, .sentHi),
   (0x0C0, .tfValid)]

/-- The register at an offset, if one occupies it (10_state.md section 2): TF_TYPEj stands at 0x100 + 4·j. -/
def Reg.ofOffset (off : Nat) : Option Reg :=
  if 0x100 ≤ off ∧ off < 0x140 ∧ off % 4 = 0 then some (.tfType ((off - 0x100) / 4))
  else (regMap.find? fun e => e.1 == off).map Prod.snd

/-- ID (10_state.md R24). -/
def idWord : Word := 0x46535331#32

/-- PARAM0 (10_state.md R25): MAXOBS [7:0], MAXSAT [15:8], NSLOT [19:16]. -/
def Params.param0 (p : Params) : Word :=
  0#12 ++ BitVec.ofNat 4 p.nSlot ++ BitVec.ofNat 8 p.maxSat ++ BitVec.ofNat 8 p.maxObs

/-- The value a read of a register returns (10_state.md R22 to R46). CMD reads 0 (R26). -/
def State.regRead (s : State) : Reg → Word
  | .id => idWord
  | .param0 => Params.param0 s.params
  | .param1 => BitVec.ofNat 32 s.params.bufSize
  | .cmd => 0
  | .arg0 => s.arg0
  | .arg1 => s.arg1
  | .res0 => s.res0
  | .res1 => s.res1
  | .status => s.statusWord
  | .fxf => s.fxfWord
  | .nbyte => s.nbyte.setWidth 32
  | .flen => s.flen.setWidth 32
  | .ftype => s.ftype
  | .fdec => s.fdecWord
  | .obsN => s.obsN.setWidth 32
  | .stgN => s.stgN.setWidth 32
  | .timeLo => s.timeLo
  | .timeHi => s.timeHi
  | .ckstat => s.ckstatWord
  | .ckacc => s.acc
  | .syncCfg => s.cfg.syncCfg
  | .syncPat0 => s.cfg.syncPat0
  | .syncPat1 => s.cfg.syncPat1
  | .hdrCfg => s.cfg.hdrCfg
  | .lenCfg => s.cfg.lenCfg
  | .ckCfg => s.cfg.ckCfg
  | .crc32Init => s.cfg.crc32Init
  | .crc32Xorout => s.cfg.crc32Xorout
  | .typeCfg => s.cfg.typeCfg
  | .frameMax => s.cfg.frameMax
  | .lkCfg => s.cfg.lkCfg
  | .lkScale => s.cfg.lkScale
  | .lkSlack => s.cfg.lkSlack
  | .lkSat => s.cfg.lkSat
  | .sentLo => s.cfg.sentLo
  | .sentHi => s.cfg.sentHi
  | .tfValid => s.cfg.tfValid
  | .tfType j => s.tfType j

/-- The CFG registers with one of them written: reserved bits are not stored (10_state.md R36 to R46, R57). A register that
is no CFG register leaves them. -/
def CfgRegs.write (c : CfgRegs) (r : Reg) (v : Word) : CfgRegs :=
  match r with
  | .syncCfg => { c with syncCfg := v &&& 0x00000007#32 }
  | .syncPat0 => { c with syncPat0 := v }
  | .syncPat1 => { c with syncPat1 := v &&& 0x000000FF#32 }
  | .hdrCfg => { c with hdrCfg := v }
  | .lenCfg => { c with lenCfg := v &&& 0x00000007#32 }
  | .ckCfg => { c with ckCfg := v &&& 0xFFFF001F#32 }
  | .crc32Init => { c with crc32Init := v }
  | .crc32Xorout => { c with crc32Xorout := v }
  | .typeCfg => { c with typeCfg := v &&& 0x001FFFFF#32 }
  | .frameMax => { c with frameMax := v &&& 0x0000FFFF#32 }
  | .lkCfg => { c with lkCfg := v &&& 0x00000001#32 }
  | .lkScale => { c with lkScale := v }
  | .lkSlack => { c with lkSlack := v }
  | .lkSat => { c with lkSat := v }
  | .sentLo => { c with sentLo := v }
  | .sentHi => { c with sentHi := v }
  | .tfValid => { c with tfValid := v &&& 0x0000FFFF#32 }
  | .tfType j => { c with tfType := c.tfType.set j v }
  | .id | .param0 | .param1 | .cmd | .arg0 | .arg1 | .res0 | .res1 | .status | .fxf | .nbyte | .flen
  | .ftype | .fdec | .obsN | .stgN | .timeLo | .timeHi | .ckstat | .ckacc => c

/-- A write to a CFG register: stored while CLOSED; while OPEN ignored, and WERR is set (10_state.md R36). -/
def State.cfgWrite (s : State) (r : Reg) (v : Word) : State :=
  if s.isOpen then { s with werr := true } else { s with cfg := s.cfg.write r v }

/-- The effect of a write on each register but CMD (10_state.md section 2, access column; R22, R33, R36, R57). -/
def State.regWrite (s : State) (r : Reg) (v : Word) : State :=
  match r with
  | .arg0 => { s with arg0 := v }
  | .arg1 => { s with arg1 := v }
  | .timeLo => { s with timeLo := v }
  | .timeHi => { s with timeHi := v }
  | .id | .param0 | .param1 | .cmd | .res0 | .res1 | .status | .fxf | .nbyte | .flen
  | .ftype | .fdec | .obsN | .stgN | .ckstat | .ckacc => s
  | .syncCfg | .syncPat0 | .syncPat1 | .hdrCfg | .lenCfg | .ckCfg | .crc32Init | .crc32Xorout | .typeCfg
  | .frameMax | .lkCfg | .lkScale | .lkSlack | .lkSat | .sentLo | .sentHi | .tfValid | .tfType _ => s.cfgWrite r v

/-- The cause of a decoding refusal (30_encoding.md R94). -/
def refusalCause : DecodeError → Cause
  | .badOpcode => .badOpcode
  | .badField => .badField

/-- A write of a command word to CMD: decode, then execute completely (10_state.md R26, 30_encoding.md R94). A word that does not
decode is refused (60_exceptions.md R262), which is an outcome of the block and a next state. -/
def State.issue (s : State) (w : Word) : Host.Outcome State Fault Refusal :=
  match decode w with
  | .ok i => exec i s
  | .error k => .next (s.raiseRefused (refusalCause k))

/-- Only an aligned 32-bit access counts (20_memory.md R73). -/
def accessValid (off width : Nat) : Bool := width == 32 && off % 4 == 0

/-- The offset of a bus address in the window, if it lies there (20_memory.md R70). -/
def Params.offset (p : Params) (addr : Nat) : Option Nat :=
  if p.fssBase ≤ addr ∧ addr < p.fssBase + windowBytes then some (addr - p.fssBase) else none

/-- `BusRead(off)` (20_memory.md R72, R73, R75). -/
def State.busRead (s : State) (off width : Nat) : Word :=
  if accessValid off width then
    match Reg.ofOffset off with
    | some r => s.regRead r
    | none => 0
  else 0

/-- `BusWrite(off, v)` (20_memory.md R72, R73, R75). -/
def State.busWrite (s : State) (off width : Nat) (v : Word) : Host.Outcome State Fault Refusal :=
  if accessValid off width then
    match Reg.ofOffset off with
    | some .cmd => s.issue v
    | some r => .next (s.regWrite r v)
    | none => .next s
  else .next s

/-- Hardware reset (70_reset_and_hazards.md R290) of this instance; what the host does next is not the block's to reset (log 8). -/
def State.hardwareReset (s : State) : State := { State.resetOf s.params with bus := s.bus, freeCount := s.freeCount }

/-- Perform one transaction or a reset. -/
def State.perform (s : State) (e : BusEvent) : Host.Outcome State Fault Refusal :=
  match e with
  | .reset => .next s.hardwareReset
  | .read addr width =>
    match Params.offset s.params addr with
    | some off => .next { s with reply := some (s.busRead off width) }
    | none => .fault .outsideWindow
  | .write addr width v =>
    match Params.offset s.params addr with
    | some off => s.busWrite off width v
    | none => .fault .outsideWindow

/-- The next transaction, and the state without it; the last answer is gone. -/
def State.takeEvent (s : State) : Option (BusEvent × State) :=
  match s.bus with
  | [] => none
  | e :: rest => some (e, { s with bus := rest, reply := none })

/-- The transaction that issues a command word: an aligned 32-bit write to CMD (10_state.md R26). -/
def issueEvent (p : Params) (w : Word) : BusEvent := .write (p.fssBase + 0x010) 32 w

end Sys2Proof.Machine
end

