-- ==== Sys2Proof/Machine/Step.lean ====
section
/-! DEFINITION. One step of the block: one bus transaction, or nothing when none is pending (00_scope.md R10, R11). -/

namespace Sys2Proof.Machine

/-- One step: the oldest pending transaction is performed completely (20_memory.md R74). With none pending the block is idle
and changes nothing (00_scope.md R10, 60_exceptions.md R274; log 3). -/
def step (s : State) : Host.Outcome State Fault Refusal :=
  match s.takeEvent with
  | none => .next s
  | some (e, s') => s'.perform e

/-- The state with one more transaction before those pending: the CMD write of the table's word (log 4). -/
def State.withFetchWord (s : State) (nbits w : Nat) : State :=
  { s with bus := issueEvent s.params (BitVec.ofNat 32 (w % 2 ^ nbits)) :: s.bus }

end Sys2Proof.Machine
end

