-- ==== Sys2Proof/Safety.lean ====
section
/-! DEFINITION. What a good state is, in the terms the statements use: the invariant of the machine, outcomes and their
causes, and what it means that a command changes nothing but named parts of the state. -/

namespace Sys2Proof.Machine

/-! ## Outcomes (10_state.md R28, R29) -/

/-- The causes of an ERROR outcome: classes framing, integrity, semantic and bounds of 10_state.md R29. -/
def Cause.isError : Cause → Bool
  | .lenZero | .lenOversize | .lenBadhex | .ckMismatch | .satZero | .satRange | .slotRange | .epochFull
  | .ordRange | .countRange | .countMismatch | .oob => true
  | .none | .badOpcode | .badField | .wrongState | .cfgIllegal => false

/-- The causes of a REFUSED outcome: class refusal of 10_state.md R29. -/
def Cause.isRefusal : Cause → Bool
  | .badOpcode | .badField | .wrongState | .cfgIllegal => true
  | .none | .lenZero | .lenOversize | .lenBadhex | .ckMismatch | .satZero | .satRange | .slotRange | .epochFull
  | .ordRange | .countRange | .countMismatch | .oob => false

/-- A cause stands beside the outcome of its class, and NONE beside the three successes (10_state.md R28, R29). -/
def outcomeOk (c : Code) (k : Cause) : Bool :=
  match c with
  | .ok => k == .none
  | .obsUpdate => k == .none
  | .frameReady => k == .none
  | .error => k.isError
  | .refused => k.isRefusal

/-! ## Parts of the invariant -/

/-- The reserved bits of the CFG registers are 0 (10_state.md R57). -/
def CfgRegs.reservedZero (c : CfgRegs) : Bool :=
  c.syncCfg &&& 0xFFFFFFF8#32 == 0 && c.syncPat1 &&& 0xFFFFFF00#32 == 0 && c.lenCfg &&& 0xFFFFFFF8#32 == 0
  && c.ckCfg &&& 0x0000FFE0#32 == 0 && c.typeCfg &&& 0xFFE00000#32 == 0 && c.frameMax &&& 0xFFFF0000#32 == 0
  && c.lkCfg &&& 0xFFFFFFFE#32 == 0 && c.tfValid &&& 0xFFFF0000#32 == 0

/-- A decoded length is in force: the total covers header, one payload byte and trailer, and fits FRAME_MAX
(41_synchronizer.md R127, R128). -/
def State.flenOk (s : State) : Prop := s.hdrLen + 1 + s.trl ≤ s.flen.toNat ∧ s.flen.toNat ≤ s.frameMax

/-- What each SYNC state says of NBYTE, FLEN and the window (10_state.md R47, 41_synchronizer.md R120 to R128). -/
def State.syncOk (s : State) : Prop :=
  match s.sstate with
  | .seeking => s.nbyte = 0 ∧ s.flen = 0 ∧ s.wcnt ≤ (if s.isOpen then s.syncLen else 0)
  | .header =>
    s.wcnt = 0 ∧ s.syncLen ≤ s.nbyte.toNat ∧ s.nbyte.toNat < s.hdrLen ∧
    (s.nbyte.toNat < s.lenOff + lenWidth s.lenEnc → s.flen = 0) ∧
    (s.lenOff + lenWidth s.lenEnc ≤ s.nbyte.toNat → s.flenOk)
  | .payload => s.wcnt = 0 ∧ s.hdrLen ≤ s.nbyte.toNat ∧ s.nbyte.toNat < s.flen.toNat ∧ s.flenOk
  | .complete => s.wcnt = 0 ∧ s.nbyte = s.flen ∧ s.flenOk

/-- ACC fits the width of the algorithm in progress (10_state.md R35, R50). -/
def accOk (cka : Option Alg) (acc : Word) : Prop :=
  match cka with
  | none => acc = 0
  | some .rotxor => acc.toNat < 2 ^ 8
  | some .xor => acc.toNat < 2 ^ 8
  | some .add8 => acc.toNat < 2 ^ 8
  | some .crc32 => True
  | some .crc24q => acc.toNat < 2 ^ 24

/-- The invariant of the machine: every array has its size, memory its form, SYNC its bounds, and every status field a
value the spec gives it. It holds at reset, and every step keeps it. -/
structure State.Inv (s : State) : Prop where
  /-- 00_scope.md R5 -/
  params : s.params.legal = true
  /-- the canonical form of BUF -/
  bufWf : Memory.wf s.buf = true
  /-- BUF has BUF_SIZE bytes (10_state.md R49) -/
  bufBelow : Memory.below s.params.bufSize s.buf = true
  /-- WIN has five bytes (10_state.md R48) -/
  winLen : s.win.length = 5
  /-- OBS has MAXOBS records of NSLOT slots (10_state.md R51, R52) -/
  obsLen : s.obs.length = s.params.maxObs
  obsSlots : ∀ r ∈ s.obs, r.slots.length = s.params.nSlot
  /-- OBUF has MAXOBS records of NSLOT slots (10_state.md R51, R53) -/
  obufLen : s.obuf.length = s.params.maxObs
  obufSlots : ∀ r ∈ s.obuf, r.slots.length = s.params.nSlot
  /-- 44_epoch_buffer.md R215(a) -/
  obsCount : s.obsN.toNat ≤ s.params.maxObs
  stgCount : s.stgN.toNat ≤ s.params.maxObs
  /-- 44_epoch_buffer.md R215(b), first sentence -/
  obsLive : ∀ i, i < s.obsN.toNat → (s.recAt s.obs i).sat ≠ 0 ∧ (s.recAt s.obs i).tv = true
  /-- LK has MAXSAT × NSLOT entries (10_state.md R54) -/
  lkLen : s.lk.length = s.params.maxSat
  lkRows : ∀ row ∈ s.lk, row.length = s.params.nSlot
  /-- TF has 16 entries (10_state.md R46) -/
  tfLen : s.cfg.tfType.length = ntype
  /-- 10_state.md R57 -/
  reserved : s.cfg.reservedZero = true
  /-- 60_exceptions.md R263, last paragraph -/
  closed : s.isOpen = false → s.sstate = .seeking
  /-- 40_session.md R113: the description of a session is legal for the whole session -/
  opened : s.isOpen = true → s.cfgLegal = true
  /-- 41_synchronizer.md R128 and 10_state.md R47 -/
  sync : s.syncOk
  /-- 10_state.md R50 -/
  accWidth : accOk s.cka s.acc
  /-- 10_state.md R28, R29 -/
  outcome : outcomeOk s.code s.cause = true
  /-- 41_synchronizer.md R130: IDX is 0 unless an entry matched -/
  fdec : s.fdecHit = false → s.fdecIdx = 0
  /-- 43_field_codec.md R188: a NaN is missing -/
  fxf : s.fxNan = true → s.fxMissing = true

/-! ## Byte strings, frames and floating-point values, as the spec writes them -/

/-- `rawBytes` as the sums of 43_field_codec.md R182: Σ d[i]·2^(8i) or Σ d[i]·2^(8(n-1-i)). -/
def bytesSum (e : Endian) (d : List Byte) : Nat :=
  match e with
  | .little => ((List.range d.length).map fun i => (d.getD i 0).toNat * 2 ^ (8 * i)).sum
  | .big => ((List.range d.length).map fun i => (d.getD i 0).toNat * 2 ^ (8 * (d.length - 1 - i))).sum

/-- The decoded length of the length field's bytes, as the table of 10_state.md R39 writes it. -/
def lengthTable (enc : Nat) (d : List Byte) : Option Nat :=
  match enc, d with
  | 0, [b0, b1] => some (b0.toNat + 256 * b1.toNat)
  | 1, [b0, b1] => some (256 * b0.toNat + b1.toNat)
  | 2, [b0, b1, b2, b3] => some (b0.toNat + 2 ^ 8 * b1.toNat + 2 ^ 16 * b2.toNat + 2 ^ 24 * b3.toNat)
  | 3, [b0, b1, b2, b3] => some (2 ^ 24 * b0.toNat + 2 ^ 16 * b1.toNat + 2 ^ 8 * b2.toNat + b3.toNat)
  | 4, [b0, b1, b2] =>
    match hexDigit b0, hexDigit b1, hexDigit b2 with
    | some h0, some h1, some h2 => some (256 * h0 + 16 * h1 + h2)
    | _, _, _ => none
  | _, _ => none

/-- The checksum test of 41_synchronizer.md R129 on the bytes of a whole frame. -/
def State.validFrame (s : State) (frame : List Byte) : Prop :=
  match s.ckAlg with
  | none => True
  | some a =>
    if s.ckIncl then s.ckCompute a (frame.drop s.ckStart) = 0
    else a.serialize (s.ckCompute a ((frame.take (frame.length - a.trl)).drop s.ckStart)) =
      frame.drop (frame.length - a.trl)

/-- A whole frame of the configured protocol (41_synchronizer.md R134): it begins with the pattern, its length field is legal and
gives its length, and its checksum is valid. -/
def State.legalFrame (s : State) (frame : List Byte) : Prop :=
  frame.take s.syncLen = s.pattern.take s.syncLen ∧
  (∃ l, lengthTable s.lenEnc ((frame.drop s.lenOff).take (lenWidth s.lenEnc)) = some l ∧ 0 < l ∧
    frame.length = s.hdrLen + l + s.trl) ∧
  frame.length ≤ s.frameMax ∧ s.validFrame frame

/-- The type code of a whole frame (41_synchronizer.md R130), as a number. -/
def State.frameType (s : State) (frame : List Byte) : Nat :=
  bytesSum s.typeEndian ((frame.drop s.typeOff).take s.typeW)

/-- The frame's type is accepted: the filter is off, or a valid entry equals it (41_synchronizer.md R130). -/
def State.typeAccepted (s : State) (frame : List Byte) : Prop :=
  s.tfEn = false ∨ ∃ j, j < 16 ∧ s.tfValid j = true ∧ (s.tfType j).toNat = s.frameType frame

/-- The value of a finite binary32 pattern (43_field_codec.md R185 and R187: bias 127, subnormals f·2^-149). -/
def value32 (x : BitVec 32) : ℚ :=
  let f : ℚ := ((x.toNat % 2 ^ 23 : Nat) : ℚ)
  let e : Nat := x.toNat / 2 ^ 23 % 2 ^ 8
  (if x.toNat / 2 ^ 31 = 1 then -1 else 1) *
    (if e = 0 then f * (2 : ℚ) ^ (-149 : Int) else (2 ^ 23 + f) * (2 : ℚ) ^ ((e : Int) - 150))

/-- The value of a finite binary64 pattern (43_field_codec.md R186: bias 1023). -/
def value64 (x : BitVec 64) : ℚ :=
  let f : ℚ := ((x.toNat % 2 ^ 52 : Nat) : ℚ)
  let e : Nat := x.toNat / 2 ^ 52 % 2 ^ 11
  (if x.toNat / 2 ^ 63 = 1 then -1 else 1) *
    (if e = 0 then f * (2 : ℚ) ^ (-1074 : Int) else (2 ^ 52 + f) * (2 : ℚ) ^ ((e : Int) - 1075))

/-! ## Tables of the spec that statements range over -/

/-- The opcode map of 30_encoding.md R93: opcode, match, mask. -/
def opcodeRows : List (Opcode × Word × Word) :=
  [(.nop, 0x00000000, 0xFFFFFFFF), (.openSession, 0x04000000, 0xFFFFFFFF), (.eoi, 0x08000000, 0xFFFFFFFF),
   (.feed, 0x10000000, 0xFFFFFF00), (.feedn, 0x14000000, 0xFFFFFFF8), (.release, 0x18000000, 0xFFFFFFFF),
   (.ckInit, 0x20000000, 0xFFFFFFF0), (.ckUpd, 0x24000000, 0xFFFFFFF8), (.ckFin, 0x28000000, 0xFFFFFFFF),
   (.ckFrm, 0x2C000000, 0xFFFF0000), (.fxU, 0x40000000, 0xFC780000), (.fxS, 0x44000000, 0xFC780000),
   (.fxF32, 0x48000000, 0xFC7F0000), (.fxF64, 0x4C000000, 0xFC7F0000), (.obsDwr, 0x60000000, 0xFC00FF00),
   (.obsRd, 0x64000000, 0xFF0000FF), (.stgCnt, 0x68000000, 0xFFFFFF00), (.stgSat, 0x6C000000, 0xFFFF0000),
   (.stgChk, 0x70000000, 0xFFFFFF00), (.stgWr, 0x74000000, 0xFC0000FF), (.stgRd, 0x78000000, 0xFF0000FF),
   (.flush, 0x7C000000, 0xFFFFFFFF), (.lkUpd, 0x80000000, 0xFC70FF00), (.lkRd, 0x84000000, 0xFF00FF00)]

/-- The CFG registers' offsets below 0x100 with the bits that are stored (10_state.md R37 to R46). -/
def cfgMasks : List (Nat × Word) :=
  [(0x080, 0x00000007), (0x084, 0xFFFFFFFF), (0x088, 0x000000FF), (0x08C, 0xFFFFFFFF), (0x090, 0x00000007),
   (0x094, 0xFFFF001F), (0x098, 0xFFFFFFFF), (0x09C, 0xFFFFFFFF), (0x0A0, 0x001FFFFF), (0x0A4, 0x0000FFFF),
   (0x0A8, 0x00000001), (0x0AC, 0xFFFFFFFF), (0x0B0, 0xFFFFFFFF), (0x0B4, 0xFFFFFFFF), (0x0B8, 0xFFFFFFFF),
   (0x0BC, 0xFFFFFFFF), (0x0C0, 0x0000FFFF)]

/-- An offset is a CFG register with a mask of stored bits: a listed one, or TF_TYPEj (10_state.md section 2). -/
def IsCfg (off : Nat) (mask : Word) : Prop :=
  (off, mask) ∈ cfgMasks ∨ (0x100 ≤ off ∧ off < 0x140 ∧ off % 4 = 0 ∧ mask = 0xFFFFFFFF)

/-- The command is allowed in the state (60_exceptions.md R263). -/
def Allowed (i : Instr) (s : State) : Prop :=
  match i with
  | .nop => True
  | .openSession => s.isOpen = false
  | .eoi => s.isOpen = true
  | .feed _ => s.isOpen = true ∧ s.sstate ≠ .complete
  | .feedn _ => s.isOpen = true ∧ s.sstate ≠ .complete
  | .release => s.isOpen = true ∧ s.sstate = .complete
  | .ckInit _ _ => True
  | .ckUpd _ => s.cka ≠ none
  | .ckFin => s.cka ≠ none
  | .ckFrm _ => s.cka ≠ none
  | .fxU _ _ _ _ => True
  | .fxS _ _ _ _ => True
  | .fxF32 _ _ _ => True
  | .fxF64 _ _ _ => True
  | .obsDwr _ _ _ _ _ => s.isOpen = true
  | .obsRd _ _ _ => True
  | .stgCnt _ => s.isOpen = true
  | .stgSat _ _ => s.isOpen = true
  | .stgChk _ => s.isOpen = true
  | .stgWr _ _ _ _ _ => s.isOpen = true
  | .stgRd _ _ _ => True
  | .flush => s.isOpen = true
  | .lkUpd _ _ _ _ _ => s.isOpen = true
  | .lkRd _ _ _ => True

/-! ## Runs of commands -/

/-- Commands one after another, stopping where one does not answer a next state. -/
def runAll : List Instr → State → Host.Outcome State Fault Refusal
  | [], s => .next s
  | i :: is, s =>
    match exec i s with
    | .next t => runAll is t
    | .fault r => .fault r
    | .refused r => .refused r

/-- Bytes fed one FEED command at a time. -/
def feedAll (bs : List Byte) (s : State) : Host.Outcome State Fault Refusal := runAll (bs.map Instr.feed) s

/-- The addresses of BUF at which a fed byte stores: BUF[NBYTE] in HEADER and PAYLOAD, BUF[0 .. SYNC_LEN) on a match in SEEKING
(41_synchronizer.md R124, R125, R128). -/
def storedBy (b : Byte) (s : State) : List Nat :=
  match s.sstate with
  | .seeking =>
    let w := shiftWindow s.syncLen s.win s.wcnt b
    if syncMatch s.syncLen w.1 w.2 s.pattern then List.range s.syncLen else []
  | .header => [s.nbyte.toNat]
  | .payload => [s.nbyte.toNat]
  | .complete => []

/-- The addresses of BUF at which bytes fed one after another store. -/
def feedStores : List Byte → State → List Nat
  | [], _ => []
  | b :: bs, s => storedBy b s ++ feedStores bs (feedByte b s)

/-! ## Frames -/

/-- Nothing differs but STATUS.CODE and STATUS.CAUSE. -/
def SameButStatus (s t : State) : Prop := t = s.finish t.code t.cause

/-- Nothing differs but RES0, RES1, STATUS.CODE and STATUS.CAUSE. -/
def SameButResult (s t : State) : Prop := t = { s with res0 := t.res0, res1 := t.res1, code := t.code, cause := t.cause }

/-- Every byte of BUF reads as before. -/
def SameBuf (s t : State) : Prop := ∀ a, Memory.read t.buf a = Memory.read s.buf a

end Sys2Proof.Machine
end

