-- ==== Sys2Proof/Certificates/Slice0/Obligations.lean ====
section
/-! DEFINITION. The statements for the provers. Each docstring names the rule of the spec that the statement formalises. -/

open Sys2Proof Sys2Proof.Machine

/-! ## Encoding -/

/-- 30_encoding.md R90 to R93: decoding the encoding of any well-formed command gives the command back, every operand at every
value. -/
def Obligations.DecodeOfEncodeIsTheCommand : Prop :=
  ∀ i : Instr, i.wf = true → decode (encode i) = .ok i

/-- 30_encoding.md R90 to R94: a word that decodes is the encoding of a well-formed command, so no bit of a word is dropped. -/
def Obligations.EncodeOfDecodeIsTheWord : Prop :=
  ∀ (w : Word) (i : Instr), decode w = .ok i → encode i = w ∧ i.wf = true

/-- 30_encoding.md R93: for every row of the opcode map, (w AND mask) == match exactly when w has that opcode and no reserved
bit set. -/
def Obligations.MaskAndMatchSelectTheOpcode : Prop :=
  ∀ (o : Opcode) (m k : Word), (o, m, k) ∈ opcodeRows →
    ∀ w : Word, (w &&& k) = m ↔ (Opcode.ofBits (field w 26 6) = some o ∧ reservedClear o w = true)

/-- 30_encoding.md R95: exactly the unassigned opcodes are refused with BAD_OPCODE. -/
def Obligations.UnassignedOpcodesAreBadOpcode : Prop :=
  ∀ w : Word, decode w = .error .badOpcode ↔
    (w.toNat / 2 ^ 26 = 0x03 ∨ w.toNat / 2 ^ 26 = 0x07 ∨ (0x0C ≤ w.toNat / 2 ^ 26 ∧ w.toNat / 2 ^ 26 ≤ 0x0F) ∨
      (0x14 ≤ w.toNat / 2 ^ 26 ∧ w.toNat / 2 ^ 26 ≤ 0x17) ∨ 0x22 ≤ w.toNat / 2 ^ 26)

/-- Words written out from 30_encoding.md R91 to R93 decode to the command they stand for. -/
def Obligations.WordsOfTheSpecDecode : Prop :=
  decode 0x100000B5#32 = .ok (.feed 0xB5#8) ∧
  decode 0x4781002C#32 = .ok (.fxS .big .sent 1#3 44#16) ∧
  decode 0x62300007#32 = .ok (.obsDwr .res false 3#4 0#4 7#8) ∧
  decode 0x81800005#32 = .ok (.lkUpd false true true 0#4 5#8) ∧
  decode 0x14000005#32 = .error .badField

/-! ## Bus, reset and step -/

/-- 10_state.md R26: a write of w to CMD issues the command word w, decoded and executed completely in that step; a word that
does not decode is refused, with nothing else changed; CMD reads 0. `u` is the state with the transaction taken. -/
def Obligations.StepPerformsTheIssuedCommand : Prop :=
  ∀ (s : State) (w : Word) (rest : List BusEvent), s.bus = issueEvent s.params w :: rest →
    let u : State := { s with bus := rest, reply := none }
    (∀ i, decode w = .ok i → step s = exec i u) ∧
    (decode w = .error .badOpcode → step s = .next { u with code := .refused, cause := .badOpcode }) ∧
    (decode w = .error .badField → step s = .next { u with code := .refused, cause := .badField }) ∧
    s.busRead 0x010 32 = 0

/-- With no transaction pending the block does nothing (00_scope.md R10, 60_exceptions.md R274, 70_reset_and_hazards.md R291; the queue is the
model's, logs 1 and 3); hardware reset, an event between transactions, returns this instance to its reset state from any state
(70_reset_and_hazards.md R290; the pending transactions and the counter of free values are the model's own, log 8). -/
def Obligations.IdleStepsAndHardwareReset : Prop :=
  ∀ (s : State) (rest : List BusEvent),
    (s.bus = [] → step s = .next s) ∧
    (s.bus = .reset :: rest → step s = .next { State.resetOf s.params with bus := rest, freeCount := s.freeCount })

/-- 10_state.md R22 to R35: what an aligned read returns at the offset of each register that is no CFG register, with the fields of
STATUS (R27), FXF (R30), FDEC (R32) and CKSTAT (R35) at their places, and the numbers of the outcome codes (R28), the causes (R29), the
SYNC states (R47) and the algorithms (R40); 20_memory.md R72, R73: an access of another width, misaligned, or
to CMD or an offset that no register occupies reads 0. -/
def Obligations.RegistersReadTheirState : Prop :=
  ∀ s : State,
    let codeNo : Nat := match s.code with
      | .ok => 0x00 | .obsUpdate => 0x01 | .frameReady => 0x10 | .error => 0xFF | .refused => 0xFE
    let causeNo : Nat := match s.cause with
      | .none => 0x00 | .lenZero => 0x01 | .lenOversize => 0x02 | .lenBadhex => 0x03 | .ckMismatch => 0x10
      | .satZero => 0x20 | .satRange => 0x21 | .slotRange => 0x22 | .epochFull => 0x23 | .ordRange => 0x24
      | .countRange => 0x25 | .countMismatch => 0x26 | .oob => 0x30
      | .badOpcode => 0x80 | .badField => 0x81 | .wrongState => 0x82 | .cfgIllegal => 0x83
    let sstateNo : Nat := match s.sstate with
      | .seeking => 0 | .header => 1 | .payload => 2 | .complete => 3
    let ckaNo : Nat := match s.cka with
      | none => 0 | some .rotxor => 1 | some .xor => 2 | some .add8 => 3 | some .crc32 => 4 | some .crc24q => 5
    s.busRead 0x000 32 = 0x46535331#32 ∧
    (s.params.legal = true → (s.busRead 0x004 32).toNat = s.params.maxObs + 2 ^ 8 * s.params.maxSat + 2 ^ 16 * s.params.nSlot) ∧
    (s.params.legal = true → (s.busRead 0x008 32).toNat = s.params.bufSize) ∧
    s.busRead 0x014 32 = s.arg0 ∧ s.busRead 0x018 32 = s.arg1 ∧ s.busRead 0x01C 32 = s.res0 ∧ s.busRead 0x020 32 = s.res1 ∧
    (s.busRead 0x024 32).toNat = codeNo + 2 ^ 8 * causeNo + 2 ^ 16 * s.isOpen.toNat + 2 ^ 17 * sstateNo + 2 ^ 19 * s.werr.toNat ∧
    (s.busRead 0x028 32).toNat = s.fxMissing.toNat + 2 * s.fxNan.toNat ∧
    (s.busRead 0x02C 32).toNat = s.nbyte.toNat ∧ (s.busRead 0x030 32).toNat = s.flen.toNat ∧
    s.busRead 0x034 32 = s.ftype ∧ (s.busRead 0x038 32).toNat = s.fdecIdx.toNat + 2 ^ 4 * s.fdecHit.toNat ∧
    (s.busRead 0x03C 32).toNat = s.obsN.toNat ∧ (s.busRead 0x040 32).toNat = s.stgN.toNat ∧
    s.busRead 0x044 32 = s.timeLo ∧ s.busRead 0x048 32 = s.timeHi ∧
    (s.busRead 0x04C 32).toNat = ckaNo + 2 ^ 3 * s.ckf.toNat ∧ s.busRead 0x050 32 = s.acc ∧
    (∀ off width, (width ≠ 32 ∨ off % 4 ≠ 0 ∨ off = 0x00C ∨ off = 0x010 ∨ (0x054 ≤ off ∧ off < 0x080) ∨
      (0x0C4 ≤ off ∧ off < 0x100) ∨ 0x140 ≤ off) → s.busRead off width = 0)

/-- 10_state.md R36 and R57: a CFG register written while CLOSED reads back the value without its reserved bits and no other
register changes; while OPEN the write is ignored and sets WERR. -/
def Obligations.ConfigurationIsLockedWhileOpen : Prop :=
  ∀ (s : State) (off : Nat) (mask v : Word), IsCfg off mask → s.cfg.tfType.length = 16 →
    (s.isOpen = true → s.busWrite off 32 v = .next { s with werr := true }) ∧
    (s.isOpen = false → ∃ t, s.busWrite off 32 v = .next t ∧ t = { s with cfg := t.cfg } ∧
      t.busRead off 32 = v &&& mask ∧ ∀ off' width', off' ≠ off → t.busRead off' width' = s.busRead off' width')

/-- 10_state.md R22, R33 and 20_memory.md R75: a write to ARG0, ARG1, TIME_LO or TIME_HI only stores the value, at any time;
20_memory.md R72, R73 and 10_state.md R57: a write of another width, misaligned, or to an offset that no register or a read-only register
occupies, is ignored. -/
def Obligations.WritesStoreOrAreIgnored : Prop :=
  ∀ (s : State) (v : Word),
    s.busWrite 0x014 32 v = .next { s with arg0 := v } ∧ s.busWrite 0x018 32 v = .next { s with arg1 := v } ∧
    s.busWrite 0x044 32 v = .next { s with timeLo := v } ∧ s.busWrite 0x048 32 v = .next { s with timeHi := v } ∧
    ∀ off width, (width ≠ 32 ∨ off % 4 ≠ 0 ∨ off < 0x010 ∨ (0x01C ≤ off ∧ off < 0x044) ∨ (0x04C ≤ off ∧ off < 0x080) ∨
      (0x0C4 ≤ off ∧ off < 0x100) ∨ 0x140 ≤ off) → s.busWrite off width v = .next s

/-- 20_memory.md R70 and R74, with the model's choice of log 6: a transaction inside the 512-byte window at FSS_BASE is performed at its
offset; one outside stops the machine. -/
def Obligations.TransactionsReachTheWindowOnly : Prop :=
  ∀ (s : State) (addr width : Nat) (v : Word) (rest : List BusEvent),
    let u : State := { s with bus := rest, reply := none }
    (s.params.fssBase ≤ addr → addr < s.params.fssBase + 512 →
      (s.bus = .read addr width :: rest →
        step s = .next { u with reply := some (u.busRead (addr - s.params.fssBase) width) }) ∧
      (s.bus = .write addr width v :: rest → step s = u.busWrite (addr - s.params.fssBase) width v)) ∧
    ((addr < s.params.fssBase ∨ s.params.fssBase + 512 ≤ addr) →
      (s.bus = .read addr width :: rest ∨ s.bus = .write addr width v :: rest) → step s = .fault .outsideWindow)

/-- 70_reset_and_hazards.md R290: every piece of state after hardware reset, both in the reset state of an instance with parameters p and
after a step that takes a hardware reset from any state of that instance. -/
def Obligations.ResetValues : Prop :=
  ∀ p : Params, p.legal = true →
    let afterReset (s : State) : Prop :=
      s.arg0 = 0 ∧ s.arg1 = 0 ∧ s.res0 = 0 ∧ s.res1 = 0 ∧ s.busRead 0x024 32 = 0 ∧ s.busRead 0x028 32 = 0 ∧
      s.nbyte = 0 ∧ s.flen = 0 ∧ s.ftype = 0 ∧ s.busRead 0x038 32 = 0 ∧ s.obsN = 0 ∧ s.stgN = 0 ∧
      s.timeLo = 0 ∧ s.timeHi = 0 ∧ s.busRead 0x04C 32 = 0 ∧ s.acc = 0 ∧
      (∀ off mask, IsCfg off mask → s.busRead off 32 =
        if off = 0x0A4 then BitVec.ofNat 32 p.bufSize else if off = 0x0AC then 1000000#32
        else if off = 0x0B0 then 50000000#32 else if off = 0x0B4 then 0xFFFFFFFF#32 else 0) ∧
      s.win = [0, 0, 0, 0, 0] ∧ s.wcnt = 0 ∧ (∀ a, Memory.read s.buf a = 0) ∧
      (∀ r, (r ∈ s.obs ∨ r ∈ s.obuf) → r.sat = 0 ∧ r.time = 0 ∧ r.tv = false ∧ r.slots.length = p.nSlot ∧
        ∀ x ∈ r.slots, x = { p := 0, l := 0, d := 0, snr := 0, lli := 0, code := 0 }) ∧
      s.obs.length = p.maxObs ∧ s.obuf.length = p.maxObs ∧
      (∀ sat slot, lkGet s.lk sat slot = { cnt := 0, t := 0, hc := false, v := false }) ∧
      s.busRead 0x000 32 = 0x46535331#32 ∧
      (s.busRead 0x004 32).toNat = p.maxObs + 2 ^ 8 * p.maxSat + 2 ^ 16 * p.nSlot ∧ (s.busRead 0x008 32).toNat = p.bufSize
    afterReset (State.resetOf p) ∧
    ∀ (u : State) (rest : List BusEvent), u.params = p → u.bus = .reset :: rest → ∃ t, step u = .next t ∧ afterReset t

/-! ## The invariant -/

/-- Every step keeps the invariant of the machine, from every state that meets it. `State.Inv` names the rule of each part; the canonical
form of BUF among them is the model's own representation (log 10). -/
def Obligations.StepKeepsTheInvariant : Prop :=
  ∀ s t : State, s.Inv → step s = .next t → t.Inv

/-- The invariant holds after hardware reset of every legal instance, the default one among them. -/
def Obligations.ResetMeetsTheInvariant : Prop :=
  State.reset.Inv ∧ ∀ p : Params, p.legal = true → (State.resetOf p).Inv

/-- Every step keeps the canonical form in which the model holds BUF, from any state whatever. The form (a list of the bytes that are
not 0, addresses strictly rising) is the model's own representation of BUF, log 10; no rule of the spec speaks of it. -/
def Obligations.StepKeepsBufCanonical : Prop :=
  ∀ s t : State, Memory.wf s.buf = true → step s = .next t → Memory.wf t.buf = true

/-! ## Rules about every command -/

/-- 10_state.md R28, R29: every command that answers a next state leaves an outcome of the list with a cause of its class, OBS_UPDATE only
from FLUSH and EOI, FRAME_READY only from FEED and FEEDN. -/
def Obligations.EveryOutcomeIsOfItsClass : Prop :=
  ∀ (i : Instr) (s t : State), exec i s = .next t →
    outcomeOk t.code t.cause = true ∧ (t.code = .obsUpdate → i = .flush ∨ i = .eoi) ∧
    (t.code = .frameReady → (∃ b, i = .feed b) ∨ ∃ n, i = .feedn n)

/-- 60_exceptions.md R262: an issued word is refused only if it does not decode, or is not allowed in the current state, or is OPEN with an
illegal configuration, and then STATUS.CODE and STATUS.CAUSE change and nothing else. The same holds of every command given to `exec`. -/
def Obligations.RefusedChangesOnlyStatus : Prop :=
  (∀ (w : Word) (s t : State), s.issue w = .next t → t.code = .refused →
    t = { s with code := .refused, cause := t.cause } ∧
    ((decode w = .error .badOpcode ∧ t.cause = .badOpcode) ∨ (decode w = .error .badField ∧ t.cause = .badField) ∨
      (∃ i, decode w = .ok i ∧ ¬ Allowed i s ∧ t.cause = .wrongState) ∨
      (decode w = .ok .openSession ∧ s.isOpen = false ∧ s.cfgLegal = false ∧ t.cause = .cfgIllegal))) ∧
  ∀ (i : Instr) (s t : State), exec i s = .next t → t.code = .refused → t = { s with code := .refused, cause := t.cause }

/-- 60_exceptions.md R260: what an ERROR changes besides STATUS, by its cause: syncReset for the framing and checksum causes, after the byte
was stored at BUF[NBYTE] and nowhere else; RES (and FXF) zeroed for the reads; nothing for the others. A FEEDN that ends in ERROR leaves
what FEED of the RES0 bytes it consumed leaves, and BUF is as before outside the bytes those store. -/
def Obligations.ErrorsChangeOnlyWhatIsListed : Prop :=
  ∀ (i : Instr) (s t : State), exec i s = .next t → t.code = .error →
    match i with
    | .feed b =>
      t = { s with buf := t.buf, sstate := .seeking, nbyte := 0, flen := 0, wcnt := 0, win := [0, 0, 0, 0, 0],
                   code := .error, cause := t.cause } ∧
      (∀ a, a ≠ s.nbyte.toNat → Memory.read t.buf a = Memory.read s.buf a) ∧
      (Memory.wf s.buf = true → Memory.read t.buf s.nbyte.toNat = b)
    | .feedn cnt =>
      let fed := ((List.range cnt.toNat).map fun j => (s.arg0 >>> (8 * j)).setWidth 8).take t.res0.toNat
      t = { s with buf := t.buf, sstate := .seeking, nbyte := 0, flen := 0, wcnt := 0, win := [0, 0, 0, 0, 0],
                   ftype := t.ftype, fdecIdx := t.fdecIdx, fdecHit := t.fdecHit,
                   res0 := t.res0, res1 := 0, code := .error, cause := t.cause } ∧
      (∃ u, feedAll fed s = .next u ∧ t = { u with res0 := t.res0, res1 := 0 }) ∧
      ∀ a, a ∉ feedStores fed s → Memory.read t.buf a = Memory.read s.buf a
    | .obsRd _ _ _ | .stgRd _ _ _ | .lkRd _ _ _ => t = { s with res0 := 0, res1 := 0, code := .error, cause := t.cause }
    | .fxU _ _ _ _ | .fxS _ _ _ _ | .fxF32 _ _ _ | .fxF64 _ _ _ =>
      t = { s with res0 := 0, res1 := 0, fxMissing := false, fxNan := false, code := .error, cause := .oob }
    | _ => t = { s with code := .error, cause := t.cause }

/-- 60_exceptions.md R263: a well-formed command outside its allowed states is refused with WRONG_STATE, nothing else changed; inside
them it is never refused with WRONG_STATE. -/
def Obligations.CommandsAreRefusedOutsideTheirStates : Prop :=
  ∀ (i : Instr) (s : State), i.wf = true →
    (¬ Allowed i s → exec i s = .next { s with code := .refused, cause := .wrongState }) ∧
    (Allowed i s → ∃ t, exec i s = .next t ∧ t.cause ≠ .wrongState)

/-- 10_state.md R22, R25, R33, R36, R55 and 40_session.md R113: no command writes ARG0, ARG1, TIME, a CFG register or the
parameters; only OPEN opens the session and clears WERR, and only EOI closes it. -/
def Obligations.CommandsLeaveTheHostsRegisters : Prop :=
  ∀ (i : Instr) (s t : State), exec i s = .next t →
    t.params = s.params ∧ t.arg0 = s.arg0 ∧ t.arg1 = s.arg1 ∧ t.timeLo = s.timeLo ∧ t.timeHi = s.timeHi ∧ t.cfg = s.cfg ∧
    (t.isOpen ≠ s.isOpen → (i = .openSession ∧ t.isOpen = true ∧ t.code = .ok) ∨ (i = .eoi ∧ t.isOpen = false)) ∧
    (t.werr ≠ s.werr → i = .openSession ∧ t.werr = false ∧ t.code = .ok)

/-- 20_memory.md R71, writes: BUF is written only by FEED and FEEDN, OBS only by OBS.DWR, FLUSH, EOI (and cleared by OPEN), OBUF only by
STG.CNT, STG.SAT, STG.WR, FLUSH, EOI (and cleared by OPEN), LK only by LK.UPD and OPEN. -/
def Obligations.OnlyListedCommandsWriteTheInternalSpaces : Prop :=
  ∀ (i : Instr) (s t : State), exec i s = .next t →
    ((∃ a, Memory.read t.buf a ≠ Memory.read s.buf a) → (∃ b, i = .feed b) ∨ ∃ n, i = .feedn n) ∧
    ((t.obs ≠ s.obs ∨ t.obsN ≠ s.obsN) → (∃ src m fld slot sat, i = .obsDwr src m fld slot sat) ∨ i = .flush ∨ i = .eoi ∨ i = .openSession) ∧
    ((t.obuf ≠ s.obuf ∨ t.stgN ≠ s.stgN) → (∃ n, i = .stgCnt n) ∨ (∃ idx sat, i = .stgSat idx sat) ∨
      (∃ src m fld slot idx, i = .stgWr src m fld slot idx) ∨ i = .flush ∨ i = .eoi ∨ i = .openSession) ∧
    (t.lk ≠ s.lk → (∃ c h hc slot sat, i = .lkUpd c h hc slot sat) ∨ i = .openSession)

/-- 10_state.md R23, R30, R31, R35 and 70_reset_and_hazards.md R301: RES is written only by FEEDN, CK.FIN, the FX commands, OBS.RD,
STG.RD, LK.RD and LK.UPD; FXF only by the FX commands; CKSTAT and CKACC only by CK.INIT, CK.UPD and CK.FRM; the SYNC registers
only by FEED, FEEDN, RELEASE, EOI and OPEN. -/
def Obligations.OnlyListedCommandsWriteTheResultRegisters : Prop :=
  ∀ (i : Instr) (s t : State), exec i s = .next t →
    ((t.res0 ≠ s.res0 ∨ t.res1 ≠ s.res1) →
      i.opcode ∈ [Opcode.feedn, .ckFin, .fxU, .fxS, .fxF32, .fxF64, .obsRd, .stgRd, .lkRd, .lkUpd]) ∧
    ((t.fxMissing ≠ s.fxMissing ∨ t.fxNan ≠ s.fxNan) → i.opcode ∈ [Opcode.fxU, .fxS, .fxF32, .fxF64]) ∧
    ((t.cka ≠ s.cka ∨ t.ckf ≠ s.ckf ∨ t.acc ≠ s.acc) → i.opcode ∈ [Opcode.ckInit, .ckUpd, .ckFrm]) ∧
    ((t.sstate ≠ s.sstate ∨ t.nbyte ≠ s.nbyte ∨ t.flen ≠ s.flen ∨ t.win ≠ s.win ∨ t.wcnt ≠ s.wcnt) →
      i.opcode ∈ [Opcode.feed, .feedn, .release, .eoi, .openSession]) ∧
    ((t.ftype ≠ s.ftype ∨ t.fdecIdx ≠ s.fdecIdx ∨ t.fdecHit ≠ s.fdecHit) → i.opcode ∈ [Opcode.feed, .feedn, .openSession])

/-! ## Session -/

/-- 40_session.md R110: NOP is allowed in every state and changes nothing but STATUS.CODE and STATUS.CAUSE; the all-zero word
is NOP. -/
def Obligations.NopFinishesOk : Prop :=
  (∀ s : State, exec .nop s = .next { s with code := .ok, cause := .none }) ∧ decode 0#32 = .ok .nop

/-- 40_session.md R111 and R112: OPEN while CLOSED starts a session exactly when every condition on the configuration holds, with the
listed effects and no other; else it is refused with CFG_ILLEGAL; while OPEN it is refused with WRONG_STATE. The fields are the bits of the
CFG words that 10_state.md R37 to R43 give them; `lw` and `trl` are the tables of R39 and R40. -/
def Obligations.OpenStartsASessionOnALegalConfiguration : Prop :=
  ∀ s : State,
    let w (off : Nat) : Nat := (s.busRead off 32).toNat
    let syncLen := w 0x080 % 2 ^ 3
    let hdrLen := w 0x08C % 2 ^ 16
    let lenOff := w 0x08C / 2 ^ 16
    let lenEnc := w 0x090 % 2 ^ 3
    let lw := if lenEnc ≤ 1 then 2 else if lenEnc ≤ 3 then 4 else 3
    let ckAlg := w 0x094 % 2 ^ 3
    let ckIncl := w 0x094 / 2 ^ 3 % 2
    let ckStart := w 0x094 / 2 ^ 16
    let trl := if ckAlg = 0 then 0 else if ckAlg ≤ 3 then 1 else if ckAlg = 4 then 4 else 3
    let typeOff := w 0x0A0 % 2 ^ 16
    let typeW := w 0x0A0 / 2 ^ 16 % 2 ^ 3
    let frameMax := w 0x0A4 % 2 ^ 16
    let legal := 1 ≤ syncLen ∧ syncLen ≤ 5 ∧ lenEnc ≤ 4 ∧ syncLen ≤ lenOff ∧ lenOff + lw ≤ hdrLen ∧ ckAlg ≤ 5 ∧
      (ckIncl = 0 ∨ ckAlg = 2 ∨ ckAlg = 5) ∧ ckStart ≤ hdrLen ∧ typeW ≤ 4 ∧ (typeW = 0 ∨ typeOff + typeW ≤ hdrLen) ∧
      hdrLen + 1 + trl ≤ frameMax ∧ frameMax ≤ s.params.bufSize
    (s.isOpen = true → exec .openSession s = .next { s with code := .refused, cause := .wrongState }) ∧
    (s.isOpen = false → ¬ legal → exec .openSession s = .next { s with code := .refused, cause := .cfgIllegal }) ∧
    (s.isOpen = false → legal → exec .openSession s = .next { s with
      isOpen := true, werr := false, sstate := .seeking, nbyte := 0, flen := 0, wcnt := 0, win := [0, 0, 0, 0, 0]
      ftype := 0, fdecIdx := 0, fdecHit := false
      obs := List.replicate s.params.maxObs (Rec.zero s.params.nSlot), obsN := 0
      obuf := List.replicate s.params.maxObs (Rec.zero s.params.nSlot), stgN := 0
      lk := List.replicate s.params.maxSat (List.replicate s.params.nSlot LkEntry.zero)
      code := .ok, cause := .none }) ∧
    decode 0x04000000#32 = .ok .openSession

/-- 40_session.md R114 with 44_epoch_buffer.md R213: EOI while OPEN resets SYNC, flushes the staged epoch and closes; its outcome is
OBS_UPDATE exactly when a staged record qualified. BUF, LK, FTYPE, FDEC, RES and the rest keep their values (R115). While CLOSED it is
refused. That the records of OBS beyond the new count keep what they held is the model's reading, log 11 (93_implementation_defined.md
I20 leaves them any value). -/
def Obligations.EoiFlushesAndCloses : Prop :=
  ∀ s : State, (s.isOpen = false → exec .eoi s = .next { s with code := .refused, cause := .wrongState }) ∧
    decode 0x08000000#32 = .ok .eoi ∧
    let q := (s.obuf.take s.stgN.toNat).filter fun r => r.sat ≠ 0 ∧ r.tv = true
    (s.isOpen = true → ∃ t, exec .eoi s = .next t ∧
      t = { s with isOpen := false, sstate := .seeking, nbyte := 0, flen := 0, wcnt := 0, win := [0, 0, 0, 0, 0],
                   obs := t.obs, obsN := t.obsN, obuf := List.replicate s.params.maxObs (Rec.zero s.params.nSlot), stgN := 0,
                   code := if q = [] then .ok else .obsUpdate, cause := .none } ∧
      (q = [] → t.obs = s.obs ∧ t.obsN = s.obsN) ∧
      (q ≠ [] → t.obs.take q.length = q ∧ t.obs.drop q.length = s.obs.drop q.length ∧ t.obsN.toNat = q.length))

/-! ## Synchronizer -/

/-- 41_synchronizer.md R121 and R124: a byte fed in SEEKING is shifted into the window; on a match with the pattern the sync bytes
become frame bytes 0 to SL-1 and SYNC goes to HEADER; otherwise only the window changes. `w` is the window after the shift: the last SL of
the valid window bytes and the new one. -/
def Obligations.SeekingMatchesThePattern : Prop :=
  ∀ (b : Byte) (s : State), s.Inv → s.isOpen = true → s.sstate = .seeking →
    let v := s.win.take s.wcnt ++ [b]
    let w := v.drop (v.length - s.syncLen)
    ∃ t, exec (.feed b) s = .next t ∧
      (w = s.pattern.take s.syncLen →
        t = { s with buf := t.buf, sstate := .header, nbyte := t.nbyte, wcnt := 0, win := [0, 0, 0, 0, 0], code := .ok, cause := .none } ∧
        t.nbyte.toNat = s.syncLen ∧
        (∀ i, i < s.syncLen → Memory.read t.buf i = w.getD i 0) ∧ (∀ a, s.syncLen ≤ a → Memory.read t.buf a = Memory.read s.buf a)) ∧
      (w ≠ s.pattern.take s.syncLen →
        t = { s with win := t.win, wcnt := w.length, code := .ok, cause := .none } ∧ t.win.take t.wcnt = w)

/-- 41_synchronizer.md R125: a header byte that does not complete the length field is stored at BUF[NBYTE] and counted; SYNC goes to
PAYLOAD when the header is whole. -/
def Obligations.HeaderBytesAreStored : Prop :=
  ∀ (b : Byte) (s : State), s.Inv → s.isOpen = true → s.sstate = .header →
    s.nbyte.toNat + 1 ≠ s.lenOff + lenWidth s.lenEnc →
    ∃ t, exec (.feed b) s = .next t ∧
      t = { s with buf := t.buf, nbyte := t.nbyte, code := .ok, cause := .none,
                   sstate := if s.nbyte.toNat + 1 = s.hdrLen then .payload else .header } ∧
      t.nbyte.toNat = s.nbyte.toNat + 1 ∧ Memory.read t.buf s.nbyte.toNat = b ∧
      ∀ a, a ≠ s.nbyte.toNat → Memory.read t.buf a = Memory.read s.buf a

/-- 41_synchronizer.md R125 to R127: the byte that completes the length field decides FLEN or one of LEN_BADHEX, LEN_ZERO and LEN_OVERSIZE, tested
in that order; an error resets SYNC. `d` is the length field; its digits in HEX3 have the values of R126's table, which stand first. -/
def Obligations.LengthFieldDecidesTheFrame : Prop :=
  (∀ x : Byte, hexDigit x =
    if 0x30 ≤ x.toNat ∧ x.toNat ≤ 0x39 then some (x.toNat - 0x30)
    else if 0x41 ≤ x.toNat ∧ x.toNat ≤ 0x46 then some (x.toNat - 0x37)
    else if 0x61 ≤ x.toNat ∧ x.toNat ≤ 0x66 then some (x.toNat - 0x57)
    else none) ∧
  ∀ (b : Byte) (s : State), s.Inv → s.isOpen = true → s.sstate = .header →
    s.nbyte.toNat + 1 = s.lenOff + lenWidth s.lenEnc →
    let d := Memory.slice s.buf s.lenOff (lenWidth s.lenEnc - 1) ++ [b]
    let bad (k : Cause) (t : State) : Prop :=
      t = { s with buf := t.buf, sstate := .seeking, nbyte := 0, flen := 0, wcnt := 0, win := [0, 0, 0, 0, 0], code := .error, cause := k }
    ∃ t, exec (.feed b) s = .next t ∧ Memory.read t.buf s.nbyte.toNat = b ∧
      (∀ a, a ≠ s.nbyte.toNat → Memory.read t.buf a = Memory.read s.buf a) ∧
      match lengthTable s.lenEnc d with
      | none => bad .lenBadhex t
      | some l =>
        if l = 0 then bad .lenZero t
        else if s.frameMax < s.hdrLen + l + s.trl then bad .lenOversize t
        else
          t = { s with buf := t.buf, nbyte := t.nbyte, flen := t.flen, code := .ok, cause := .none,
                       sstate := if s.nbyte.toNat + 1 = s.hdrLen then .payload else .header } ∧
          t.nbyte.toNat = s.nbyte.toNat + 1 ∧ t.flen.toNat = s.hdrLen + l + s.trl

/-- 41_synchronizer.md R128 to R130: a payload byte is stored at BUF[NBYTE]; the one that makes the frame whole decides CK_MISMATCH, a dropped
type, or FRAME_READY with the frame held. `f` is the whole frame. First, what the validator computes for each algorithm (42_checksum.md
R150 to R157): initial value, byte steps and final value, with CRC32_INIT, CRC32_XOROUT and CK_CFG.CK_ROTF as it reads them, and the
trailer bytes of R156. -/
def Obligations.PayloadBytesCompleteTheFrame : Prop :=
  (∀ (s : State) (d : List Byte),
    let x := d.foldl (Alg.step .rotxor) 0
    let rotated := BitVec.ofNat 32 (x.toNat % 2 ^ 8 * 2 ^ 2 % 2 ^ 8 + x.toNat % 2 ^ 8 / 2 ^ 6)
    s.ckCompute .rotxor d = (if (s.busRead 0x094 32).toNat / 2 ^ 4 % 2 = 1 then rotated else x) ∧
    s.ckCompute .xor d = d.foldl (Alg.step .xor) 0 ∧
    s.ckCompute .add8 d = d.foldl (Alg.step .add8) 0 ∧
    s.ckCompute .crc32 d = d.foldl (Alg.step .crc32) (s.busRead 0x098 32) ^^^ s.busRead 0x09C 32 ∧
    s.ckCompute .crc24q d = d.foldl (Alg.step .crc24q) 0) ∧
  (∀ v : Word,
    let byte (k : Nat) : Nat := v.toNat / 2 ^ (8 * k) % 2 ^ 8
    (Alg.serialize .rotxor v).map BitVec.toNat = [byte 0] ∧ (Alg.serialize .xor v).map BitVec.toNat = [byte 0] ∧
    (Alg.serialize .add8 v).map BitVec.toNat = [byte 0] ∧
    (Alg.serialize .crc32 v).map BitVec.toNat = [byte 0, byte 1, byte 2, byte 3] ∧
    (Alg.serialize .crc24q v).map BitVec.toNat = [byte 2, byte 1, byte 0]) ∧
  [Alg.rotxor, .xor, .add8, .crc32, .crc24q].map Alg.trl = [1, 1, 1, 4, 3] ∧
  ∀ (b : Byte) (s : State), s.Inv → s.isOpen = true → s.sstate = .payload →
    let f := Memory.slice s.buf 0 s.nbyte.toNat ++ [b]
    ∃ t, exec (.feed b) s = .next t ∧ Memory.read t.buf s.nbyte.toNat = b ∧
      (∀ a, a ≠ s.nbyte.toNat → Memory.read t.buf a = Memory.read s.buf a) ∧
      (s.nbyte.toNat + 1 < s.flen.toNat →
        t = { s with buf := t.buf, nbyte := t.nbyte, code := .ok, cause := .none } ∧ t.nbyte.toNat = s.nbyte.toNat + 1) ∧
      (s.nbyte.toNat + 1 = s.flen.toNat → ¬ s.validFrame f →
        t = { s with buf := t.buf, sstate := .seeking, nbyte := 0, flen := 0, wcnt := 0, win := [0, 0, 0, 0, 0],
                     code := .error, cause := .ckMismatch }) ∧
      (s.nbyte.toNat + 1 = s.flen.toNat → s.validFrame f → ¬ s.typeAccepted f →
        t = { s with buf := t.buf, sstate := .seeking, nbyte := 0, flen := 0, wcnt := 0, win := [0, 0, 0, 0, 0],
                     ftype := t.ftype, fdecIdx := 0, fdecHit := false, code := .ok, cause := .none } ∧
        t.ftype.toNat = s.frameType f) ∧
      (s.nbyte.toNat + 1 = s.flen.toNat → s.validFrame f → s.typeAccepted f →
        t = { s with buf := t.buf, sstate := .complete, nbyte := s.flen, ftype := t.ftype, fdecIdx := t.fdecIdx,
                     fdecHit := s.tfEn, code := .frameReady, cause := .none } ∧
        t.ftype.toNat = s.frameType f ∧
        (s.tfEn = false → t.fdecIdx = 0) ∧
        (s.tfEn = true → s.tfValid t.fdecIdx.toNat = true ∧ s.tfType t.fdecIdx.toNat = t.ftype ∧
          ∀ j, j < t.fdecIdx.toNat → ¬ (s.tfValid j = true ∧ s.tfType j = t.ftype)))

/-- 41_synchronizer.md R132: FEEDN leaves exactly the state that FEED of its first RES0 bytes leaves, except for RES0 and RES1; it stops
early only after an outcome that is not OK. -/
def Obligations.FeednEqualsFeeds : Prop :=
  ∀ (cnt : BitVec 3) (s : State), 1 ≤ cnt.toNat → cnt.toNat ≤ 4 → s.isOpen = true → s.sstate ≠ .complete →
    let bytes := (List.range cnt.toNat).map fun j => (s.arg0 >>> (8 * j)).setWidth 8
    ∃ t u, exec (.feedn cnt) s = .next t ∧ feedAll (bytes.take t.res0.toNat) s = .next u ∧
      t = { u with res0 := t.res0, res1 := 0 } ∧ 1 ≤ t.res0.toNat ∧ t.res0.toNat ≤ cnt.toNat ∧
      (t.res0.toNat < cnt.toNat → t.code ≠ .ok) ∧
      ∀ n v, 0 < n → n < t.res0.toNat → feedAll (bytes.take n) s = .next v → v.code = .ok

/-- 41_synchronizer.md R133: RELEASE ends the COMPLETE state, FTYPE and FDEC kept; in any other state it is refused. -/
def Obligations.ReleaseEndsComplete : Prop :=
  ∀ s : State,
    (s.isOpen = true → s.sstate = .complete → exec .release s = .next
      { s with sstate := .seeking, nbyte := 0, flen := 0, wcnt := 0, win := [0, 0, 0, 0, 0], code := .ok, cause := .none }) ∧
    (s.isOpen = false ∨ s.sstate ≠ .complete → exec .release s = .next { s with code := .refused, cause := .wrongState }) ∧
    decode 0x18000000#32 = .ok .release

/-- 41_synchronizer.md R131: while a frame is held, no command but RELEASE and EOI changes BUF, NBYTE, FLEN, FTYPE, FDEC or the COMPLETE state. -/
def Obligations.HeldFrameIsImmutable : Prop :=
  ∀ (i : Instr) (s t : State), s.Inv → s.sstate = .complete → i ≠ .release → i ≠ .eoi → exec i s = .next t →
    t.sstate = .complete ∧ t.nbyte = s.nbyte ∧ t.flen = s.flen ∧ t.ftype = s.ftype ∧ t.fdecIdx = s.fdecIdx ∧
    t.fdecHit = s.fdecHit ∧ ∀ a, Memory.read t.buf a = Memory.read s.buf a

/-- 41_synchronizer.md R134, the resync bound: garbage then a whole legal frame, with no occurrence of the pattern before the frame's
first byte in window ++ garbage ++ frame. Every byte but the last gives OK, SYNC stays in SEEKING until byte |G| + SL, and the last byte
gives FRAME_READY with the frame in BUF, or drops a type that is not accepted. -/
def Obligations.ResyncWithinGarbagePlusFrame : Prop :=
  ∀ (s : State) (garbage frame : List Byte), s.Inv → s.isOpen = true → s.sstate = .seeking → s.legalFrame frame →
    (∀ k, k < s.wcnt + garbage.length →
      (((s.win.take s.wcnt ++ garbage ++ frame).drop k).take s.syncLen) ≠ s.pattern.take s.syncLen) →
    ∃ t, feedAll (garbage ++ frame) s = .next t ∧
      (∀ n, 0 < n → n < garbage.length + frame.length → ∃ u, feedAll ((garbage ++ frame).take n) s = .next u ∧ u.code = .ok ∧
        (n < garbage.length + s.syncLen → u.sstate = .seeking) ∧
        (n = garbage.length + s.syncLen → u.sstate = .header ∧ u.nbyte.toNat = s.syncLen)) ∧
      (s.typeAccepted frame → t.code = .frameReady ∧ t.sstate = .complete ∧ t.flen.toNat = frame.length ∧
        Memory.slice t.buf 0 frame.length = frame) ∧
      (¬ s.typeAccepted frame → t.code = .ok ∧ t.sstate = .seeking)

/-! ## Checksums -/

/-- 42_checksum.md R151 to R155: the byte step of each algorithm, for every accumulator of its width and every byte, and every row of the
values in 95_test_vectors.md section 2.4: input bytes, ROTXOR, ROTXOR with the final rotate, XOR, ADD8, CRC32 with both registers 0, CRC32 with
both all ones, CRC24Q. -/
def Obligations.CheckValuesOfTheAlgorithms : Prop :=
  let crc32Round (x : Nat) : Nat := if x % 2 = 1 then (x / 2) ^^^ 0xEDB88320 else x / 2
  let crc24qRound (x : Nat) : Nat := if x * 2 / 2 ^ 24 % 2 = 1 then (x * 2) ^^^ 0x1864CFB else x * 2
  (∀ (acc : Word) (b : Byte), acc.toNat < 2 ^ 8 →
    (Alg.step .rotxor acc b).toNat = (acc.toNat * 2 ^ 2 % 2 ^ 8 + acc.toNat / 2 ^ 6) ^^^ b.toNat ∧
    (Alg.step .xor acc b).toNat = acc.toNat ^^^ b.toNat ∧
    (Alg.step .add8 acc b).toNat = (acc.toNat + b.toNat) % 256) ∧
  (∀ (acc : Word) (b : Byte), (Alg.step .crc32 acc b).toNat = crc32Round^[8] (acc.toNat ^^^ b.toNat)) ∧
  (∀ (acc : Word) (b : Byte), acc.toNat < 2 ^ 24 →
    (Alg.step .crc24q acc b).toNat = crc24qRound^[8] (acc.toNat ^^^ (b.toNat * 2 ^ 16)) % 2 ^ 24) ∧
  ∀ row ∈ ([([0x31, 0x32, 0x33, 0x34, 0x35, 0x36, 0x37, 0x38, 0x39], 0x4C, 0x31, 0x31, 0xDD, 0x2DFD2D88, 0xCBF43926, 0xCDE703),
      ([], 0x00, 0x00, 0x00, 0x00, 0x00000000, 0x00000000, 0x000000),
      ([0x00], 0x00, 0x00, 0x00, 0x00, 0x00000000, 0xD202EF8D, 0x000000),
      ([0xFF], 0xFF, 0xFF, 0xFF, 0xFF, 0x2D02EF8D, 0xFF000000, 0xDD8538),
      ([0x80], 0x80, 0x02, 0x80, 0x80, 0xEDB88320, 0x3FBA6CAD, 0x3347A4),
      ([0x01, 0x02], 0x06, 0x18, 0x03, 0x03, 0xF715506D, 0xB6CC4292, 0xEC5A45),
      ([0xFF, 0xFF], 0x00, 0x00, 0x00, 0xFE, 0xBE2612FF, 0xFFFF0000, 0x033CE4)] :
      List (List Byte × Word × Word × Word × Word × Word × Word × Word)),
    let (d, rotxor, rotated, xor, add8, crc32, crc32std, crc24q) := row
    Alg.run .rotxor 0 d = rotxor ∧ Alg.final .rotxor true 0 (Alg.run .rotxor 0 d) = rotated ∧ Alg.run .xor 0 d = xor ∧
    Alg.run .add8 0 d = add8 ∧ Alg.run .crc32 0 d = crc32 ∧
    Alg.final .crc32 false 0xFFFFFFFF#32 (Alg.run .crc32 0xFFFFFFFF#32 d) = crc32std ∧ Alg.run .crc24q 0 d = crc24q

/-- 42_checksum.md R157: for XOR and CRC24Q the computation over a range and its trailer is 0 exactly when the trailer is the serialized
value of the range. -/
def Obligations.ResidueIsZeroExactlyForTheTrailer : Prop :=
  ∀ (s : State) (a : Alg) (d tr : List Byte), (a = .xor ∨ a = .crc24q) → tr.length = a.trl →
    (s.ckCompute a (d ++ tr) = 0 ↔ a.serialize (s.ckCompute a d) = tr)

/-- A frame that differs from a valid one in exactly one byte at or after CK_START, trailer included, fails the checksum test of
41_synchronizer.md R129, whatever the algorithm of 42_checksum.md R150 to R157; 42_checksum.md R162 says it of one flipped bit. The
configuration is one that OPEN accepts. -/
def Obligations.OneWrongByteIsRejected : Prop :=
  ∀ (s : State) (f g : List Byte) (k : Nat) (a : Alg), s.cfgLegal = true → s.ckAlg = some a →
    s.ckStart + a.trl ≤ f.length → f.length = g.length → s.ckStart ≤ k → k < f.length →
    f.getD k 0 ≠ g.getD k 0 → (∀ i, i ≠ k → f.getD i 0 = g.getD i 0) →
    s.validFrame f → ¬ s.validFrame g

/-- 42_checksum.md R158: CK.INIT starts a host checksum in every state, with the algorithm that 10_state.md R40 numbers ALG and its initial
value init(ALG). -/
def Obligations.CkInitStartsTheAccumulator : Prop :=
  decode 0x20000005#32 = .ok (.ckInit false 5#3) ∧
  ∀ (f : Bool) (alg : BitVec 3) (s : State), 1 ≤ alg.toNat → alg.toNat ≤ 5 →
    let a : Alg := if alg = 1 then .rotxor else if alg = 2 then .xor else if alg = 3 then .add8 else if alg = 4 then .crc32 else .crc24q
    exec (.ckInit f alg) s = .next { s with
      cka := some a, ckf := f, acc := if alg = 4 then s.cfg.crc32Init else 0, code := .ok, cause := .none }

/-- 42_checksum.md R159: CK.UPD folds the step over CNT bytes of ARG0, byte 0 first; without CK.INIT it is refused. -/
def Obligations.CkUpdFoldsTheBytes : Prop :=
  decode 0x24000004#32 = .ok (.ckUpd 4#3) ∧
  ∀ (cnt : BitVec 3) (s : State), 1 ≤ cnt.toNat → cnt.toNat ≤ 4 →
    (s.cka = none → exec (.ckUpd cnt) s = .next { s with code := .refused, cause := .wrongState }) ∧
    ∀ a, s.cka = some a → exec (.ckUpd cnt) s = .next { s with
      acc := ((List.range cnt.toNat).map fun j => (s.arg0 >>> (8 * j)).setWidth 8).foldl a.step s.acc, code := .ok, cause := .none }

/-- 42_checksum.md R160: CK.FIN puts the final value of the algorithm in RES0 and the trailer bytes of 42_checksum.md R156, byte 0 lowest, in
RES1, and changes no accumulator; without CK.INIT it is refused. `b` is the byte of ROTXOR rotated left by 2. -/
def Obligations.CkFinReadsTheValueAndTrailer : Prop :=
  decode 0x28000000#32 = .ok .ckFin ∧
  ∀ s : State,
    (s.cka = none → exec .ckFin s = .next { s with code := .refused, cause := .wrongState }) ∧
    ∀ a, s.cka = some a → ∃ t, exec .ckFin s = .next t ∧
      t = { s with res0 := t.res0, res1 := t.res1, code := .ok, cause := .none } ∧
      let x := s.acc.toNat % 2 ^ 8
      let b := x * 2 ^ 2 % 2 ^ 8 + x / 2 ^ 6
      let v := t.res0.toNat
      (match a with
        | .rotxor => v = if s.ckf then b else s.acc.toNat
        | .xor => v = s.acc.toNat
        | .add8 => v = s.acc.toNat
        | .crc32 => t.res0 = s.acc ^^^ s.cfg.crc32Xorout
        | .crc24q => v = s.acc.toNat) ∧
      t.res1.toNat = (match a with
        | .rotxor => v % 2 ^ 8
        | .xor => v % 2 ^ 8
        | .add8 => v % 2 ^ 8
        | .crc32 => v % 2 ^ 8 + 2 ^ 8 * (v / 2 ^ 8 % 2 ^ 8) + 2 ^ 16 * (v / 2 ^ 16 % 2 ^ 8) + 2 ^ 24 * (v / 2 ^ 24)
        | .crc24q => v / 2 ^ 16 % 2 ^ 8 + 2 ^ 8 * (v / 2 ^ 8 % 2 ^ 8) + 2 ^ 16 * (v % 2 ^ 8))

/-- 42_checksum.md R161: CK.FRM folds the step over ARG0 bytes of the held frame from OFF, or reports OOB with ACC unchanged; without
CK.INIT it is refused. Outside COMPLETE the bound is 0. -/
def Obligations.CkFrmFoldsTheHeldFrame : Prop :=
  decode 0x2C000000#32 = .ok (.ckFrm 0#16) ∧
  ∀ (off : BitVec 16) (s : State),
    let bound := if s.sstate = .complete then s.flen.toNat else 0
    (s.cka = none → exec (.ckFrm off) s = .next { s with code := .refused, cause := .wrongState }) ∧
    ∀ a, s.cka = some a →
      (bound < off.toNat + s.arg0.toNat → exec (.ckFrm off) s = .next { s with code := .error, cause := .oob }) ∧
      (off.toNat + s.arg0.toNat ≤ bound → exec (.ckFrm off) s = .next { s with
        acc := (Memory.slice s.buf off.toNat s.arg0.toNat).foldl a.step s.acc, code := .ok, cause := .none })

/-! ## Field codec -/

/-- 43_field_codec.md R180: an FX command that reads beyond the frame view, and any FX command outside COMPLETE, ends in ERROR OOB with RES and
FXF zeroed and nothing else changed. -/
def Obligations.CodecReadsOutsideTheFrameAreOob : Prop :=
  ∀ (e : Endian) (sm : SentMode) (w : BitVec 3) (off : BitVec 16) (s : State),
    let bound := if s.sstate = .complete then s.flen.toNat else 0
    let oob := Host.Outcome.next (φ := Fault) (ρ := Refusal) { s with
      res0 := 0, res1 := 0, fxMissing := false, fxNan := false, code := .error, cause := .oob }
    (bound < off.toNat + (w.toNat + 1) → exec (.fxU e sm w off) s = oob ∧ exec (.fxS e sm w off) s = oob) ∧
    (bound < off.toNat + 4 → exec (.fxF32 e sm off) s = oob) ∧ (bound < off.toNat + 8 → exec (.fxF64 e sm off) s = oob)

/-- 43_field_codec.md R181 to R183: FX.U inside the held frame returns the unsigned value of its n bytes in the declared order, and sets MISSING by
the sentinel mode, NAN to 0; nothing else changes. -/
def Obligations.FxUReadsAnUnsignedInteger : Prop :=
  ∀ (e : Endian) (sm : SentMode) (w : BitVec 3) (off : BitVec 16) (s : State), s.sstate = .complete →
    off.toNat + (w.toNat + 1) ≤ s.flen.toNat →
    let n := w.toNat + 1
    let raw := bytesSum e (Memory.slice s.buf off.toNat n)
    ∃ t, exec (.fxU e sm w off) s = .next t ∧
      t = { s with res0 := t.res0, res1 := t.res1, fxMissing := t.fxMissing, fxNan := false, code := .ok, cause := .none } ∧
      t.res1.toNat * 2 ^ 32 + t.res0.toNat = raw ∧
      (t.fxMissing = true ↔ (sm = .ones ∧ raw = 2 ^ (8 * n) - 1) ∨ (sm = .maxpos ∧ raw = 2 ^ (8 * n - 1) - 1) ∨
        (sm = .sent ∧ raw = (s.cfg.sentHi.toNat * 2 ^ 32 + s.cfg.sentLo.toNat) % 2 ^ (8 * n)))

/-- 43_field_codec.md R184: FX.S inside the held frame returns the two's-complement value of its n bytes, sign-extended to 64 bits; FXF as for
FX.U; nothing else changes. -/
def Obligations.FxSReadsASignedInteger : Prop :=
  ∀ (e : Endian) (sm : SentMode) (w : BitVec 3) (off : BitVec 16) (s : State), s.sstate = .complete →
    off.toNat + (w.toNat + 1) ≤ s.flen.toNat →
    let n := w.toNat + 1
    let raw := bytesSum e (Memory.slice s.buf off.toNat n)
    ∃ t, exec (.fxS e sm w off) s = .next t ∧
      t = { s with res0 := t.res0, res1 := t.res1, fxMissing := t.fxMissing, fxNan := false, code := .ok, cause := .none } ∧
      (t.res1 ++ t.res0 : BitVec 64).toInt = (if 2 ^ (8 * n - 1) ≤ raw then (raw : Int) - 2 ^ (8 * n) else raw) ∧
      (t.fxMissing = true ↔ (sm = .ones ∧ raw = 2 ^ (8 * n) - 1) ∨ (sm = .maxpos ∧ raw = 2 ^ (8 * n - 1) - 1) ∨
        (sm = .sent ∧ raw = (s.cfg.sentHi.toNat * 2 ^ 32 + s.cfg.sentLo.toNat) % 2 ^ (8 * n)))

/-- 43_field_codec.md R185 and R187: FX.F32 inside the held frame. A NaN gives 0 with NAN and MISSING set; an infinity gives the binary64
infinity of its sign; a finite value gives the binary64 pattern of exactly the same value and sign. -/
def Obligations.FxF32WidensExactly : Prop :=
  ∀ (e : Endian) (sm : SentMode) (off : BitVec 16) (s : State), s.sstate = .complete → off.toNat + 4 ≤ s.flen.toNat →
    let raw := bytesSum e (Memory.slice s.buf off.toNat 4)
    let x : BitVec 32 := BitVec.ofNat 32 raw
    let expo := raw / 2 ^ 23 % 2 ^ 8
    let frac := raw % 2 ^ 23
    let hit := (sm = .ones ∧ raw = 2 ^ 32 - 1) ∨ (sm = .maxpos ∧ raw = 2 ^ 31 - 1) ∨ (sm = .sent ∧ raw = s.cfg.sentLo.toNat)
    ∃ t, exec (.fxF32 e sm off) s = .next t ∧
      t = { s with res0 := t.res0, res1 := t.res1, fxMissing := t.fxMissing, fxNan := t.fxNan, code := .ok, cause := .none } ∧
      (expo = 0xFF ∧ frac ≠ 0 → t.res0 = 0 ∧ t.res1 = 0 ∧ t.fxNan = true ∧ t.fxMissing = true) ∧
      (¬ (expo = 0xFF ∧ frac ≠ 0) → t.fxNan = false ∧ (t.fxMissing = true ↔ hit) ∧ t.res1.toNat / 2 ^ 31 = raw / 2 ^ 31) ∧
      (expo = 0xFF ∧ frac = 0 → t.res1.toNat % 2 ^ 31 = 0x7FF00000 ∧ t.res0 = 0) ∧
      (expo ≠ 0xFF → t.res1.toNat / 2 ^ 20 % 2 ^ 11 ≠ 0x7FF ∧ value64 (t.res1 ++ t.res0) = value32 x)

/-- 43_field_codec.md R186: FX.F64 inside the held frame returns the eight bytes unchanged, or 0 with NAN and MISSING set for a NaN. -/
def Obligations.FxF64PassesTheBits : Prop :=
  ∀ (e : Endian) (sm : SentMode) (off : BitVec 16) (s : State), s.sstate = .complete → off.toNat + 8 ≤ s.flen.toNat →
    let raw := bytesSum e (Memory.slice s.buf off.toNat 8)
    let nan := raw / 2 ^ 52 % 2 ^ 11 = 0x7FF ∧ raw % 2 ^ 52 ≠ 0
    let hit := (sm = .ones ∧ raw = 2 ^ 64 - 1) ∨ (sm = .maxpos ∧ raw = 2 ^ 63 - 1) ∨
      (sm = .sent ∧ raw = s.cfg.sentHi.toNat * 2 ^ 32 + s.cfg.sentLo.toNat)
    ∃ t, exec (.fxF64 e sm off) s = .next t ∧
      t = { s with res0 := t.res0, res1 := t.res1, fxMissing := t.fxMissing, fxNan := t.fxNan, code := .ok, cause := .none } ∧
      (nan → t.res0 = 0 ∧ t.res1 = 0 ∧ t.fxNan = true ∧ t.fxMissing = true) ∧
      (¬ nan → t.res1.toNat * 2 ^ 32 + t.res0.toNat = raw ∧ t.fxNan = false ∧ (t.fxMissing = true ↔ hit))

/-- 43_field_codec.md R188 and R189: whatever the frame holds, the block never produces a NaN from FX.F32 or FX.F64, and reading the same field
twice with any of FX.U, FX.S, FX.F32 and FX.F64 gives the same state. -/
def Obligations.CodecNeverYieldsANaN : Prop :=
  ∀ (i : Instr) (e : Endian) (sm : SentMode) (w : BitVec 3) (off : BitVec 16) (s t : State), exec i s = .next t →
    (i = .fxF32 e sm off ∨ i = .fxF64 e sm off →
      ¬ (t.res1.toNat / 2 ^ 20 % 2 ^ 11 = 0x7FF ∧ (t.res1.toNat % 2 ^ 20 ≠ 0 ∨ t.res0 ≠ 0))) ∧
    (i = .fxU e sm w off ∨ i = .fxS e sm w off ∨ i = .fxF32 e sm off ∨ i = .fxF64 e sm off → exec i t = .next t)

/-! ## Epoch buffer -/

/-- 44_epoch_buffer.md R203 and R264, errors: SAT_ZERO, then SLOT_RANGE, then EPOCH_FULL, each with nothing else changed. `n` is the count after
the new-epoch test. -/
def Obligations.DirectWriteErrorsChangeNothing : Prop :=
  ∀ (src : Source) (m : Bool) (fld slot : BitVec 4) (sat : Byte) (s : State), s.isOpen = true → fld.toNat ≤ 5 →
    let n := if 0 < s.obsN.toNat ∧ s.time ≠ (s.recAt s.obs 0).time then 0 else s.obsN.toNat
    (sat = 0 → exec (.obsDwr src m fld slot sat) s = .next { s with code := .error, cause := .satZero }) ∧
    (sat ≠ 0 → s.params.nSlot ≤ slot.toNat →
      exec (.obsDwr src m fld slot sat) s = .next { s with code := .error, cause := .slotRange }) ∧
    (sat ≠ 0 → slot.toNat < s.params.nSlot → s.params.maxObs ≤ n → (∀ j, j < n → (s.recAt s.obs j).sat ≠ sat) →
      exec (.obsDwr src m fld slot sat) s = .next { s with code := .error, cause := .epochFull })

/-- 44_epoch_buffer.md R202 and R203: OBS.DWR for a satellite that has exactly one record in the epoch writes that record's field, truncated
to the field's width, and no other field, slot or record, and leaves it untouched for a missing value (of records beyond the count this is
the model's reading, log 11). -/
def Obligations.DirectWriteOverwritesTheField : Prop :=
  ∀ (src : Source) (m : Bool) (fld slot : BitVec 4) (sat : Byte) (k : Nat) (s : State), s.Inv → s.isOpen = true → fld.toNat ≤ 5 →
    sat ≠ 0 → slot.toNat < s.params.nSlot → k < s.obsN.toNat → s.time = (s.recAt s.obs 0).time →
    (s.recAt s.obs k).sat = sat → (∀ j, j < s.obsN.toNat → (s.recAt s.obs j).sat = sat → j = k) →
    let v : DWord := if src = .arg then s.arg1 ++ s.arg0 else s.res1 ++ s.res0
    let missing := m = true ∨ (src = .res ∧ s.fxMissing = true)
    let put (r : SlotRec) : SlotRec :=
      if fld = 0 then { r with p := v } else if fld = 1 then { r with l := v } else if fld = 2 then { r with d := v }
      else if fld = 3 then { r with snr := v.setWidth 16 } else if fld = 4 then { r with lli := v.setWidth 8 }
      else { r with code := v.setWidth 8 }
    let old := s.recAt s.obs k
    ∃ t, exec (.obsDwr src m fld slot sat) s = .next t ∧
      t = { s with obs := t.obs, code := .ok, cause := .none } ∧ t.obs.length = s.obs.length ∧
      (∀ j, j ≠ k → s.recAt t.obs j = s.recAt s.obs j) ∧
      (missing → s.recAt t.obs k = old) ∧
      (¬ missing → s.recAt t.obs k = { old with slots := old.slots.set slot.toNat (put (old.slot slot.toNat)) })

/-- 44_epoch_buffer.md R203 and R215(d): OBS.DWR for a satellite without a record in the epoch allocates a fresh all-zero record at the end, stamped
with TIME, and writes the field unless the value is missing; a TIME other than the set's starts a new epoch first. That the records of
the old epoch beyond the new one keep what they held is the model's reading, log 11 (93_implementation_defined.md I20 leaves them any
value). -/
def Obligations.DirectWriteAllocatesAFreshRecord : Prop :=
  ∀ (src : Source) (m : Bool) (fld slot : BitVec 4) (sat : Byte) (s : State), s.Inv → s.isOpen = true → fld.toNat ≤ 5 →
    sat ≠ 0 → slot.toNat < s.params.nSlot →
    let n := if 0 < s.obsN.toNat ∧ s.time ≠ (s.recAt s.obs 0).time then 0 else s.obsN.toNat
    n < s.params.maxObs → (∀ j, j < n → (s.recAt s.obs j).sat ≠ sat) →
    let v : DWord := if src = .arg then s.arg1 ++ s.arg0 else s.res1 ++ s.res0
    let missing := m = true ∨ (src = .res ∧ s.fxMissing = true)
    let put (r : SlotRec) : SlotRec :=
      if fld = 0 then { r with p := v } else if fld = 1 then { r with l := v } else if fld = 2 then { r with d := v }
      else if fld = 3 then { r with snr := v.setWidth 16 } else if fld = 4 then { r with lli := v.setWidth 8 }
      else { r with code := v.setWidth 8 }
    let blank := List.replicate s.params.nSlot SlotRec.zero
    ∃ t, exec (.obsDwr src m fld slot sat) s = .next t ∧
      t = { s with obs := t.obs, obsN := t.obsN, code := .ok, cause := .none } ∧ t.obsN.toNat = n + 1 ∧
      (∀ j, j ≠ n → s.recAt t.obs j = s.recAt s.obs j) ∧
      (s.recAt t.obs n).sat = sat ∧ (s.recAt t.obs n).time = s.time ∧ (s.recAt t.obs n).tv = true ∧
      (missing → (s.recAt t.obs n).slots = blank) ∧
      (¬ missing → (s.recAt t.obs n).slots = blank.set slot.toNat (put SlotRec.zero))

/-- 44_epoch_buffer.md R215(b) and (c), direct mode: OBS.DWR keeps the satellites of the set distinct and, where it answers OK, every record
of the set at the time TIME, if the set was so before. -/
def Obligations.DirectWritesKeepOneEpoch : Prop :=
  ∀ (src : Source) (m : Bool) (fld slot : BitVec 4) (sat : Byte) (s t : State), s.Inv →
    (∀ i j, i < s.obsN.toNat → j < s.obsN.toNat → (s.recAt s.obs i).sat = (s.recAt s.obs j).sat → i = j) →
    (∀ i, i < s.obsN.toNat → (s.recAt s.obs i).time = (s.recAt s.obs 0).time) →
    exec (.obsDwr src m fld slot sat) s = .next t →
    (∀ i j, i < t.obsN.toNat → j < t.obsN.toNat → (t.recAt t.obs i).sat = (t.recAt t.obs j).sat → i = j) ∧
    (t.code = .ok → ∀ i, i < t.obsN.toNat → (t.recAt t.obs i).time = t.time)

/-- The open choice of 44_epoch_buffer.md R203 (log 7): when the satellite has several records in the epoch, OBS.DWR answers OK and writes one of them,
whichever it is; no other field or record changes (of records beyond the count this is the model's reading, log 11). -/
def Obligations.DirectWriteAmongDuplicatesWritesOne : Prop :=
  ∀ (src : Source) (m : Bool) (fld slot : BitVec 4) (sat : Byte) (i j : Nat) (s : State), s.Inv → s.isOpen = true → fld.toNat ≤ 5 →
    sat ≠ 0 → slot.toNat < s.params.nSlot → s.time = (s.recAt s.obs 0).time →
    i < j → j < s.obsN.toNat → (s.recAt s.obs i).sat = sat → (s.recAt s.obs j).sat = sat →
    let v : DWord := if src = .arg then s.arg1 ++ s.arg0 else s.res1 ++ s.res0
    let missing := m = true ∨ (src = .res ∧ s.fxMissing = true)
    let put (r : SlotRec) : SlotRec :=
      if fld = 0 then { r with p := v } else if fld = 1 then { r with l := v } else if fld = 2 then { r with d := v }
      else if fld = 3 then { r with snr := v.setWidth 16 } else if fld = 4 then { r with lli := v.setWidth 8 }
      else { r with code := v.setWidth 8 }
    ∃ t k, exec (.obsDwr src m fld slot sat) s = .next t ∧ k < s.obsN.toNat ∧ (s.recAt s.obs k).sat = sat ∧
      t = { s with obs := t.obs, freeCount := t.freeCount, code := .ok, cause := .none } ∧
      (∀ x, x ≠ k → s.recAt t.obs x = s.recAt s.obs x) ∧
      let old := s.recAt s.obs k
      (missing → s.recAt t.obs k = old) ∧
      (¬ missing → s.recAt t.obs k = { old with slots := old.slots.set slot.toNat (put (old.slot slot.toNat)) })

/-- 44_epoch_buffer.md R205, R206 and R212: OBS.RD and STG.RD return the field of the record, zero-extended, in every state; ORD_RANGE is tested
before SLOT_RANGE, and both zero RES. Nothing else changes. -/
def Obligations.RecordReadsReturnTheField : Prop :=
  decode 0x64900000#32 = .ok (.obsRd 9#4 0#4 0#8) ∧ decode 0x78A00000#32 = .ok (.stgRd 10#4 0#4 0#8) ∧
  ∀ (fld slot : BitVec 4) (idx : Byte) (s : State), (fld.toNat ≤ 5 ∨ (8 ≤ fld.toNat ∧ fld.toNat ≤ 10 ∧ slot = 0)) →
    let val (r : Rec) : Nat :=
      if fld = 8 then r.sat.toNat else if fld = 9 then r.time.toNat else if fld = 10 then r.tv.toNat
      else if fld = 0 then (r.slot slot.toNat).p.toNat else if fld = 1 then (r.slot slot.toNat).l.toNat
      else if fld = 2 then (r.slot slot.toNat).d.toNat else if fld = 3 then (r.slot slot.toNat).snr.toNat
      else if fld = 4 then (r.slot slot.toNat).lli.toNat else (r.slot slot.toNat).code.toNat
    let reads (arr : List Rec) (n : Nat) (t : State) : Prop :=
      (n ≤ idx.toNat → t = { s with res0 := 0, res1 := 0, code := .error, cause := .ordRange }) ∧
      (idx.toNat < n → fld.toNat ≤ 5 → s.params.nSlot ≤ slot.toNat →
        t = { s with res0 := 0, res1 := 0, code := .error, cause := .slotRange }) ∧
      (idx.toNat < n → (5 < fld.toNat ∨ slot.toNat < s.params.nSlot) →
        t = { s with res0 := t.res0, res1 := t.res1, code := .ok, cause := .none } ∧
        t.res1.toNat * 2 ^ 32 + t.res0.toNat = val (s.recAt arr idx.toNat))
    (∃ t, exec (.obsRd fld slot idx) s = .next t ∧ reads s.obs s.obsN.toNat t) ∧
    (∃ t, exec (.stgRd fld slot idx) s = .next t ∧ reads s.obuf s.stgN.toNat t)

/-- 44_epoch_buffer.md R202, R203 and R206 together: a value written by OBS.DWR with S = 0 and M = 0 is what OBS.RD of that record, slot and field
returns next, truncated to the field's width. -/
def Obligations.DirectWriteThenReadReturnsTheValue : Prop :=
  ∀ (fld slot : BitVec 4) (sat idx : Byte) (s t : State), s.Inv → exec (.obsDwr .arg false fld slot sat) s = .next t → t.code = .ok →
    idx.toNat < t.obsN.toNat → (t.recAt t.obs idx.toNat).sat = sat →
    (∀ j, j < t.obsN.toNat → (t.recAt t.obs j).sat = sat → j = idx.toNat) →
    ∃ u, exec (.obsRd fld slot idx) t = .next u ∧ u.code = .ok ∧
      u.res1.toNat * 2 ^ 32 + u.res0.toNat = (s.arg1.toNat * 2 ^ 32 + s.arg0.toNat) %
        (if fld.toNat ≤ 2 then 2 ^ 64 else if fld = 3 then 2 ^ 16 else 2 ^ 8)

/-- 44_epoch_buffer.md R208 to R210: STG.CNT clears OBUF and sets the count, or reports COUNT_RANGE; STG.SAT sets one satellite and no other field, or reports
ORD_RANGE; STG.CHK compares the count. While CLOSED each is refused. -/
def Obligations.StagingAnnouncesCountsAndSatellites : Prop :=
  decode 0x68000003#32 = .ok (.stgCnt 3#8) ∧ decode 0x6C000308#32 = .ok (.stgSat 3#8 8#8) ∧
  decode 0x70000002#32 = .ok (.stgChk 2#8) ∧
  ∀ (n idx sat : Byte) (s : State),
    let wrong := Host.Outcome.next (φ := Fault) (ρ := Refusal) { s with code := .refused, cause := .wrongState }
    (s.isOpen = false → exec (.stgCnt n) s = wrong ∧ exec (.stgSat idx sat) s = wrong ∧ exec (.stgChk n) s = wrong) ∧
    (s.isOpen = true →
    (s.params.maxObs < n.toNat → exec (.stgCnt n) s = .next { s with code := .error, cause := .countRange }) ∧
    (n.toNat ≤ s.params.maxObs → exec (.stgCnt n) s = .next { s with
      obuf := List.replicate s.params.maxObs (Rec.zero s.params.nSlot), stgN := n, code := .ok, cause := .none }) ∧
    (s.stgN.toNat ≤ idx.toNat → exec (.stgSat idx sat) s = .next { s with code := .error, cause := .ordRange }) ∧
    (idx.toNat < s.stgN.toNat → exec (.stgSat idx sat) s = .next { s with
      obuf := s.obuf.set idx.toNat { s.recAt s.obuf idx.toNat with sat := sat }, code := .ok, cause := .none }) ∧
    (n ≠ s.stgN → exec (.stgChk n) s = .next { s with code := .error, cause := .countMismatch }) ∧
    (n = s.stgN → exec (.stgChk n) s = .next { s with code := .ok, cause := .none }))

/-- 44_epoch_buffer.md R211: STG.WR stamps the ordinal's record with TIME, missing value or not, and writes the field unless the value is missing; ORD_RANGE
is tested before SLOT_RANGE, and neither changes anything. While CLOSED it is refused. -/
def Obligations.StagedWriteStampsTheRecord : Prop :=
  decode 0x74000000#32 = .ok (.stgWr .arg false 0#4 0#4 0#8) ∧
  ∀ (src : Source) (m : Bool) (fld slot : BitVec 4) (idx : Byte) (s : State), fld.toNat ≤ 5 →
    let v : DWord := if src = .arg then s.arg1 ++ s.arg0 else s.res1 ++ s.res0
    let missing := m = true ∨ (src = .res ∧ s.fxMissing = true)
    let put (r : SlotRec) : SlotRec :=
      if fld = 0 then { r with p := v } else if fld = 1 then { r with l := v } else if fld = 2 then { r with d := v }
      else if fld = 3 then { r with snr := v.setWidth 16 } else if fld = 4 then { r with lli := v.setWidth 8 }
      else { r with code := v.setWidth 8 }
    let old := s.recAt s.obuf idx.toNat
    (s.isOpen = false → exec (.stgWr src m fld slot idx) s = .next { s with code := .refused, cause := .wrongState }) ∧
    (s.isOpen = true →
    (s.stgN.toNat ≤ idx.toNat → exec (.stgWr src m fld slot idx) s = .next { s with code := .error, cause := .ordRange }) ∧
    (idx.toNat < s.stgN.toNat → s.params.nSlot ≤ slot.toNat →
      exec (.stgWr src m fld slot idx) s = .next { s with code := .error, cause := .slotRange }) ∧
    (idx.toNat < s.stgN.toNat → slot.toNat < s.params.nSlot → missing → exec (.stgWr src m fld slot idx) s = .next { s with
      obuf := s.obuf.set idx.toNat { old with time := s.timeHi ++ s.timeLo, tv := true }, code := .ok, cause := .none }) ∧
    (idx.toNat < s.stgN.toNat → slot.toNat < s.params.nSlot → ¬ missing → exec (.stgWr src m fld slot idx) s = .next { s with
      obuf := s.obuf.set idx.toNat { old with
        time := s.timeHi ++ s.timeLo, tv := true, slots := old.slots.set slot.toNat (put (old.slot slot.toNat)) },
      code := .ok, cause := .none }))

/-- 44_epoch_buffer.md R213 and R214: FLUSH copies exactly the qualifying staged records, in ordinal order and whole, to the front of OBS and counts
them; with none it leaves OBS; it always clears the staging set. While CLOSED it is refused. That the records of OBS beyond the new
count keep what they held is the model's reading, log 11 (93_implementation_defined.md I20 leaves them any value). -/
def Obligations.FlushCopiesTheQualifyingRecords : Prop :=
  ∀ s : State, (s.isOpen = false → exec .flush s = .next { s with code := .refused, cause := .wrongState }) ∧
    decode 0x7C000000#32 = .ok .flush ∧
    let q := (s.obuf.take s.stgN.toNat).filter fun r => r.sat ≠ 0 ∧ r.tv = true
    (s.isOpen = true → ∃ t, exec .flush s = .next t ∧
      t = { s with obs := t.obs, obsN := t.obsN, obuf := List.replicate s.params.maxObs (Rec.zero s.params.nSlot), stgN := 0,
                   code := if q = [] then .ok else .obsUpdate, cause := .none } ∧
      (q = [] → t.obs = s.obs ∧ t.obsN = s.obsN) ∧
      (q ≠ [] → t.obs.take q.length = q ∧ t.obs.drop q.length = s.obs.drop q.length ∧ t.obsN.toNat = q.length))

/-! ## Continuity tracker -/

/-- 45_continuity.md R240 to R242: LK.UPD on a legal entry returns the slip in RES0 bit 0 and the half-cycle flag in bit 1, updates that entry (the counter only
if one is supplied) and no other; the range errors, in their order, change nothing but STATUS; while CLOSED it is refused. -/
def Obligations.LockUpdateReportsTheSlip : Prop :=
  decode 0x82000005#32 = .ok (.lkUpd true false false 0#4 5#8) ∧
  ∀ (c h hc : Bool) (slot : BitVec 4) (sat : Byte) (s : State), s.Inv →
    let e := lkGet s.lk sat.toNat slot.toNat
    let mis : Int := ((s.timeHi ++ s.timeLo : BitVec 64).toInt - e.t.toInt) -
      ((s.arg0.toNat : Int) - e.cnt.toNat) * s.cfg.lkScale.toNat
    let slip : Prop := e.v = true ∧
      ((c = true ∧ (s.arg0 = 0 ∨ s.arg0.toNat < e.cnt.toNat ∨
          (s.arg0.toNat < s.cfg.lkSat.toNat ∧
            ((s.lkGe = false ∧ mis > s.cfg.lkSlack.toNat) ∨ (s.lkGe = true ∧ mis ≥ s.cfg.lkSlack.toNat))))) ∨
       (h = true ∧ hc ≠ e.hc))
    (s.isOpen = false → exec (.lkUpd c h hc slot sat) s = .next { s with code := .refused, cause := .wrongState }) ∧
    (s.isOpen = true →
    (sat = 0 → exec (.lkUpd c h hc slot sat) s = .next { s with code := .error, cause := .satZero }) ∧
    (s.params.maxSat < sat.toNat → exec (.lkUpd c h hc slot sat) s = .next { s with code := .error, cause := .satRange }) ∧
    (sat ≠ 0 → sat.toNat ≤ s.params.maxSat → s.params.nSlot ≤ slot.toNat →
      exec (.lkUpd c h hc slot sat) s = .next { s with code := .error, cause := .slotRange }) ∧
    (sat ≠ 0 → sat.toNat ≤ s.params.maxSat → slot.toNat < s.params.nSlot → ∃ t, exec (.lkUpd c h hc slot sat) s = .next t ∧
      t = { s with lk := t.lk, res0 := t.res0, res1 := 0, code := .ok, cause := .none } ∧
      (slip → t.res0.toNat = 1 + 2 * hc.toNat) ∧ (¬ slip → t.res0.toNat = 2 * hc.toNat) ∧
      lkGet t.lk sat.toNat slot.toNat =
        { cnt := if c then s.arg0 else e.cnt, t := s.timeHi ++ s.timeLo, hc := hc, v := true } ∧
      ∀ sat' slot', 1 ≤ sat' → (sat' ≠ sat.toNat ∨ slot' ≠ slot.toNat) → lkGet t.lk sat' slot' = lkGet s.lk sat' slot'))

/-- 45_continuity.md R243: LK.RD returns the item of a legal entry in every state; the range errors, in their order, zero RES; nothing else changes. -/
def Obligations.LockReadReturnsTheItem : Prop :=
  decode 0x84200005#32 = .ok (.lkRd 2#4 0#4 5#8) ∧ decode 0x84100005#32 = .ok (.lkRd 1#4 0#4 5#8) ∧
  ∀ (item slot : BitVec 4) (sat : Byte) (s : State), item.toNat ≤ 2 →
    let e := lkGet s.lk sat.toNat slot.toNat
    let v : Nat := if item = 0 then e.cnt.toNat else if item = 1 then e.t.toNat else e.hc.toNat + 2 * e.v.toNat
    (sat = 0 → exec (.lkRd item slot sat) s = .next { s with res0 := 0, res1 := 0, code := .error, cause := .satZero }) ∧
    (s.params.maxSat < sat.toNat → sat ≠ 0 →
      exec (.lkRd item slot sat) s = .next { s with res0 := 0, res1 := 0, code := .error, cause := .satRange }) ∧
    (sat ≠ 0 → sat.toNat ≤ s.params.maxSat → s.params.nSlot ≤ slot.toNat →
      exec (.lkRd item slot sat) s = .next { s with res0 := 0, res1 := 0, code := .error, cause := .slotRange }) ∧
    (sat ≠ 0 → sat.toNat ≤ s.params.maxSat → slot.toNat < s.params.nSlot → ∃ t, exec (.lkRd item slot sat) s = .next t ∧
      t = { s with res0 := t.res0, res1 := t.res1, code := .ok, cause := .none } ∧ t.res1.toNat * 2 ^ 32 + t.res0.toNat = v)

/-- 45_continuity.md R245(b): after an update with a counter, an update of the same entry with a lower counter reports a slip, whatever its time and
whatever other commands left the entry as it was. -/
def Obligations.LowerCounterAlwaysSlips : Prop :=
  ∀ (h hc h' hc' : Bool) (slot : BitVec 4) (sat : Byte) (s t u v : State), s.Inv →
    exec (.lkUpd true h hc slot sat) s = .next t → t.code = .ok →
    lkGet u.lk sat.toNat slot.toNat = lkGet t.lk sat.toNat slot.toNat → u.arg0.toNat < s.arg0.toNat →
    exec (.lkUpd true h' hc' slot sat) u = .next v → v.code = .ok → v.res0.toNat % 2 = 1

/-! ## Fields of the configuration -/

/-- 10_state.md R37 to R46: each field of the configuration that the rules name is the slice of its CFG register that its rule gives, with the
tables of LEN_ENC (R39) and CK_ALG (R40). -/
def Obligations.ConfigurationFieldsAreTheirBits : Prop :=
  ∀ s : State,
    let w (off : Nat) : Nat := (s.busRead off 32).toNat
    s.syncLen = w 0x080 % 2 ^ 3 ∧
    s.pattern.map BitVec.toNat =
      [w 0x084 % 2 ^ 8, w 0x084 / 2 ^ 8 % 2 ^ 8, w 0x084 / 2 ^ 16 % 2 ^ 8, w 0x084 / 2 ^ 24, w 0x088 % 2 ^ 8] ∧
    s.hdrLen = w 0x08C % 2 ^ 16 ∧ s.lenOff = w 0x08C / 2 ^ 16 ∧
    s.lenEnc = w 0x090 % 2 ^ 3 ∧ [0, 1, 2, 3, 4].map lenWidth = [2, 2, 4, 4, 3] ∧
    s.ckAlg = (match w 0x094 % 2 ^ 3 with
      | 1 => some .rotxor | 2 => some .xor | 3 => some .add8 | 4 => some .crc32 | 5 => some .crc24q | _ => none) ∧
    s.trl = (match w 0x094 % 2 ^ 3 with | 1 => 1 | 2 => 1 | 3 => 1 | 4 => 4 | 5 => 3 | _ => 0) ∧
    s.ckIncl.toNat = w 0x094 / 2 ^ 3 % 2 ∧ s.ckRotf.toNat = w 0x094 / 2 ^ 4 % 2 ∧ s.ckStart = w 0x094 / 2 ^ 16 ∧
    s.cfg.crc32Init = s.busRead 0x098 32 ∧ s.cfg.crc32Xorout = s.busRead 0x09C 32 ∧
    s.typeOff = w 0x0A0 % 2 ^ 16 ∧ s.typeW = w 0x0A0 / 2 ^ 16 % 2 ^ 3 ∧
    s.typeEndian = (if w 0x0A0 / 2 ^ 19 % 2 = 1 then .big else .little) ∧ s.tfEn.toNat = w 0x0A0 / 2 ^ 20 % 2 ∧
    s.frameMax = w 0x0A4 % 2 ^ 16 ∧
    s.lkGe.toNat = w 0x0A8 % 2 ∧ s.cfg.lkScale = s.busRead 0x0AC 32 ∧ s.cfg.lkSlack = s.busRead 0x0B0 32 ∧
    s.cfg.lkSat = s.busRead 0x0B4 32 ∧ s.cfg.sentLo = s.busRead 0x0B8 32 ∧ s.cfg.sentHi = s.busRead 0x0BC 32 ∧
    ∀ j, j < 16 → (s.tfValid j).toNat = w 0x0C0 / 2 ^ j % 2 ∧ s.tfType j = s.busRead (0x100 + 4 * j) 32
end

