-- ==== Sys2Proof/Laws/Checksum.lean ====
section
/-! SUPPORT. What the checksum algorithms do: byte strings one after another, the width of the accumulator, and that a step
loses nothing of the accumulator or of the byte. -/

namespace Sys2Proof.Machine

@[simp] theorem Alg.run_nil (a : Alg) (acc : Word) : a.run acc [] = acc := rfl
@[simp] theorem Alg.run_cons (a : Alg) (acc : Word) (b : Byte) (bs : List Byte) : a.run acc (b :: bs) = a.run (a.step acc b) bs := rfl
theorem Alg.run_append (a : Alg) (acc : Word) (xs ys : List Byte) : a.run acc (xs ++ ys) = a.run (a.run acc xs) ys :=
  List.foldl_append

@[simp] theorem Alg.serialize_length (a : Alg) (v : Word) : (a.serialize v).length = a.trl := by cases a <;> rfl

/-- An algorithm has a number of its own (10_state.md R40). -/
@[simp] theorem Alg.ofBits_bits (a : Alg) : Alg.ofBits a.bits = some a := by cases a <;> rfl

theorem Alg.ofBits_isSome {b : BitVec 3} (h : algLegal b = true) : ∃ a, Alg.ofBits b = some a ∧ a.bits = b := by
  revert b; decide

/-- Equal after the same XOR, equal before. -/
theorem xor_cancel_right {n : Nat} {x y z : BitVec n} (h : x ^^^ z = y ^^^ z) : x = y := by
  have := congrArg (fun w => w ^^^ z) h
  simpa [BitVec.xor_assoc] using this

theorem xor_cancel_left {n : Nat} {x y z : BitVec n} (h : z ^^^ x = z ^^^ y) : x = y :=
  xor_cancel_right (z := z) (by rw [BitVec.xor_comm x, BitVec.xor_comm y, h])

/-! ## CRC-32 -/

/-- One bit of CRC-32 on words that differ, or not, in the lowest bit. -/
theorem crc32Bit_injective {x y : Word} (h : crc32Bit x = crc32Bit y) : x = y := by
  have key : ∀ z : Word, (crc32Bit z).getLsbD 31 = z.getLsbD 0 := fun z => by
    unfold crc32Bit
    by_cases hz : z.getLsbD 0 = true
    · rw [if_pos hz, BitVec.getLsbD_xor, BitVec.getLsbD_ushiftRight, hz]; simp
    · rw [if_neg hz, BitVec.getLsbD_ushiftRight]; simpa using hz
  have h0 : x.getLsbD 0 = y.getLsbD 0 := by rw [← key x, ← key y, h]
  have hs : x >>> 1 = y >>> 1 := by
    unfold crc32Bit at h
    rw [h0] at h
    split at h
    · exact xor_cancel_right h
    · exact h
  apply BitVec.eq_of_getLsbD_eq
  intro i hi
  rcases i with _ | i
  · exact h0
  · have := congrArg (fun z : Word => z.getLsbD i) hs
    simpa [BitVec.getLsbD_ushiftRight, Nat.add_comm] using this

/-! ## CRC-24Q -/

theorem toNat_lt_of_getLsbD {x : Word} {n : Nat} (h : ∀ i, n ≤ i → x.getLsbD i = false) : x.toNat < 2 ^ n :=
  Nat.lt_pow_two_of_testBit _ fun i hi => by simpa [BitVec.getLsbD] using h i hi

theorem getLsbD_of_toNat_lt {x : Word} {n i : Nat} (h : x.toNat < 2 ^ n) (hi : n ≤ i) : x.getLsbD i = false :=
  Nat.testBit_lt_two_pow (lt_of_lt_of_le h (Nat.pow_le_pow_right (by omega) hi))

/-- The bits of one bit of CRC-24Q. -/
theorem crc24qBit_getLsbD (x : Word) (i : Nat) : (crc24qBit x).getLsbD i =
    ((decide (1 ≤ i) && decide (i < 32) && x.getLsbD (i - 1)) ^^ (x.getLsbD 23 && (0x1864CFB#32).getLsbD i)) := by
  have h24 : (x <<< 1).getLsbD 24 = x.getLsbD 23 := by simp
  unfold crc24qBit
  rw [h24]
  cases hx : x.getLsbD 23
  · rcases i with _ | i <;> simp [BitVec.getLsbD_shiftLeft, Bool.and_comm]
  · rcases i with _ | i <;> simp [BitVec.getLsbD_shiftLeft, BitVec.getLsbD_xor, Bool.and_comm]

/-- One bit of CRC-24Q keeps the 24-bit width. -/
theorem crc24qBit_lt {x : Word} (h : x.toNat < 2 ^ 24) : (crc24qBit x).toNat < 2 ^ 24 := by
  apply toNat_lt_of_getLsbD
  intro i hi
  rw [crc24qBit_getLsbD]
  rcases Nat.lt_or_ge i 25 with h1 | h1
  · have : i = 24 := by omega
    subst this
    simp
  · rw [getLsbD_of_toNat_lt h (by omega)]
    have : (0x1864CFB#32).getLsbD i = false := getLsbD_of_toNat_lt (n := 25) (by decide) h1
    simp [this]

/-- One bit of CRC-24Q loses nothing of a 24-bit word. -/
theorem crc24qBit_injective {x y : Word} (hx : x.toNat < 2 ^ 24) (hy : y.toNat < 2 ^ 24) (h : crc24qBit x = crc24qBit y) : x = y := by
  have key : ∀ z : Word, (crc24qBit z).getLsbD 0 = z.getLsbD 23 := fun z => by rw [crc24qBit_getLsbD]; simp
  have h0 : x.getLsbD 23 = y.getLsbD 23 := by rw [← key x, ← key y, h]
  apply BitVec.eq_of_getLsbD_eq
  intro i _
  rcases Nat.lt_or_ge i 24 with h1 | h1
  · have := congrArg (fun z : Word => z.getLsbD (i + 1)) h
    simp only [crc24qBit_getLsbD, h0, Nat.add_sub_cancel, Bool.xor_left_inj] at this
    simpa [show i + 1 < 32 by omega] using this
  · rw [getLsbD_of_toNat_lt hx h1, getLsbD_of_toNat_lt hy h1]

/-! ## Repeated bits -/

theorem repeatN_injective {f : Word → Word} (hf : ∀ x y, f x = f y → x = y) (n : Nat) : ∀ x y, repeatN f n x = repeatN f n y → x = y := by
  induction n with
  | zero => intro x y h; exact h
  | succ n ih => intro x y h; exact hf _ _ (ih _ _ h)

theorem repeatN_lt {f : Word → Word} {m : Nat} (hf : ∀ x, x.toNat < m → (f x).toNat < m) (n : Nat) :
    ∀ x, x.toNat < m → (repeatN f n x).toNat < m := by
  induction n with
  | zero => intro x h; exact h
  | succ n ih => intro x h; exact ih _ (hf x h)

theorem repeatN_injective_below {f : Word → Word} {m : Nat} (hw : ∀ x, x.toNat < m → (f x).toNat < m)
    (hf : ∀ x y, x.toNat < m → y.toNat < m → f x = f y → x = y) (n : Nat) :
    ∀ x y, x.toNat < m → y.toNat < m → repeatN f n x = repeatN f n y → x = y := by
  induction n with
  | zero => intro x y _ _ h; exact h
  | succ n ih => intro x y hx hy h; exact hf _ _ hx hy (ih _ _ (hw x hx) (hw y hy) h)

/-! ## The byte step -/

/-- CRC-24Q's byte enters below bit 24. -/
theorem crc24q_entry_lt {acc : Word} (h : acc.toNat < 2 ^ 24) (b : Byte) : (acc ^^^ (b.setWidth 32 <<< 16)).toNat < 2 ^ 24 := by
  apply toNat_lt_of_getLsbD
  intro i hi
  rw [BitVec.getLsbD_xor, getLsbD_of_toNat_lt h hi, BitVec.getLsbD_shiftLeft, BitVec.getLsbD_setWidth,
    BitVec.getLsbD_of_ge b (i - 16) (by omega)]
  simp

theorem and_mask24 {x : Word} (h : x.toNat < 2 ^ 24) : x &&& 0xFFFFFF#32 = x := by
  apply BitVec.eq_of_toNat_eq
  rw [BitVec.toNat_and, show (0xFFFFFF#32).toNat = 2 ^ 24 - 1 from rfl, Nat.and_two_pow_sub_one_eq_mod, Nat.mod_eq_of_lt h]

/-- CRC-24Q's byte step on a 24-bit accumulator: the mask changes nothing. -/
theorem crc24q_step_eq {acc : Word} (h : acc.toNat < 2 ^ 24) (b : Byte) :
    Alg.step .crc24q acc b = repeatN crc24qBit 8 (acc ^^^ (b.setWidth 32 <<< 16)) :=
  and_mask24 (repeatN_lt (fun _ => crc24qBit_lt) 8 _ (crc24q_entry_lt h b))

/-- A byte step keeps the accumulator in the width of its algorithm (10_state.md R50). -/
theorem accOk_step (a : Alg) (acc : Word) (b : Byte) : accOk (some a) (a.step acc b) := by
  cases a
  · simp only [accOk, Alg.step, BitVec.toNat_setWidth]; omega
  · simp only [accOk, Alg.step, BitVec.toNat_setWidth]; omega
  · simp only [accOk, Alg.step, BitVec.toNat_setWidth]; omega
  · trivial
  · show (_ &&& 0xFFFFFF#32).toNat < 2 ^ 24
    rw [BitVec.toNat_and, show (0xFFFFFF#32).toNat = 2 ^ 24 - 1 from rfl, Nat.and_two_pow_sub_one_eq_mod]
    exact Nat.mod_lt _ (by decide)

theorem accOk_init (a : Alg) (w : Word) : accOk (some a) (a.init w) := by
  cases a <;> simp [accOk, Alg.init]

theorem accOk_run (a : Alg) (bs : List Byte) : ∀ acc, accOk (some a) acc → accOk (some a) (a.run acc bs) := by
  induction bs with
  | nil => intro acc h; exact h
  | cons b bs ih => intro acc _; exact ih _ (accOk_step a acc b)

theorem low8_injective {x y : Word} (hx : x.toNat < 2 ^ 8) (hy : y.toNat < 2 ^ 8) (h : low8 x = low8 y) : x = y := by
  have := congrArg BitVec.toNat h
  simp only [low8, BitVec.toNat_setWidth] at this
  exact BitVec.eq_of_toNat_eq (by omega)

theorem setWidth32_injective {x y : Byte} (h : x.setWidth 32 = y.setWidth 32) : x = y := by
  have := congrArg BitVec.toNat h
  simp only [BitVec.toNat_setWidth] at this
  have := x.isLt
  have := y.isLt
  exact BitVec.eq_of_toNat_eq (by omega)

theorem rotl8_two_injective : ∀ x y : Byte, rotl8 x 2 = rotl8 y 2 → x = y := by
  intro x y h
  have h2 : ∀ z : Byte, rotl8 (rotl8 z 2) 6 = z := by decide
  rw [← h2 x, ← h2 y, h]

/-- A byte step loses nothing of the accumulator: from different accumulators the same byte gives different ones. -/
theorem Alg.step_injective_acc (a : Alg) {x y : Word} (b : Byte) (hx : accOk (some a) x) (hy : accOk (some a) y)
    (h : a.step x b = a.step y b) : x = y := by
  cases a
  · exact low8_injective hx hy (rotl8_two_injective _ _ (xor_cancel_right (setWidth32_injective h)))
  · exact low8_injective hx hy (xor_cancel_right (setWidth32_injective h))
  · exact low8_injective hx hy (BitVec.add_left_inj _ |>.mp (setWidth32_injective h))
  · exact xor_cancel_right (repeatN_injective (fun _ _ => crc32Bit_injective) 8 _ _ h)
  · rw [crc24q_step_eq hx, crc24q_step_eq hy] at h
    exact xor_cancel_right (repeatN_injective_below (fun _ => crc24qBit_lt) (fun _ _ => crc24qBit_injective) 8 _ _
      (crc24q_entry_lt hx b) (crc24q_entry_lt hy b) h)

/-- A byte step loses nothing of the byte: different bytes give different accumulators. -/
theorem Alg.step_injective_byte (a : Alg) {acc : Word} {b c : Byte} (hacc : accOk (some a) acc) (h : a.step acc b = a.step acc c) : b = c := by
  cases a
  · exact xor_cancel_left (setWidth32_injective h)
  · exact xor_cancel_left (setWidth32_injective h)
  · exact BitVec.add_right_inj _ |>.mp (setWidth32_injective h)
  · exact setWidth32_injective (xor_cancel_left (repeatN_injective (fun _ _ => crc32Bit_injective) 8 _ _ h))
  · rw [crc24q_step_eq hacc, crc24q_step_eq hacc] at h
    have := xor_cancel_left (repeatN_injective_below (fun _ => crc24qBit_lt) (fun _ _ => crc24qBit_injective) 8 _ _
      (crc24q_entry_lt hacc b) (crc24q_entry_lt hacc c) h)
    apply BitVec.eq_of_getLsbD_eq
    intro i hi
    have hb := congrArg (fun z : Word => z.getLsbD (i + 16)) this
    simpa [BitVec.getLsbD_shiftLeft, show i + 16 < 32 by omega, show i < 32 by omega] using hb

/-- A byte string loses nothing of the accumulator. -/
theorem Alg.run_injective_acc (a : Alg) (bs : List Byte) : ∀ {x y : Word}, accOk (some a) x → accOk (some a) y →
    a.run x bs = a.run y bs → x = y := by
  induction bs with
  | nil => intro x y _ _ h; exact h
  | cons b bs ih =>
    intro x y hx hy h
    exact a.step_injective_acc b hx hy (ih (accOk_step a x b) (accOk_step a y b) h)

/-! ## The steps on numbers -/

/-- One bit of CRC-32 on numbers (42_checksum.md R154). -/
theorem crc32Bit_toNat (x : Word) : (crc32Bit x).toNat = if x.toNat % 2 = 1 then (x.toNat / 2) ^^^ 0xEDB88320 else x.toNat / 2 := by
  have : x.getLsbD 0 = true ↔ x.toNat % 2 = 1 := by simp [BitVec.getLsbD, Nat.testBit_zero]
  unfold crc32Bit
  by_cases h : x.getLsbD 0 = true
  · rw [if_pos h, if_pos (this.1 h), BitVec.toNat_xor, BitVec.toNat_ushiftRight]; rfl
  · rw [if_neg h, if_neg (fun c => h (this.2 c)), BitVec.toNat_ushiftRight]; rfl

/-- One bit of CRC-24Q on numbers (42_checksum.md R155). -/
theorem crc24qBit_toNat {x : Word} (hx : x.toNat < 2 ^ 24) :
    (crc24qBit x).toNat = if x.toNat * 2 / 2 ^ 24 % 2 = 1 then (x.toNat * 2) ^^^ 0x1864CFB else x.toNat * 2 := by
  have hs : (x <<< 1).toNat = x.toNat * 2 := by
    rw [BitVec.toNat_shiftLeft, Nat.shiftLeft_eq]; omega
  have : (x <<< 1).getLsbD 24 = true ↔ x.toNat * 2 / 2 ^ 24 % 2 = 1 := by
    rw [BitVec.getLsbD, hs, Nat.testBit_eq_decide_div_mod_eq]; simp
  unfold crc24qBit
  by_cases h : (x <<< 1).getLsbD 24 = true
  · rw [if_pos h, if_pos (this.1 h), BitVec.toNat_xor, hs]; rfl
  · rw [if_neg h, if_neg (fun c => h (this.2 c)), hs]

/-- A rotation by two on numbers (00_scope.md R8). -/
theorem rotl8_toNat (x : Byte) : (rotl8 x 2).toNat = x.toNat * 2 ^ 2 % 2 ^ 8 + x.toNat / 2 ^ 6 := by
  revert x; decide

/-- Repeating a function on words is repeating on numbers what it does to them, under a condition it keeps. -/
theorem repeatN_toNat {f : Word → Word} {g : Nat → Nat} {P : Word → Prop} (hp : ∀ x, P x → P (f x))
    (hf : ∀ x, P x → (f x).toNat = g x.toNat) (n : Nat) : ∀ x, P x → (repeatN f n x).toNat = g^[n] x.toNat := by
  induction n with
  | zero => intro x _; rfl
  | succ n ih => intro x hx; rw [repeatN, ih _ (hp x hx), hf x hx]; rfl

end Sys2Proof.Machine
end

