-- ==== Sys2Proof/Laws/Memory.lean ====
section
/-! SUPPORT. What the operations on BUF do: a read after a write, and the canonical form they keep. -/

namespace Sys2Proof.Machine

@[simp] theorem Memory.read_nil (a : Nat) : Memory.read [] a = 0 := rfl

theorem Memory.read_consCell_self (a : Nat) (b : Byte) (m : Memory) (h : Memory.read m a = 0) :
    Memory.read (Memory.consCell a b m) a = b := by
  unfold Memory.consCell
  split
  · next hb => rw [h, hb]; rfl
  · simp [Memory.read]

theorem Memory.read_consCell_other (a a' : Nat) (b : Byte) (m : Memory) (h : a' ≠ a) :
    Memory.read (Memory.consCell a b m) a' = Memory.read m a' := by
  unfold Memory.consCell
  split
  · rfl
  · simp [Memory.read, h]

/-- An address below every listed one reads as unlisted. -/
theorem Memory.read_below {m : Memory} : ∀ {lo a : Nat}, Memory.wfFrom lo m = true → a < lo → Memory.read m a = 0 := by
  induction m with
  | nil => intros; rfl
  | cons c rest ih =>
    intro lo a h ha
    obtain ⟨k, v⟩ := c
    simp only [Memory.wfFrom, Bool.and_eq_true, decide_eq_true_eq] at h
    simp only [Memory.read, if_neg (show a ≠ k by omega)]
    exact ih h.2 (by omega)

theorem Memory.wfFrom_mono {m : Memory} {lo lo' : Nat} (h : Memory.wfFrom lo m = true) (hl : lo' ≤ lo) :
    Memory.wfFrom lo' m = true := by
  cases m with
  | nil => rfl
  | cons c rest =>
    obtain ⟨k, v⟩ := c
    simp only [Memory.wfFrom, Bool.and_eq_true, decide_eq_true_eq] at h ⊢
    exact ⟨⟨by omega, h.1.2⟩, h.2⟩

theorem Memory.wfFrom_consCell {m : Memory} {a lo : Nat} {b : Byte} (h : Memory.wfFrom (a + 1) m = true) (hl : lo ≤ a) :
    Memory.wfFrom lo (Memory.consCell a b m) = true := by
  unfold Memory.consCell
  split
  · exact Memory.wfFrom_mono h (by omega)
  · next hb =>
    simp only [Memory.wfFrom, Bool.and_eq_true, decide_eq_true_eq]
    exact ⟨⟨hl, hb⟩, h⟩

theorem Memory.wfFrom_write {m : Memory} : ∀ {lo a : Nat} {b : Byte}, Memory.wfFrom lo m = true → lo ≤ a →
    Memory.wfFrom lo (Memory.write m a b) = true := by
  induction m with
  | nil => intro lo a b _ hl; exact Memory.wfFrom_consCell rfl hl
  | cons c rest ih =>
    intro lo a b h hl
    obtain ⟨k, v⟩ := c
    simp only [Memory.wfFrom, Bool.and_eq_true, decide_eq_true_eq] at h
    unfold Memory.write
    split
    · next hk =>
      refine Memory.wfFrom_consCell ?_ hl
      simp only [Memory.wfFrom, Bool.and_eq_true, decide_eq_true_eq]
      exact ⟨⟨by omega, h.1.2⟩, h.2⟩
    · split
      · next hk => subst hk; exact Memory.wfFrom_consCell h.2 hl
      · simp only [Memory.wfFrom, Bool.and_eq_true, decide_eq_true_eq]
        exact ⟨h.1, ih h.2 (by omega)⟩

/-- A write keeps the canonical form. -/
theorem Memory.wf_write {m : Memory} (a : Nat) (b : Byte) (h : Memory.wf m = true) :
    Memory.wf (Memory.write m a b) = true := Memory.wfFrom_write h (Nat.zero_le a)

/-- A read after a write to another address gives what it gave. -/
theorem Memory.read_write_other (m : Memory) {a a' : Nat} (b : Byte) (h : a' ≠ a) :
    Memory.read (Memory.write m a b) a' = Memory.read m a' := by
  induction m with
  | nil => exact Memory.read_consCell_other a a' b [] h
  | cons c rest ih =>
    obtain ⟨k, v⟩ := c
    unfold Memory.write
    split
    · exact Memory.read_consCell_other a a' b _ h
    · split
      · next hk =>
        subst hk
        rw [Memory.read_consCell_other a a' b rest h]
        simp [Memory.read, h]
      · simp only [Memory.read, ih]

theorem Memory.read_writeFrom_same {m : Memory} : ∀ {lo : Nat} (a : Nat) (b : Byte), Memory.wfFrom lo m = true →
    Memory.read (Memory.write m a b) a = b := by
  induction m with
  | nil => intro lo a b _; exact Memory.read_consCell_self a b [] rfl
  | cons c rest ih =>
    intro lo a b h
    obtain ⟨k, v⟩ := c
    simp only [Memory.wfFrom, Bool.and_eq_true, decide_eq_true_eq] at h
    unfold Memory.write
    split
    · next hk =>
      refine Memory.read_consCell_self a b _ ?_
      simp only [Memory.read, if_neg (show a ≠ k by omega)]
      exact Memory.read_below h.2 (by omega)
    · split
      · next hk => subst hk; exact Memory.read_consCell_self a b rest (Memory.read_below h.2 (by omega))
      · next h1 h2 =>
        simp only [Memory.read, if_neg h2]
        exact ih a b h.2

/-- A read after a write to the same address gives the value written. -/
theorem Memory.read_write_same {m : Memory} (a : Nat) (b : Byte) (h : Memory.wf m = true) :
    Memory.read (Memory.write m a b) a = b := Memory.read_writeFrom_same a b h

theorem Memory.below_consCell {n a : Nat} {b : Byte} {m : Memory} (hm : Memory.below n m = true) (ha : a < n) :
    Memory.below n (Memory.consCell a b m) = true := by
  unfold Memory.consCell
  split
  · exact hm
  · simp only [Memory.below, List.all_cons, Bool.and_eq_true, decide_eq_true_eq] at hm ⊢
    exact ⟨ha, hm⟩

/-- A write below a bound keeps every listed address below it. -/
theorem Memory.below_write {n : Nat} {m : Memory} {a : Nat} (b : Byte) (hm : Memory.below n m = true) (ha : a < n) :
    Memory.below n (Memory.write m a b) = true := by
  induction m with
  | nil => exact Memory.below_consCell rfl ha
  | cons c rest ih =>
    obtain ⟨k, v⟩ := c
    have h' := hm
    simp only [Memory.below, List.all_cons, Bool.and_eq_true, decide_eq_true_eq] at hm
    unfold Memory.write
    split
    · exact Memory.below_consCell h' ha
    · split
      · exact Memory.below_consCell hm.2 ha
      · simp only [Memory.below, List.all_cons, Bool.and_eq_true, decide_eq_true_eq]
        exact ⟨hm.1, ih hm.2⟩

theorem Memory.wf_writeList {bs : List Byte} : ∀ {m : Memory} (a : Nat), Memory.wf m = true →
    Memory.wf (Memory.writeList m a bs) = true := by
  induction bs with
  | nil => intro m a h; exact h
  | cons b bs ih => intro m a h; exact ih (a + 1) (Memory.wf_write a b h)

theorem Memory.below_writeList {n : Nat} {bs : List Byte} : ∀ {m : Memory} {a : Nat}, Memory.below n m = true →
    a + bs.length ≤ n → Memory.below n (Memory.writeList m a bs) = true := by
  induction bs with
  | nil => intro m a h _; exact h
  | cons b bs ih =>
    intro m a h hl
    simp only [List.length_cons] at hl
    exact ih (Memory.below_write b h (by omega)) (by omega)

/-- Writing a byte string leaves every address outside it. -/
theorem Memory.read_writeList_outside {bs : List Byte} : ∀ (m : Memory) {a x : Nat}, x < a ∨ a + bs.length ≤ x →
    Memory.read (Memory.writeList m a bs) x = Memory.read m x := by
  induction bs with
  | nil => intro m a x _; rfl
  | cons b bs ih =>
    intro m a x h
    simp only [List.length_cons] at h
    rw [Memory.writeList, ih (Memory.write m a b) (by omega), Memory.read_write_other m b (by omega)]

/-- A byte string reads back. -/
theorem Memory.read_writeList_inside {bs : List Byte} : ∀ {m : Memory} {a : Nat} (i : Nat), Memory.wf m = true →
    (hi : i < bs.length) → Memory.read (Memory.writeList m a bs) (a + i) = bs[i] := by
  induction bs with
  | nil => intro m a i _ hi; exact absurd hi (by simp)
  | cons b bs ih =>
    intro m a i h hi
    cases i with
    | zero =>
      rw [Memory.writeList, Memory.read_writeList_outside _ (by omega)]
      exact Memory.read_write_same a b h
    | succ i =>
      have := ih (m := Memory.write m a b) (a := a + 1) i (Memory.wf_write a b h) (by simpa using hi)
      rw [show a + (i + 1) = a + 1 + i by omega]
      simpa [Memory.writeList] using this

@[simp] theorem Memory.slice_length (m : Memory) (a n : Nat) : (Memory.slice m a n).length = n := by
  simp [Memory.slice]

theorem Memory.slice_getElem (m : Memory) (a n i : Nat) (h : i < n) :
    (Memory.slice m a n)[i]'(by simpa using h) = Memory.read m (a + i) := by
  simp [Memory.slice]

/-- A slice depends only on the bytes it covers. -/
theorem Memory.slice_congr {m m' : Memory} {a n : Nat} (h : ∀ i, i < n → Memory.read m' (a + i) = Memory.read m (a + i)) :
    Memory.slice m' a n = Memory.slice m a n := by
  unfold Memory.slice
  exact List.map_congr_left fun i hi => h i (List.mem_range.mp hi)

end Sys2Proof.Machine
end

