-- ==== Sys2Proof/Laws/Operands.lean ====
section
/-! SUPPORT. The values of byte strings and of the length field, as the spec writes them. -/

namespace Sys2Proof.Machine

theorem leNat_append (xs ys : List Byte) : leNat (xs ++ ys) = leNat xs + 256 ^ xs.length * leNat ys := by
  induction xs with
  | nil => simp [leNat]
  | cons b xs ih => simp only [List.cons_append, leNat, ih, List.length_cons, pow_succ]; ring

theorem leNat_lt (bs : List Byte) : leNat bs < 256 ^ bs.length := by
  induction bs with
  | nil => simp [leNat]
  | cons b bs ih =>
    have := b.isLt
    simp only [leNat, List.length_cons, pow_succ]
    omega

theorem bytesNat_lt (e : Endian) (bs : List Byte) : bytesNat e bs < 256 ^ bs.length := by
  cases e
  · exact leNat_lt bs
  · have := leNat_lt bs.reverse
    rwa [List.length_reverse] at this

theorem leNat_eq_sum (bs : List Byte) : leNat bs = bytesSum .little bs := by
  induction bs with
  | nil => rfl
  | cons b bs ih =>
    rw [leNat, ih]
    simp only [bytesSum, List.length_cons, List.range_succ_eq_map, List.map_cons, List.map_map, List.sum_cons, List.getD_cons_zero,
      Nat.mul_zero, Nat.pow_zero, Nat.mul_one]
    congr 1
    rw [← List.sum_map_mul_left]
    congr 1
    apply List.map_congr_left
    intro i _
    simp only [Function.comp, List.getD_cons_succ]
    rw [show 8 * (i + 1) = 8 * i + 8 by omega, pow_add]; ring

theorem leNat_reverse_eq_sum (bs : List Byte) : leNat bs.reverse = bytesSum .big bs := by
  induction bs with
  | nil => rfl
  | cons b bs ih =>
    rw [List.reverse_cons, leNat_append, ih]
    simp only [bytesSum, List.length_cons, List.range_succ_eq_map, List.map_cons, List.map_map, List.sum_cons, List.getD_cons_zero,
      List.length_reverse, leNat]
    rw [show 8 * (bs.length + 1 - 1 - 0) = 8 * bs.length by omega, show (256 : Nat) = 2 ^ 8 by norm_num, ← pow_mul]
    rw [Nat.add_comm, Nat.mul_zero, Nat.add_zero, Nat.mul_comm]
    congr 1
    congr 1
    apply List.map_congr_left
    intro i _
    simp only [Function.comp, List.getD_cons_succ]
    congr 2
    omega

/-- The value of a byte string is the sum of 43_field_codec.md R182. -/
theorem bytesNat_eq_sum (e : Endian) (bs : List Byte) : bytesNat e bs = bytesSum e bs := by
  cases e
  · exact leNat_eq_sum bs
  · exact leNat_reverse_eq_sum bs

/-- The decoded length is that of the table of 10_state.md R39. -/
theorem lenValue_eq_table {enc : Nat} {bs : List Byte} (he : enc ≤ 4) (hl : bs.length = lenWidth enc) :
    lenValue enc bs = lengthTable enc bs := by
  rcases (show enc = 0 ∨ enc = 1 ∨ enc = 2 ∨ enc = 3 ∨ enc = 4 by omega) with rfl | rfl | rfl | rfl | rfl
  · match bs, hl with
    | [b0, b1], _ => simp [lenValue, lengthTable, bytesNat, leNat]
  · match bs, hl with
    | [b0, b1], _ => simp [lenValue, lengthTable, bytesNat, leNat]; omega
  · match bs, hl with
    | [b0, b1, b2, b3], _ => simp [lenValue, lengthTable, bytesNat, leNat]; omega
  · match bs, hl with
    | [b0, b1, b2, b3], _ => simp [lenValue, lengthTable, bytesNat, leNat]; omega
  · match bs, hl with
    | [b0, b1, b2], _ => rfl

end Sys2Proof.Machine
end

