-- ==== Sys2Proof/Laws/State.lean ====
section
/-! SUPPORT. One lemma per field per named update of State, each true by rfl, so that no proof unfolds a record update. -/

namespace Sys2Proof.Machine

@[simp] theorem State.finishOk_eq (s : State) : s.finishOk = s.finish .ok .none := rfl
@[simp] theorem State.raiseError_eq (s : State) (k : Cause) : s.raiseError k = s.finish .error k := rfl
@[simp] theorem State.raiseRefused_eq (s : State) (k : Cause) : s.raiseRefused k = s.finish .refused k := rfl

/-! ## finish -/

@[simp] theorem State.finish_params (s : State) (c : Code) (k : Cause) : (s.finish c k).params = s.params := rfl
@[simp] theorem State.finish_arg0 (s : State) (c : Code) (k : Cause) : (s.finish c k).arg0 = s.arg0 := rfl
@[simp] theorem State.finish_arg1 (s : State) (c : Code) (k : Cause) : (s.finish c k).arg1 = s.arg1 := rfl
@[simp] theorem State.finish_res0 (s : State) (c : Code) (k : Cause) : (s.finish c k).res0 = s.res0 := rfl
@[simp] theorem State.finish_res1 (s : State) (c : Code) (k : Cause) : (s.finish c k).res1 = s.res1 := rfl
@[simp] theorem State.finish_code (s : State) (c : Code) (k : Cause) : (s.finish c k).code = c := rfl
@[simp] theorem State.finish_cause (s : State) (c : Code) (k : Cause) : (s.finish c k).cause = k := rfl
@[simp] theorem State.finish_isOpen (s : State) (c : Code) (k : Cause) : (s.finish c k).isOpen = s.isOpen := rfl
@[simp] theorem State.finish_sstate (s : State) (c : Code) (k : Cause) : (s.finish c k).sstate = s.sstate := rfl
@[simp] theorem State.finish_werr (s : State) (c : Code) (k : Cause) : (s.finish c k).werr = s.werr := rfl
@[simp] theorem State.finish_fxMissing (s : State) (c : Code) (k : Cause) : (s.finish c k).fxMissing = s.fxMissing := rfl
@[simp] theorem State.finish_fxNan (s : State) (c : Code) (k : Cause) : (s.finish c k).fxNan = s.fxNan := rfl
@[simp] theorem State.finish_nbyte (s : State) (c : Code) (k : Cause) : (s.finish c k).nbyte = s.nbyte := rfl
@[simp] theorem State.finish_flen (s : State) (c : Code) (k : Cause) : (s.finish c k).flen = s.flen := rfl
@[simp] theorem State.finish_ftype (s : State) (c : Code) (k : Cause) : (s.finish c k).ftype = s.ftype := rfl
@[simp] theorem State.finish_fdecIdx (s : State) (c : Code) (k : Cause) : (s.finish c k).fdecIdx = s.fdecIdx := rfl
@[simp] theorem State.finish_fdecHit (s : State) (c : Code) (k : Cause) : (s.finish c k).fdecHit = s.fdecHit := rfl
@[simp] theorem State.finish_obsN (s : State) (c : Code) (k : Cause) : (s.finish c k).obsN = s.obsN := rfl
@[simp] theorem State.finish_stgN (s : State) (c : Code) (k : Cause) : (s.finish c k).stgN = s.stgN := rfl
@[simp] theorem State.finish_timeLo (s : State) (c : Code) (k : Cause) : (s.finish c k).timeLo = s.timeLo := rfl
@[simp] theorem State.finish_timeHi (s : State) (c : Code) (k : Cause) : (s.finish c k).timeHi = s.timeHi := rfl
@[simp] theorem State.finish_cka (s : State) (c : Code) (k : Cause) : (s.finish c k).cka = s.cka := rfl
@[simp] theorem State.finish_ckf (s : State) (c : Code) (k : Cause) : (s.finish c k).ckf = s.ckf := rfl
@[simp] theorem State.finish_acc (s : State) (c : Code) (k : Cause) : (s.finish c k).acc = s.acc := rfl
@[simp] theorem State.finish_cfg (s : State) (c : Code) (k : Cause) : (s.finish c k).cfg = s.cfg := rfl
@[simp] theorem State.finish_win (s : State) (c : Code) (k : Cause) : (s.finish c k).win = s.win := rfl
@[simp] theorem State.finish_wcnt (s : State) (c : Code) (k : Cause) : (s.finish c k).wcnt = s.wcnt := rfl
@[simp] theorem State.finish_buf (s : State) (c : Code) (k : Cause) : (s.finish c k).buf = s.buf := rfl
@[simp] theorem State.finish_obs (s : State) (c : Code) (k : Cause) : (s.finish c k).obs = s.obs := rfl
@[simp] theorem State.finish_obuf (s : State) (c : Code) (k : Cause) : (s.finish c k).obuf = s.obuf := rfl
@[simp] theorem State.finish_lk (s : State) (c : Code) (k : Cause) : (s.finish c k).lk = s.lk := rfl
@[simp] theorem State.finish_bus (s : State) (c : Code) (k : Cause) : (s.finish c k).bus = s.bus := rfl
@[simp] theorem State.finish_reply (s : State) (c : Code) (k : Cause) : (s.finish c k).reply = s.reply := rfl
@[simp] theorem State.finish_freeCount (s : State) (c : Code) (k : Cause) : (s.finish c k).freeCount = s.freeCount := rfl

/-! ## setRes -/

@[simp] theorem State.setRes_params (s : State) (v : DWord) : (s.setRes v).params = s.params := rfl
@[simp] theorem State.setRes_arg0 (s : State) (v : DWord) : (s.setRes v).arg0 = s.arg0 := rfl
@[simp] theorem State.setRes_arg1 (s : State) (v : DWord) : (s.setRes v).arg1 = s.arg1 := rfl
@[simp] theorem State.setRes_res0 (s : State) (v : DWord) : (s.setRes v).res0 = v.extractLsb' 0 32 := rfl
@[simp] theorem State.setRes_res1 (s : State) (v : DWord) : (s.setRes v).res1 = v.extractLsb' 32 32 := rfl
@[simp] theorem State.setRes_code (s : State) (v : DWord) : (s.setRes v).code = s.code := rfl
@[simp] theorem State.setRes_cause (s : State) (v : DWord) : (s.setRes v).cause = s.cause := rfl
@[simp] theorem State.setRes_isOpen (s : State) (v : DWord) : (s.setRes v).isOpen = s.isOpen := rfl
@[simp] theorem State.setRes_sstate (s : State) (v : DWord) : (s.setRes v).sstate = s.sstate := rfl
@[simp] theorem State.setRes_werr (s : State) (v : DWord) : (s.setRes v).werr = s.werr := rfl
@[simp] theorem State.setRes_fxMissing (s : State) (v : DWord) : (s.setRes v).fxMissing = s.fxMissing := rfl
@[simp] theorem State.setRes_fxNan (s : State) (v : DWord) : (s.setRes v).fxNan = s.fxNan := rfl
@[simp] theorem State.setRes_nbyte (s : State) (v : DWord) : (s.setRes v).nbyte = s.nbyte := rfl
@[simp] theorem State.setRes_flen (s : State) (v : DWord) : (s.setRes v).flen = s.flen := rfl
@[simp] theorem State.setRes_ftype (s : State) (v : DWord) : (s.setRes v).ftype = s.ftype := rfl
@[simp] theorem State.setRes_fdecIdx (s : State) (v : DWord) : (s.setRes v).fdecIdx = s.fdecIdx := rfl
@[simp] theorem State.setRes_fdecHit (s : State) (v : DWord) : (s.setRes v).fdecHit = s.fdecHit := rfl
@[simp] theorem State.setRes_obsN (s : State) (v : DWord) : (s.setRes v).obsN = s.obsN := rfl
@[simp] theorem State.setRes_stgN (s : State) (v : DWord) : (s.setRes v).stgN = s.stgN := rfl
@[simp] theorem State.setRes_timeLo (s : State) (v : DWord) : (s.setRes v).timeLo = s.timeLo := rfl
@[simp] theorem State.setRes_timeHi (s : State) (v : DWord) : (s.setRes v).timeHi = s.timeHi := rfl
@[simp] theorem State.setRes_cka (s : State) (v : DWord) : (s.setRes v).cka = s.cka := rfl
@[simp] theorem State.setRes_ckf (s : State) (v : DWord) : (s.setRes v).ckf = s.ckf := rfl
@[simp] theorem State.setRes_acc (s : State) (v : DWord) : (s.setRes v).acc = s.acc := rfl
@[simp] theorem State.setRes_cfg (s : State) (v : DWord) : (s.setRes v).cfg = s.cfg := rfl
@[simp] theorem State.setRes_win (s : State) (v : DWord) : (s.setRes v).win = s.win := rfl
@[simp] theorem State.setRes_wcnt (s : State) (v : DWord) : (s.setRes v).wcnt = s.wcnt := rfl
@[simp] theorem State.setRes_buf (s : State) (v : DWord) : (s.setRes v).buf = s.buf := rfl
@[simp] theorem State.setRes_obs (s : State) (v : DWord) : (s.setRes v).obs = s.obs := rfl
@[simp] theorem State.setRes_obuf (s : State) (v : DWord) : (s.setRes v).obuf = s.obuf := rfl
@[simp] theorem State.setRes_lk (s : State) (v : DWord) : (s.setRes v).lk = s.lk := rfl
@[simp] theorem State.setRes_bus (s : State) (v : DWord) : (s.setRes v).bus = s.bus := rfl
@[simp] theorem State.setRes_reply (s : State) (v : DWord) : (s.setRes v).reply = s.reply := rfl
@[simp] theorem State.setRes_freeCount (s : State) (v : DWord) : (s.setRes v).freeCount = s.freeCount := rfl

/-! ## setFxf -/

@[simp] theorem State.setFxf_params (s : State) (m n : Bool) : (s.setFxf m n).params = s.params := rfl
@[simp] theorem State.setFxf_arg0 (s : State) (m n : Bool) : (s.setFxf m n).arg0 = s.arg0 := rfl
@[simp] theorem State.setFxf_arg1 (s : State) (m n : Bool) : (s.setFxf m n).arg1 = s.arg1 := rfl
@[simp] theorem State.setFxf_res0 (s : State) (m n : Bool) : (s.setFxf m n).res0 = s.res0 := rfl
@[simp] theorem State.setFxf_res1 (s : State) (m n : Bool) : (s.setFxf m n).res1 = s.res1 := rfl
@[simp] theorem State.setFxf_code (s : State) (m n : Bool) : (s.setFxf m n).code = s.code := rfl
@[simp] theorem State.setFxf_cause (s : State) (m n : Bool) : (s.setFxf m n).cause = s.cause := rfl
@[simp] theorem State.setFxf_isOpen (s : State) (m n : Bool) : (s.setFxf m n).isOpen = s.isOpen := rfl
@[simp] theorem State.setFxf_sstate (s : State) (m n : Bool) : (s.setFxf m n).sstate = s.sstate := rfl
@[simp] theorem State.setFxf_werr (s : State) (m n : Bool) : (s.setFxf m n).werr = s.werr := rfl
@[simp] theorem State.setFxf_fxMissing (s : State) (m n : Bool) : (s.setFxf m n).fxMissing = m := rfl
@[simp] theorem State.setFxf_fxNan (s : State) (m n : Bool) : (s.setFxf m n).fxNan = n := rfl
@[simp] theorem State.setFxf_nbyte (s : State) (m n : Bool) : (s.setFxf m n).nbyte = s.nbyte := rfl
@[simp] theorem State.setFxf_flen (s : State) (m n : Bool) : (s.setFxf m n).flen = s.flen := rfl
@[simp] theorem State.setFxf_ftype (s : State) (m n : Bool) : (s.setFxf m n).ftype = s.ftype := rfl
@[simp] theorem State.setFxf_fdecIdx (s : State) (m n : Bool) : (s.setFxf m n).fdecIdx = s.fdecIdx := rfl
@[simp] theorem State.setFxf_fdecHit (s : State) (m n : Bool) : (s.setFxf m n).fdecHit = s.fdecHit := rfl
@[simp] theorem State.setFxf_obsN (s : State) (m n : Bool) : (s.setFxf m n).obsN = s.obsN := rfl
@[simp] theorem State.setFxf_stgN (s : State) (m n : Bool) : (s.setFxf m n).stgN = s.stgN := rfl
@[simp] theorem State.setFxf_timeLo (s : State) (m n : Bool) : (s.setFxf m n).timeLo = s.timeLo := rfl
@[simp] theorem State.setFxf_timeHi (s : State) (m n : Bool) : (s.setFxf m n).timeHi = s.timeHi := rfl
@[simp] theorem State.setFxf_cka (s : State) (m n : Bool) : (s.setFxf m n).cka = s.cka := rfl
@[simp] theorem State.setFxf_ckf (s : State) (m n : Bool) : (s.setFxf m n).ckf = s.ckf := rfl
@[simp] theorem State.setFxf_acc (s : State) (m n : Bool) : (s.setFxf m n).acc = s.acc := rfl
@[simp] theorem State.setFxf_cfg (s : State) (m n : Bool) : (s.setFxf m n).cfg = s.cfg := rfl
@[simp] theorem State.setFxf_win (s : State) (m n : Bool) : (s.setFxf m n).win = s.win := rfl
@[simp] theorem State.setFxf_wcnt (s : State) (m n : Bool) : (s.setFxf m n).wcnt = s.wcnt := rfl
@[simp] theorem State.setFxf_buf (s : State) (m n : Bool) : (s.setFxf m n).buf = s.buf := rfl
@[simp] theorem State.setFxf_obs (s : State) (m n : Bool) : (s.setFxf m n).obs = s.obs := rfl
@[simp] theorem State.setFxf_obuf (s : State) (m n : Bool) : (s.setFxf m n).obuf = s.obuf := rfl
@[simp] theorem State.setFxf_lk (s : State) (m n : Bool) : (s.setFxf m n).lk = s.lk := rfl
@[simp] theorem State.setFxf_bus (s : State) (m n : Bool) : (s.setFxf m n).bus = s.bus := rfl
@[simp] theorem State.setFxf_reply (s : State) (m n : Bool) : (s.setFxf m n).reply = s.reply := rfl
@[simp] theorem State.setFxf_freeCount (s : State) (m n : Bool) : (s.setFxf m n).freeCount = s.freeCount := rfl

/-! ## syncReset -/

@[simp] theorem State.syncReset_params (s : State) : (s.syncReset).params = s.params := rfl
@[simp] theorem State.syncReset_arg0 (s : State) : (s.syncReset).arg0 = s.arg0 := rfl
@[simp] theorem State.syncReset_arg1 (s : State) : (s.syncReset).arg1 = s.arg1 := rfl
@[simp] theorem State.syncReset_res0 (s : State) : (s.syncReset).res0 = s.res0 := rfl
@[simp] theorem State.syncReset_res1 (s : State) : (s.syncReset).res1 = s.res1 := rfl
@[simp] theorem State.syncReset_code (s : State) : (s.syncReset).code = s.code := rfl
@[simp] theorem State.syncReset_cause (s : State) : (s.syncReset).cause = s.cause := rfl
@[simp] theorem State.syncReset_isOpen (s : State) : (s.syncReset).isOpen = s.isOpen := rfl
@[simp] theorem State.syncReset_sstate (s : State) : (s.syncReset).sstate = .seeking := rfl
@[simp] theorem State.syncReset_werr (s : State) : (s.syncReset).werr = s.werr := rfl
@[simp] theorem State.syncReset_fxMissing (s : State) : (s.syncReset).fxMissing = s.fxMissing := rfl
@[simp] theorem State.syncReset_fxNan (s : State) : (s.syncReset).fxNan = s.fxNan := rfl
@[simp] theorem State.syncReset_nbyte (s : State) : (s.syncReset).nbyte = 0 := rfl
@[simp] theorem State.syncReset_flen (s : State) : (s.syncReset).flen = 0 := rfl
@[simp] theorem State.syncReset_ftype (s : State) : (s.syncReset).ftype = s.ftype := rfl
@[simp] theorem State.syncReset_fdecIdx (s : State) : (s.syncReset).fdecIdx = s.fdecIdx := rfl
@[simp] theorem State.syncReset_fdecHit (s : State) : (s.syncReset).fdecHit = s.fdecHit := rfl
@[simp] theorem State.syncReset_obsN (s : State) : (s.syncReset).obsN = s.obsN := rfl
@[simp] theorem State.syncReset_stgN (s : State) : (s.syncReset).stgN = s.stgN := rfl
@[simp] theorem State.syncReset_timeLo (s : State) : (s.syncReset).timeLo = s.timeLo := rfl
@[simp] theorem State.syncReset_timeHi (s : State) : (s.syncReset).timeHi = s.timeHi := rfl
@[simp] theorem State.syncReset_cka (s : State) : (s.syncReset).cka = s.cka := rfl
@[simp] theorem State.syncReset_ckf (s : State) : (s.syncReset).ckf = s.ckf := rfl
@[simp] theorem State.syncReset_acc (s : State) : (s.syncReset).acc = s.acc := rfl
@[simp] theorem State.syncReset_cfg (s : State) : (s.syncReset).cfg = s.cfg := rfl
@[simp] theorem State.syncReset_win (s : State) : (s.syncReset).win = zeroWin := rfl
@[simp] theorem State.syncReset_wcnt (s : State) : (s.syncReset).wcnt = 0 := rfl
@[simp] theorem State.syncReset_buf (s : State) : (s.syncReset).buf = s.buf := rfl
@[simp] theorem State.syncReset_obs (s : State) : (s.syncReset).obs = s.obs := rfl
@[simp] theorem State.syncReset_obuf (s : State) : (s.syncReset).obuf = s.obuf := rfl
@[simp] theorem State.syncReset_lk (s : State) : (s.syncReset).lk = s.lk := rfl
@[simp] theorem State.syncReset_bus (s : State) : (s.syncReset).bus = s.bus := rfl
@[simp] theorem State.syncReset_reply (s : State) : (s.syncReset).reply = s.reply := rfl
@[simp] theorem State.syncReset_freeCount (s : State) : (s.syncReset).freeCount = s.freeCount := rfl

/-! ## putByte -/

@[simp] theorem State.putByte_params (s : State) (b : Byte) : (s.putByte b).params = s.params := rfl
@[simp] theorem State.putByte_arg0 (s : State) (b : Byte) : (s.putByte b).arg0 = s.arg0 := rfl
@[simp] theorem State.putByte_arg1 (s : State) (b : Byte) : (s.putByte b).arg1 = s.arg1 := rfl
@[simp] theorem State.putByte_res0 (s : State) (b : Byte) : (s.putByte b).res0 = s.res0 := rfl
@[simp] theorem State.putByte_res1 (s : State) (b : Byte) : (s.putByte b).res1 = s.res1 := rfl
@[simp] theorem State.putByte_code (s : State) (b : Byte) : (s.putByte b).code = s.code := rfl
@[simp] theorem State.putByte_cause (s : State) (b : Byte) : (s.putByte b).cause = s.cause := rfl
@[simp] theorem State.putByte_isOpen (s : State) (b : Byte) : (s.putByte b).isOpen = s.isOpen := rfl
@[simp] theorem State.putByte_sstate (s : State) (b : Byte) : (s.putByte b).sstate = s.sstate := rfl
@[simp] theorem State.putByte_werr (s : State) (b : Byte) : (s.putByte b).werr = s.werr := rfl
@[simp] theorem State.putByte_fxMissing (s : State) (b : Byte) : (s.putByte b).fxMissing = s.fxMissing := rfl
@[simp] theorem State.putByte_fxNan (s : State) (b : Byte) : (s.putByte b).fxNan = s.fxNan := rfl
@[simp] theorem State.putByte_nbyte (s : State) (b : Byte) : (s.putByte b).nbyte = s.nbyte + 1 := rfl
@[simp] theorem State.putByte_flen (s : State) (b : Byte) : (s.putByte b).flen = s.flen := rfl
@[simp] theorem State.putByte_ftype (s : State) (b : Byte) : (s.putByte b).ftype = s.ftype := rfl
@[simp] theorem State.putByte_fdecIdx (s : State) (b : Byte) : (s.putByte b).fdecIdx = s.fdecIdx := rfl
@[simp] theorem State.putByte_fdecHit (s : State) (b : Byte) : (s.putByte b).fdecHit = s.fdecHit := rfl
@[simp] theorem State.putByte_obsN (s : State) (b : Byte) : (s.putByte b).obsN = s.obsN := rfl
@[simp] theorem State.putByte_stgN (s : State) (b : Byte) : (s.putByte b).stgN = s.stgN := rfl
@[simp] theorem State.putByte_timeLo (s : State) (b : Byte) : (s.putByte b).timeLo = s.timeLo := rfl
@[simp] theorem State.putByte_timeHi (s : State) (b : Byte) : (s.putByte b).timeHi = s.timeHi := rfl
@[simp] theorem State.putByte_cka (s : State) (b : Byte) : (s.putByte b).cka = s.cka := rfl
@[simp] theorem State.putByte_ckf (s : State) (b : Byte) : (s.putByte b).ckf = s.ckf := rfl
@[simp] theorem State.putByte_acc (s : State) (b : Byte) : (s.putByte b).acc = s.acc := rfl
@[simp] theorem State.putByte_cfg (s : State) (b : Byte) : (s.putByte b).cfg = s.cfg := rfl
@[simp] theorem State.putByte_win (s : State) (b : Byte) : (s.putByte b).win = s.win := rfl
@[simp] theorem State.putByte_wcnt (s : State) (b : Byte) : (s.putByte b).wcnt = s.wcnt := rfl
@[simp] theorem State.putByte_buf (s : State) (b : Byte) : (s.putByte b).buf = Memory.write s.buf s.nbyte.toNat b := rfl
@[simp] theorem State.putByte_obs (s : State) (b : Byte) : (s.putByte b).obs = s.obs := rfl
@[simp] theorem State.putByte_obuf (s : State) (b : Byte) : (s.putByte b).obuf = s.obuf := rfl
@[simp] theorem State.putByte_lk (s : State) (b : Byte) : (s.putByte b).lk = s.lk := rfl
@[simp] theorem State.putByte_bus (s : State) (b : Byte) : (s.putByte b).bus = s.bus := rfl
@[simp] theorem State.putByte_reply (s : State) (b : Byte) : (s.putByte b).reply = s.reply := rfl
@[simp] theorem State.putByte_freeCount (s : State) (b : Byte) : (s.putByte b).freeCount = s.freeCount := rfl

/-! ## beginFrame -/

@[simp] theorem State.beginFrame_params (s : State) (w : List Byte) : (s.beginFrame w).params = s.params := rfl
@[simp] theorem State.beginFrame_arg0 (s : State) (w : List Byte) : (s.beginFrame w).arg0 = s.arg0 := rfl
@[simp] theorem State.beginFrame_arg1 (s : State) (w : List Byte) : (s.beginFrame w).arg1 = s.arg1 := rfl
@[simp] theorem State.beginFrame_res0 (s : State) (w : List Byte) : (s.beginFrame w).res0 = s.res0 := rfl
@[simp] theorem State.beginFrame_res1 (s : State) (w : List Byte) : (s.beginFrame w).res1 = s.res1 := rfl
@[simp] theorem State.beginFrame_code (s : State) (w : List Byte) : (s.beginFrame w).code = s.code := rfl
@[simp] theorem State.beginFrame_cause (s : State) (w : List Byte) : (s.beginFrame w).cause = s.cause := rfl
@[simp] theorem State.beginFrame_isOpen (s : State) (w : List Byte) : (s.beginFrame w).isOpen = s.isOpen := rfl
@[simp] theorem State.beginFrame_sstate (s : State) (w : List Byte) : (s.beginFrame w).sstate = .header := rfl
@[simp] theorem State.beginFrame_werr (s : State) (w : List Byte) : (s.beginFrame w).werr = s.werr := rfl
@[simp] theorem State.beginFrame_fxMissing (s : State) (w : List Byte) : (s.beginFrame w).fxMissing = s.fxMissing := rfl
@[simp] theorem State.beginFrame_fxNan (s : State) (w : List Byte) : (s.beginFrame w).fxNan = s.fxNan := rfl
@[simp] theorem State.beginFrame_nbyte (s : State) (w : List Byte) : (s.beginFrame w).nbyte = BitVec.ofNat 16 s.syncLen := rfl
@[simp] theorem State.beginFrame_flen (s : State) (w : List Byte) : (s.beginFrame w).flen = 0 := rfl
@[simp] theorem State.beginFrame_ftype (s : State) (w : List Byte) : (s.beginFrame w).ftype = s.ftype := rfl
@[simp] theorem State.beginFrame_fdecIdx (s : State) (w : List Byte) : (s.beginFrame w).fdecIdx = s.fdecIdx := rfl
@[simp] theorem State.beginFrame_fdecHit (s : State) (w : List Byte) : (s.beginFrame w).fdecHit = s.fdecHit := rfl
@[simp] theorem State.beginFrame_obsN (s : State) (w : List Byte) : (s.beginFrame w).obsN = s.obsN := rfl
@[simp] theorem State.beginFrame_stgN (s : State) (w : List Byte) : (s.beginFrame w).stgN = s.stgN := rfl
@[simp] theorem State.beginFrame_timeLo (s : State) (w : List Byte) : (s.beginFrame w).timeLo = s.timeLo := rfl
@[simp] theorem State.beginFrame_timeHi (s : State) (w : List Byte) : (s.beginFrame w).timeHi = s.timeHi := rfl
@[simp] theorem State.beginFrame_cka (s : State) (w : List Byte) : (s.beginFrame w).cka = s.cka := rfl
@[simp] theorem State.beginFrame_ckf (s : State) (w : List Byte) : (s.beginFrame w).ckf = s.ckf := rfl
@[simp] theorem State.beginFrame_acc (s : State) (w : List Byte) : (s.beginFrame w).acc = s.acc := rfl
@[simp] theorem State.beginFrame_cfg (s : State) (w : List Byte) : (s.beginFrame w).cfg = s.cfg := rfl
@[simp] theorem State.beginFrame_win (s : State) (w : List Byte) : (s.beginFrame w).win = zeroWin := rfl
@[simp] theorem State.beginFrame_wcnt (s : State) (w : List Byte) : (s.beginFrame w).wcnt = 0 := rfl
@[simp] theorem State.beginFrame_buf (s : State) (w : List Byte) : (s.beginFrame w).buf = Memory.writeList s.buf 0 (w.take s.syncLen) := rfl
@[simp] theorem State.beginFrame_obs (s : State) (w : List Byte) : (s.beginFrame w).obs = s.obs := rfl
@[simp] theorem State.beginFrame_obuf (s : State) (w : List Byte) : (s.beginFrame w).obuf = s.obuf := rfl
@[simp] theorem State.beginFrame_lk (s : State) (w : List Byte) : (s.beginFrame w).lk = s.lk := rfl
@[simp] theorem State.beginFrame_bus (s : State) (w : List Byte) : (s.beginFrame w).bus = s.bus := rfl
@[simp] theorem State.beginFrame_reply (s : State) (w : List Byte) : (s.beginFrame w).reply = s.reply := rfl
@[simp] theorem State.beginFrame_freeCount (s : State) (w : List Byte) : (s.beginFrame w).freeCount = s.freeCount := rfl

/-! ## holdFrame -/

@[simp] theorem State.holdFrame_params (s : State) (j : BitVec 4) (h : Bool) : (s.holdFrame j h).params = s.params := rfl
@[simp] theorem State.holdFrame_arg0 (s : State) (j : BitVec 4) (h : Bool) : (s.holdFrame j h).arg0 = s.arg0 := rfl
@[simp] theorem State.holdFrame_arg1 (s : State) (j : BitVec 4) (h : Bool) : (s.holdFrame j h).arg1 = s.arg1 := rfl
@[simp] theorem State.holdFrame_res0 (s : State) (j : BitVec 4) (h : Bool) : (s.holdFrame j h).res0 = s.res0 := rfl
@[simp] theorem State.holdFrame_res1 (s : State) (j : BitVec 4) (h : Bool) : (s.holdFrame j h).res1 = s.res1 := rfl
@[simp] theorem State.holdFrame_code (s : State) (j : BitVec 4) (h : Bool) : (s.holdFrame j h).code = .frameReady := rfl
@[simp] theorem State.holdFrame_cause (s : State) (j : BitVec 4) (h : Bool) : (s.holdFrame j h).cause = .none := rfl
@[simp] theorem State.holdFrame_isOpen (s : State) (j : BitVec 4) (h : Bool) : (s.holdFrame j h).isOpen = s.isOpen := rfl
@[simp] theorem State.holdFrame_sstate (s : State) (j : BitVec 4) (h : Bool) : (s.holdFrame j h).sstate = .complete := rfl
@[simp] theorem State.holdFrame_werr (s : State) (j : BitVec 4) (h : Bool) : (s.holdFrame j h).werr = s.werr := rfl
@[simp] theorem State.holdFrame_fxMissing (s : State) (j : BitVec 4) (h : Bool) : (s.holdFrame j h).fxMissing = s.fxMissing := rfl
@[simp] theorem State.holdFrame_fxNan (s : State) (j : BitVec 4) (h : Bool) : (s.holdFrame j h).fxNan = s.fxNan := rfl
@[simp] theorem State.holdFrame_nbyte (s : State) (j : BitVec 4) (h : Bool) : (s.holdFrame j h).nbyte = s.nbyte := rfl
@[simp] theorem State.holdFrame_flen (s : State) (j : BitVec 4) (h : Bool) : (s.holdFrame j h).flen = s.flen := rfl
@[simp] theorem State.holdFrame_ftype (s : State) (j : BitVec 4) (h : Bool) : (s.holdFrame j h).ftype = s.ftype := rfl
@[simp] theorem State.holdFrame_fdecIdx (s : State) (j : BitVec 4) (h : Bool) : (s.holdFrame j h).fdecIdx = j := rfl
@[simp] theorem State.holdFrame_fdecHit (s : State) (j : BitVec 4) (h : Bool) : (s.holdFrame j h).fdecHit = h := rfl
@[simp] theorem State.holdFrame_obsN (s : State) (j : BitVec 4) (h : Bool) : (s.holdFrame j h).obsN = s.obsN := rfl
@[simp] theorem State.holdFrame_stgN (s : State) (j : BitVec 4) (h : Bool) : (s.holdFrame j h).stgN = s.stgN := rfl
@[simp] theorem State.holdFrame_timeLo (s : State) (j : BitVec 4) (h : Bool) : (s.holdFrame j h).timeLo = s.timeLo := rfl
@[simp] theorem State.holdFrame_timeHi (s : State) (j : BitVec 4) (h : Bool) : (s.holdFrame j h).timeHi = s.timeHi := rfl
@[simp] theorem State.holdFrame_cka (s : State) (j : BitVec 4) (h : Bool) : (s.holdFrame j h).cka = s.cka := rfl
@[simp] theorem State.holdFrame_ckf (s : State) (j : BitVec 4) (h : Bool) : (s.holdFrame j h).ckf = s.ckf := rfl
@[simp] theorem State.holdFrame_acc (s : State) (j : BitVec 4) (h : Bool) : (s.holdFrame j h).acc = s.acc := rfl
@[simp] theorem State.holdFrame_cfg (s : State) (j : BitVec 4) (h : Bool) : (s.holdFrame j h).cfg = s.cfg := rfl
@[simp] theorem State.holdFrame_win (s : State) (j : BitVec 4) (h : Bool) : (s.holdFrame j h).win = s.win := rfl
@[simp] theorem State.holdFrame_wcnt (s : State) (j : BitVec 4) (h : Bool) : (s.holdFrame j h).wcnt = s.wcnt := rfl
@[simp] theorem State.holdFrame_buf (s : State) (j : BitVec 4) (h : Bool) : (s.holdFrame j h).buf = s.buf := rfl
@[simp] theorem State.holdFrame_obs (s : State) (j : BitVec 4) (h : Bool) : (s.holdFrame j h).obs = s.obs := rfl
@[simp] theorem State.holdFrame_obuf (s : State) (j : BitVec 4) (h : Bool) : (s.holdFrame j h).obuf = s.obuf := rfl
@[simp] theorem State.holdFrame_lk (s : State) (j : BitVec 4) (h : Bool) : (s.holdFrame j h).lk = s.lk := rfl
@[simp] theorem State.holdFrame_bus (s : State) (j : BitVec 4) (h : Bool) : (s.holdFrame j h).bus = s.bus := rfl
@[simp] theorem State.holdFrame_reply (s : State) (j : BitVec 4) (h : Bool) : (s.holdFrame j h).reply = s.reply := rfl
@[simp] theorem State.holdFrame_freeCount (s : State) (j : BitVec 4) (h : Bool) : (s.holdFrame j h).freeCount = s.freeCount := rfl

/-! ## setObs -/

@[simp] theorem State.setObs_params (s : State) (a : List Rec) (n : Byte) : (s.setObs a n).params = s.params := rfl
@[simp] theorem State.setObs_arg0 (s : State) (a : List Rec) (n : Byte) : (s.setObs a n).arg0 = s.arg0 := rfl
@[simp] theorem State.setObs_arg1 (s : State) (a : List Rec) (n : Byte) : (s.setObs a n).arg1 = s.arg1 := rfl
@[simp] theorem State.setObs_res0 (s : State) (a : List Rec) (n : Byte) : (s.setObs a n).res0 = s.res0 := rfl
@[simp] theorem State.setObs_res1 (s : State) (a : List Rec) (n : Byte) : (s.setObs a n).res1 = s.res1 := rfl
@[simp] theorem State.setObs_code (s : State) (a : List Rec) (n : Byte) : (s.setObs a n).code = s.code := rfl
@[simp] theorem State.setObs_cause (s : State) (a : List Rec) (n : Byte) : (s.setObs a n).cause = s.cause := rfl
@[simp] theorem State.setObs_isOpen (s : State) (a : List Rec) (n : Byte) : (s.setObs a n).isOpen = s.isOpen := rfl
@[simp] theorem State.setObs_sstate (s : State) (a : List Rec) (n : Byte) : (s.setObs a n).sstate = s.sstate := rfl
@[simp] theorem State.setObs_werr (s : State) (a : List Rec) (n : Byte) : (s.setObs a n).werr = s.werr := rfl
@[simp] theorem State.setObs_fxMissing (s : State) (a : List Rec) (n : Byte) : (s.setObs a n).fxMissing = s.fxMissing := rfl
@[simp] theorem State.setObs_fxNan (s : State) (a : List Rec) (n : Byte) : (s.setObs a n).fxNan = s.fxNan := rfl
@[simp] theorem State.setObs_nbyte (s : State) (a : List Rec) (n : Byte) : (s.setObs a n).nbyte = s.nbyte := rfl
@[simp] theorem State.setObs_flen (s : State) (a : List Rec) (n : Byte) : (s.setObs a n).flen = s.flen := rfl
@[simp] theorem State.setObs_ftype (s : State) (a : List Rec) (n : Byte) : (s.setObs a n).ftype = s.ftype := rfl
@[simp] theorem State.setObs_fdecIdx (s : State) (a : List Rec) (n : Byte) : (s.setObs a n).fdecIdx = s.fdecIdx := rfl
@[simp] theorem State.setObs_fdecHit (s : State) (a : List Rec) (n : Byte) : (s.setObs a n).fdecHit = s.fdecHit := rfl
@[simp] theorem State.setObs_obsN (s : State) (a : List Rec) (n : Byte) : (s.setObs a n).obsN = n := rfl
@[simp] theorem State.setObs_stgN (s : State) (a : List Rec) (n : Byte) : (s.setObs a n).stgN = s.stgN := rfl
@[simp] theorem State.setObs_timeLo (s : State) (a : List Rec) (n : Byte) : (s.setObs a n).timeLo = s.timeLo := rfl
@[simp] theorem State.setObs_timeHi (s : State) (a : List Rec) (n : Byte) : (s.setObs a n).timeHi = s.timeHi := rfl
@[simp] theorem State.setObs_cka (s : State) (a : List Rec) (n : Byte) : (s.setObs a n).cka = s.cka := rfl
@[simp] theorem State.setObs_ckf (s : State) (a : List Rec) (n : Byte) : (s.setObs a n).ckf = s.ckf := rfl
@[simp] theorem State.setObs_acc (s : State) (a : List Rec) (n : Byte) : (s.setObs a n).acc = s.acc := rfl
@[simp] theorem State.setObs_cfg (s : State) (a : List Rec) (n : Byte) : (s.setObs a n).cfg = s.cfg := rfl
@[simp] theorem State.setObs_win (s : State) (a : List Rec) (n : Byte) : (s.setObs a n).win = s.win := rfl
@[simp] theorem State.setObs_wcnt (s : State) (a : List Rec) (n : Byte) : (s.setObs a n).wcnt = s.wcnt := rfl
@[simp] theorem State.setObs_buf (s : State) (a : List Rec) (n : Byte) : (s.setObs a n).buf = s.buf := rfl
@[simp] theorem State.setObs_obs (s : State) (a : List Rec) (n : Byte) : (s.setObs a n).obs = a := rfl
@[simp] theorem State.setObs_obuf (s : State) (a : List Rec) (n : Byte) : (s.setObs a n).obuf = s.obuf := rfl
@[simp] theorem State.setObs_lk (s : State) (a : List Rec) (n : Byte) : (s.setObs a n).lk = s.lk := rfl
@[simp] theorem State.setObs_bus (s : State) (a : List Rec) (n : Byte) : (s.setObs a n).bus = s.bus := rfl
@[simp] theorem State.setObs_reply (s : State) (a : List Rec) (n : Byte) : (s.setObs a n).reply = s.reply := rfl
@[simp] theorem State.setObs_freeCount (s : State) (a : List Rec) (n : Byte) : (s.setObs a n).freeCount = s.freeCount := rfl

/-! ## setStaged -/

@[simp] theorem State.setStaged_params (s : State) (a : List Rec) (n : Byte) : (s.setStaged a n).params = s.params := rfl
@[simp] theorem State.setStaged_arg0 (s : State) (a : List Rec) (n : Byte) : (s.setStaged a n).arg0 = s.arg0 := rfl
@[simp] theorem State.setStaged_arg1 (s : State) (a : List Rec) (n : Byte) : (s.setStaged a n).arg1 = s.arg1 := rfl
@[simp] theorem State.setStaged_res0 (s : State) (a : List Rec) (n : Byte) : (s.setStaged a n).res0 = s.res0 := rfl
@[simp] theorem State.setStaged_res1 (s : State) (a : List Rec) (n : Byte) : (s.setStaged a n).res1 = s.res1 := rfl
@[simp] theorem State.setStaged_code (s : State) (a : List Rec) (n : Byte) : (s.setStaged a n).code = s.code := rfl
@[simp] theorem State.setStaged_cause (s : State) (a : List Rec) (n : Byte) : (s.setStaged a n).cause = s.cause := rfl
@[simp] theorem State.setStaged_isOpen (s : State) (a : List Rec) (n : Byte) : (s.setStaged a n).isOpen = s.isOpen := rfl
@[simp] theorem State.setStaged_sstate (s : State) (a : List Rec) (n : Byte) : (s.setStaged a n).sstate = s.sstate := rfl
@[simp] theorem State.setStaged_werr (s : State) (a : List Rec) (n : Byte) : (s.setStaged a n).werr = s.werr := rfl
@[simp] theorem State.setStaged_fxMissing (s : State) (a : List Rec) (n : Byte) : (s.setStaged a n).fxMissing = s.fxMissing := rfl
@[simp] theorem State.setStaged_fxNan (s : State) (a : List Rec) (n : Byte) : (s.setStaged a n).fxNan = s.fxNan := rfl
@[simp] theorem State.setStaged_nbyte (s : State) (a : List Rec) (n : Byte) : (s.setStaged a n).nbyte = s.nbyte := rfl
@[simp] theorem State.setStaged_flen (s : State) (a : List Rec) (n : Byte) : (s.setStaged a n).flen = s.flen := rfl
@[simp] theorem State.setStaged_ftype (s : State) (a : List Rec) (n : Byte) : (s.setStaged a n).ftype = s.ftype := rfl
@[simp] theorem State.setStaged_fdecIdx (s : State) (a : List Rec) (n : Byte) : (s.setStaged a n).fdecIdx = s.fdecIdx := rfl
@[simp] theorem State.setStaged_fdecHit (s : State) (a : List Rec) (n : Byte) : (s.setStaged a n).fdecHit = s.fdecHit := rfl
@[simp] theorem State.setStaged_obsN (s : State) (a : List Rec) (n : Byte) : (s.setStaged a n).obsN = s.obsN := rfl
@[simp] theorem State.setStaged_stgN (s : State) (a : List Rec) (n : Byte) : (s.setStaged a n).stgN = n := rfl
@[simp] theorem State.setStaged_timeLo (s : State) (a : List Rec) (n : Byte) : (s.setStaged a n).timeLo = s.timeLo := rfl
@[simp] theorem State.setStaged_timeHi (s : State) (a : List Rec) (n : Byte) : (s.setStaged a n).timeHi = s.timeHi := rfl
@[simp] theorem State.setStaged_cka (s : State) (a : List Rec) (n : Byte) : (s.setStaged a n).cka = s.cka := rfl
@[simp] theorem State.setStaged_ckf (s : State) (a : List Rec) (n : Byte) : (s.setStaged a n).ckf = s.ckf := rfl
@[simp] theorem State.setStaged_acc (s : State) (a : List Rec) (n : Byte) : (s.setStaged a n).acc = s.acc := rfl
@[simp] theorem State.setStaged_cfg (s : State) (a : List Rec) (n : Byte) : (s.setStaged a n).cfg = s.cfg := rfl
@[simp] theorem State.setStaged_win (s : State) (a : List Rec) (n : Byte) : (s.setStaged a n).win = s.win := rfl
@[simp] theorem State.setStaged_wcnt (s : State) (a : List Rec) (n : Byte) : (s.setStaged a n).wcnt = s.wcnt := rfl
@[simp] theorem State.setStaged_buf (s : State) (a : List Rec) (n : Byte) : (s.setStaged a n).buf = s.buf := rfl
@[simp] theorem State.setStaged_obs (s : State) (a : List Rec) (n : Byte) : (s.setStaged a n).obs = s.obs := rfl
@[simp] theorem State.setStaged_obuf (s : State) (a : List Rec) (n : Byte) : (s.setStaged a n).obuf = a := rfl
@[simp] theorem State.setStaged_lk (s : State) (a : List Rec) (n : Byte) : (s.setStaged a n).lk = s.lk := rfl
@[simp] theorem State.setStaged_bus (s : State) (a : List Rec) (n : Byte) : (s.setStaged a n).bus = s.bus := rfl
@[simp] theorem State.setStaged_reply (s : State) (a : List Rec) (n : Byte) : (s.setStaged a n).reply = s.reply := rfl
@[simp] theorem State.setStaged_freeCount (s : State) (a : List Rec) (n : Byte) : (s.setStaged a n).freeCount = s.freeCount := rfl

/-! ## clearStaged -/

@[simp] theorem State.clearStaged_params (s : State) (n : Byte) : (s.clearStaged n).params = s.params := rfl
@[simp] theorem State.clearStaged_arg0 (s : State) (n : Byte) : (s.clearStaged n).arg0 = s.arg0 := rfl
@[simp] theorem State.clearStaged_arg1 (s : State) (n : Byte) : (s.clearStaged n).arg1 = s.arg1 := rfl
@[simp] theorem State.clearStaged_res0 (s : State) (n : Byte) : (s.clearStaged n).res0 = s.res0 := rfl
@[simp] theorem State.clearStaged_res1 (s : State) (n : Byte) : (s.clearStaged n).res1 = s.res1 := rfl
@[simp] theorem State.clearStaged_code (s : State) (n : Byte) : (s.clearStaged n).code = s.code := rfl
@[simp] theorem State.clearStaged_cause (s : State) (n : Byte) : (s.clearStaged n).cause = s.cause := rfl
@[simp] theorem State.clearStaged_isOpen (s : State) (n : Byte) : (s.clearStaged n).isOpen = s.isOpen := rfl
@[simp] theorem State.clearStaged_sstate (s : State) (n : Byte) : (s.clearStaged n).sstate = s.sstate := rfl
@[simp] theorem State.clearStaged_werr (s : State) (n : Byte) : (s.clearStaged n).werr = s.werr := rfl
@[simp] theorem State.clearStaged_fxMissing (s : State) (n : Byte) : (s.clearStaged n).fxMissing = s.fxMissing := rfl
@[simp] theorem State.clearStaged_fxNan (s : State) (n : Byte) : (s.clearStaged n).fxNan = s.fxNan := rfl
@[simp] theorem State.clearStaged_nbyte (s : State) (n : Byte) : (s.clearStaged n).nbyte = s.nbyte := rfl
@[simp] theorem State.clearStaged_flen (s : State) (n : Byte) : (s.clearStaged n).flen = s.flen := rfl
@[simp] theorem State.clearStaged_ftype (s : State) (n : Byte) : (s.clearStaged n).ftype = s.ftype := rfl
@[simp] theorem State.clearStaged_fdecIdx (s : State) (n : Byte) : (s.clearStaged n).fdecIdx = s.fdecIdx := rfl
@[simp] theorem State.clearStaged_fdecHit (s : State) (n : Byte) : (s.clearStaged n).fdecHit = s.fdecHit := rfl
@[simp] theorem State.clearStaged_obsN (s : State) (n : Byte) : (s.clearStaged n).obsN = s.obsN := rfl
@[simp] theorem State.clearStaged_stgN (s : State) (n : Byte) : (s.clearStaged n).stgN = n := rfl
@[simp] theorem State.clearStaged_timeLo (s : State) (n : Byte) : (s.clearStaged n).timeLo = s.timeLo := rfl
@[simp] theorem State.clearStaged_timeHi (s : State) (n : Byte) : (s.clearStaged n).timeHi = s.timeHi := rfl
@[simp] theorem State.clearStaged_cka (s : State) (n : Byte) : (s.clearStaged n).cka = s.cka := rfl
@[simp] theorem State.clearStaged_ckf (s : State) (n : Byte) : (s.clearStaged n).ckf = s.ckf := rfl
@[simp] theorem State.clearStaged_acc (s : State) (n : Byte) : (s.clearStaged n).acc = s.acc := rfl
@[simp] theorem State.clearStaged_cfg (s : State) (n : Byte) : (s.clearStaged n).cfg = s.cfg := rfl
@[simp] theorem State.clearStaged_win (s : State) (n : Byte) : (s.clearStaged n).win = s.win := rfl
@[simp] theorem State.clearStaged_wcnt (s : State) (n : Byte) : (s.clearStaged n).wcnt = s.wcnt := rfl
@[simp] theorem State.clearStaged_buf (s : State) (n : Byte) : (s.clearStaged n).buf = s.buf := rfl
@[simp] theorem State.clearStaged_obs (s : State) (n : Byte) : (s.clearStaged n).obs = s.obs := rfl
@[simp] theorem State.clearStaged_obuf (s : State) (n : Byte) : (s.clearStaged n).obuf = zeroRecords s.params := rfl
@[simp] theorem State.clearStaged_lk (s : State) (n : Byte) : (s.clearStaged n).lk = s.lk := rfl
@[simp] theorem State.clearStaged_bus (s : State) (n : Byte) : (s.clearStaged n).bus = s.bus := rfl
@[simp] theorem State.clearStaged_reply (s : State) (n : Byte) : (s.clearStaged n).reply = s.reply := rfl
@[simp] theorem State.clearStaged_freeCount (s : State) (n : Byte) : (s.clearStaged n).freeCount = s.freeCount := rfl

/-! ## setLk -/

@[simp] theorem State.setLk_params (s : State) (t : List (List LkEntry)) : (s.setLk t).params = s.params := rfl
@[simp] theorem State.setLk_arg0 (s : State) (t : List (List LkEntry)) : (s.setLk t).arg0 = s.arg0 := rfl
@[simp] theorem State.setLk_arg1 (s : State) (t : List (List LkEntry)) : (s.setLk t).arg1 = s.arg1 := rfl
@[simp] theorem State.setLk_res0 (s : State) (t : List (List LkEntry)) : (s.setLk t).res0 = s.res0 := rfl
@[simp] theorem State.setLk_res1 (s : State) (t : List (List LkEntry)) : (s.setLk t).res1 = s.res1 := rfl
@[simp] theorem State.setLk_code (s : State) (t : List (List LkEntry)) : (s.setLk t).code = s.code := rfl
@[simp] theorem State.setLk_cause (s : State) (t : List (List LkEntry)) : (s.setLk t).cause = s.cause := rfl
@[simp] theorem State.setLk_isOpen (s : State) (t : List (List LkEntry)) : (s.setLk t).isOpen = s.isOpen := rfl
@[simp] theorem State.setLk_sstate (s : State) (t : List (List LkEntry)) : (s.setLk t).sstate = s.sstate := rfl
@[simp] theorem State.setLk_werr (s : State) (t : List (List LkEntry)) : (s.setLk t).werr = s.werr := rfl
@[simp] theorem State.setLk_fxMissing (s : State) (t : List (List LkEntry)) : (s.setLk t).fxMissing = s.fxMissing := rfl
@[simp] theorem State.setLk_fxNan (s : State) (t : List (List LkEntry)) : (s.setLk t).fxNan = s.fxNan := rfl
@[simp] theorem State.setLk_nbyte (s : State) (t : List (List LkEntry)) : (s.setLk t).nbyte = s.nbyte := rfl
@[simp] theorem State.setLk_flen (s : State) (t : List (List LkEntry)) : (s.setLk t).flen = s.flen := rfl
@[simp] theorem State.setLk_ftype (s : State) (t : List (List LkEntry)) : (s.setLk t).ftype = s.ftype := rfl
@[simp] theorem State.setLk_fdecIdx (s : State) (t : List (List LkEntry)) : (s.setLk t).fdecIdx = s.fdecIdx := rfl
@[simp] theorem State.setLk_fdecHit (s : State) (t : List (List LkEntry)) : (s.setLk t).fdecHit = s.fdecHit := rfl
@[simp] theorem State.setLk_obsN (s : State) (t : List (List LkEntry)) : (s.setLk t).obsN = s.obsN := rfl
@[simp] theorem State.setLk_stgN (s : State) (t : List (List LkEntry)) : (s.setLk t).stgN = s.stgN := rfl
@[simp] theorem State.setLk_timeLo (s : State) (t : List (List LkEntry)) : (s.setLk t).timeLo = s.timeLo := rfl
@[simp] theorem State.setLk_timeHi (s : State) (t : List (List LkEntry)) : (s.setLk t).timeHi = s.timeHi := rfl
@[simp] theorem State.setLk_cka (s : State) (t : List (List LkEntry)) : (s.setLk t).cka = s.cka := rfl
@[simp] theorem State.setLk_ckf (s : State) (t : List (List LkEntry)) : (s.setLk t).ckf = s.ckf := rfl
@[simp] theorem State.setLk_acc (s : State) (t : List (List LkEntry)) : (s.setLk t).acc = s.acc := rfl
@[simp] theorem State.setLk_cfg (s : State) (t : List (List LkEntry)) : (s.setLk t).cfg = s.cfg := rfl
@[simp] theorem State.setLk_win (s : State) (t : List (List LkEntry)) : (s.setLk t).win = s.win := rfl
@[simp] theorem State.setLk_wcnt (s : State) (t : List (List LkEntry)) : (s.setLk t).wcnt = s.wcnt := rfl
@[simp] theorem State.setLk_buf (s : State) (t : List (List LkEntry)) : (s.setLk t).buf = s.buf := rfl
@[simp] theorem State.setLk_obs (s : State) (t : List (List LkEntry)) : (s.setLk t).obs = s.obs := rfl
@[simp] theorem State.setLk_obuf (s : State) (t : List (List LkEntry)) : (s.setLk t).obuf = s.obuf := rfl
@[simp] theorem State.setLk_lk (s : State) (t : List (List LkEntry)) : (s.setLk t).lk = t := rfl
@[simp] theorem State.setLk_bus (s : State) (t : List (List LkEntry)) : (s.setLk t).bus = s.bus := rfl
@[simp] theorem State.setLk_reply (s : State) (t : List (List LkEntry)) : (s.setLk t).reply = s.reply := rfl
@[simp] theorem State.setLk_freeCount (s : State) (t : List (List LkEntry)) : (s.setLk t).freeCount = s.freeCount := rfl

/-! ## setAcc -/

@[simp] theorem State.setAcc_params (s : State) (a : Word) : (s.setAcc a).params = s.params := rfl
@[simp] theorem State.setAcc_arg0 (s : State) (a : Word) : (s.setAcc a).arg0 = s.arg0 := rfl
@[simp] theorem State.setAcc_arg1 (s : State) (a : Word) : (s.setAcc a).arg1 = s.arg1 := rfl
@[simp] theorem State.setAcc_res0 (s : State) (a : Word) : (s.setAcc a).res0 = s.res0 := rfl
@[simp] theorem State.setAcc_res1 (s : State) (a : Word) : (s.setAcc a).res1 = s.res1 := rfl
@[simp] theorem State.setAcc_code (s : State) (a : Word) : (s.setAcc a).code = s.code := rfl
@[simp] theorem State.setAcc_cause (s : State) (a : Word) : (s.setAcc a).cause = s.cause := rfl
@[simp] theorem State.setAcc_isOpen (s : State) (a : Word) : (s.setAcc a).isOpen = s.isOpen := rfl
@[simp] theorem State.setAcc_sstate (s : State) (a : Word) : (s.setAcc a).sstate = s.sstate := rfl
@[simp] theorem State.setAcc_werr (s : State) (a : Word) : (s.setAcc a).werr = s.werr := rfl
@[simp] theorem State.setAcc_fxMissing (s : State) (a : Word) : (s.setAcc a).fxMissing = s.fxMissing := rfl
@[simp] theorem State.setAcc_fxNan (s : State) (a : Word) : (s.setAcc a).fxNan = s.fxNan := rfl
@[simp] theorem State.setAcc_nbyte (s : State) (a : Word) : (s.setAcc a).nbyte = s.nbyte := rfl
@[simp] theorem State.setAcc_flen (s : State) (a : Word) : (s.setAcc a).flen = s.flen := rfl
@[simp] theorem State.setAcc_ftype (s : State) (a : Word) : (s.setAcc a).ftype = s.ftype := rfl
@[simp] theorem State.setAcc_fdecIdx (s : State) (a : Word) : (s.setAcc a).fdecIdx = s.fdecIdx := rfl
@[simp] theorem State.setAcc_fdecHit (s : State) (a : Word) : (s.setAcc a).fdecHit = s.fdecHit := rfl
@[simp] theorem State.setAcc_obsN (s : State) (a : Word) : (s.setAcc a).obsN = s.obsN := rfl
@[simp] theorem State.setAcc_stgN (s : State) (a : Word) : (s.setAcc a).stgN = s.stgN := rfl
@[simp] theorem State.setAcc_timeLo (s : State) (a : Word) : (s.setAcc a).timeLo = s.timeLo := rfl
@[simp] theorem State.setAcc_timeHi (s : State) (a : Word) : (s.setAcc a).timeHi = s.timeHi := rfl
@[simp] theorem State.setAcc_cka (s : State) (a : Word) : (s.setAcc a).cka = s.cka := rfl
@[simp] theorem State.setAcc_ckf (s : State) (a : Word) : (s.setAcc a).ckf = s.ckf := rfl
@[simp] theorem State.setAcc_acc (s : State) (a : Word) : (s.setAcc a).acc = a := rfl
@[simp] theorem State.setAcc_cfg (s : State) (a : Word) : (s.setAcc a).cfg = s.cfg := rfl
@[simp] theorem State.setAcc_win (s : State) (a : Word) : (s.setAcc a).win = s.win := rfl
@[simp] theorem State.setAcc_wcnt (s : State) (a : Word) : (s.setAcc a).wcnt = s.wcnt := rfl
@[simp] theorem State.setAcc_buf (s : State) (a : Word) : (s.setAcc a).buf = s.buf := rfl
@[simp] theorem State.setAcc_obs (s : State) (a : Word) : (s.setAcc a).obs = s.obs := rfl
@[simp] theorem State.setAcc_obuf (s : State) (a : Word) : (s.setAcc a).obuf = s.obuf := rfl
@[simp] theorem State.setAcc_lk (s : State) (a : Word) : (s.setAcc a).lk = s.lk := rfl
@[simp] theorem State.setAcc_bus (s : State) (a : Word) : (s.setAcc a).bus = s.bus := rfl
@[simp] theorem State.setAcc_reply (s : State) (a : Word) : (s.setAcc a).reply = s.reply := rfl
@[simp] theorem State.setAcc_freeCount (s : State) (a : Word) : (s.setAcc a).freeCount = s.freeCount := rfl

/-! ## The reset state -/

@[simp] theorem State.resetOf_params (p : Params) : (State.resetOf p).params = p := rfl
@[simp] theorem State.resetOf_arg0 (p : Params) : (State.resetOf p).arg0 = 0 := rfl
@[simp] theorem State.resetOf_arg1 (p : Params) : (State.resetOf p).arg1 = 0 := rfl
@[simp] theorem State.resetOf_res0 (p : Params) : (State.resetOf p).res0 = 0 := rfl
@[simp] theorem State.resetOf_res1 (p : Params) : (State.resetOf p).res1 = 0 := rfl
@[simp] theorem State.resetOf_code (p : Params) : (State.resetOf p).code = .ok := rfl
@[simp] theorem State.resetOf_cause (p : Params) : (State.resetOf p).cause = .none := rfl
@[simp] theorem State.resetOf_isOpen (p : Params) : (State.resetOf p).isOpen = false := rfl
@[simp] theorem State.resetOf_sstate (p : Params) : (State.resetOf p).sstate = .seeking := rfl
@[simp] theorem State.resetOf_werr (p : Params) : (State.resetOf p).werr = false := rfl
@[simp] theorem State.resetOf_fxMissing (p : Params) : (State.resetOf p).fxMissing = false := rfl
@[simp] theorem State.resetOf_fxNan (p : Params) : (State.resetOf p).fxNan = false := rfl
@[simp] theorem State.resetOf_nbyte (p : Params) : (State.resetOf p).nbyte = 0 := rfl
@[simp] theorem State.resetOf_flen (p : Params) : (State.resetOf p).flen = 0 := rfl
@[simp] theorem State.resetOf_ftype (p : Params) : (State.resetOf p).ftype = 0 := rfl
@[simp] theorem State.resetOf_fdecIdx (p : Params) : (State.resetOf p).fdecIdx = 0 := rfl
@[simp] theorem State.resetOf_fdecHit (p : Params) : (State.resetOf p).fdecHit = false := rfl
@[simp] theorem State.resetOf_obsN (p : Params) : (State.resetOf p).obsN = 0 := rfl
@[simp] theorem State.resetOf_stgN (p : Params) : (State.resetOf p).stgN = 0 := rfl
@[simp] theorem State.resetOf_timeLo (p : Params) : (State.resetOf p).timeLo = 0 := rfl
@[simp] theorem State.resetOf_timeHi (p : Params) : (State.resetOf p).timeHi = 0 := rfl
@[simp] theorem State.resetOf_cka (p : Params) : (State.resetOf p).cka = none := rfl
@[simp] theorem State.resetOf_ckf (p : Params) : (State.resetOf p).ckf = false := rfl
@[simp] theorem State.resetOf_acc (p : Params) : (State.resetOf p).acc = 0 := rfl
@[simp] theorem State.resetOf_cfg (p : Params) : (State.resetOf p).cfg = CfgRegs.reset p := rfl
@[simp] theorem State.resetOf_win (p : Params) : (State.resetOf p).win = zeroWin := rfl
@[simp] theorem State.resetOf_wcnt (p : Params) : (State.resetOf p).wcnt = 0 := rfl
@[simp] theorem State.resetOf_buf (p : Params) : (State.resetOf p).buf = [] := rfl
@[simp] theorem State.resetOf_obs (p : Params) : (State.resetOf p).obs = zeroRecords p := rfl
@[simp] theorem State.resetOf_obuf (p : Params) : (State.resetOf p).obuf = zeroRecords p := rfl
@[simp] theorem State.resetOf_lk (p : Params) : (State.resetOf p).lk = zeroLk p := rfl
@[simp] theorem State.resetOf_bus (p : Params) : (State.resetOf p).bus = [] := rfl
@[simp] theorem State.resetOf_reply (p : Params) : (State.resetOf p).reply = none := rfl
@[simp] theorem State.resetOf_freeCount (p : Params) : (State.resetOf p).freeCount = 0 := rfl

/-! ## The CFG fields read only `cfg` and `params` -/

theorem State.syncLen_congr (s t : State) (h : t.cfg = s.cfg) : t.syncLen = s.syncLen := by
  simp only [State.syncLen, h]
theorem State.pattern_congr (s t : State) (h : t.cfg = s.cfg) : t.pattern = s.pattern := by
  simp only [State.pattern, h]
theorem State.hdrLen_congr (s t : State) (h : t.cfg = s.cfg) : t.hdrLen = s.hdrLen := by
  simp only [State.hdrLen, h]
theorem State.lenOff_congr (s t : State) (h : t.cfg = s.cfg) : t.lenOff = s.lenOff := by
  simp only [State.lenOff, h]
theorem State.lenEnc_congr (s t : State) (h : t.cfg = s.cfg) : t.lenEnc = s.lenEnc := by
  simp only [State.lenEnc, h]
theorem State.ckAlgNum_congr (s t : State) (h : t.cfg = s.cfg) : t.ckAlgNum = s.ckAlgNum := by
  simp only [State.ckAlgNum, h]
theorem State.ckAlg_congr (s t : State) (h : t.cfg = s.cfg) : t.ckAlg = s.ckAlg := by
  simp only [State.ckAlg, h]
theorem State.ckIncl_congr (s t : State) (h : t.cfg = s.cfg) : t.ckIncl = s.ckIncl := by
  simp only [State.ckIncl, h]
theorem State.ckRotf_congr (s t : State) (h : t.cfg = s.cfg) : t.ckRotf = s.ckRotf := by
  simp only [State.ckRotf, h]
theorem State.ckStart_congr (s t : State) (h : t.cfg = s.cfg) : t.ckStart = s.ckStart := by
  simp only [State.ckStart, h]
theorem State.trl_congr (s t : State) (h : t.cfg = s.cfg) : t.trl = s.trl := by
  simp only [State.trl, State.ckAlg, h]
theorem State.typeOff_congr (s t : State) (h : t.cfg = s.cfg) : t.typeOff = s.typeOff := by
  simp only [State.typeOff, h]
theorem State.typeW_congr (s t : State) (h : t.cfg = s.cfg) : t.typeW = s.typeW := by
  simp only [State.typeW, h]
theorem State.typeEndian_congr (s t : State) (h : t.cfg = s.cfg) : t.typeEndian = s.typeEndian := by
  simp only [State.typeEndian, h]
theorem State.tfEn_congr (s t : State) (h : t.cfg = s.cfg) : t.tfEn = s.tfEn := by
  simp only [State.tfEn, h]
theorem State.frameMax_congr (s t : State) (h : t.cfg = s.cfg) : t.frameMax = s.frameMax := by
  simp only [State.frameMax, h]
theorem State.lkGe_congr (s t : State) (h : t.cfg = s.cfg) : t.lkGe = s.lkGe := by
  simp only [State.lkGe, h]
theorem State.sent_congr (s t : State) (h : t.cfg = s.cfg) : t.sent = s.sent := by
  simp only [State.sent, h]
theorem State.cfgLegal_congr (s t : State) (h : t.cfg = s.cfg) (hp : t.params = s.params) : t.cfgLegal = s.cfgLegal := by
  cases s; cases t; cases h; cases hp; rfl

/-! ## The CFG fields through the updates: no command writes a CFG register -/

@[simp] theorem State.finish_syncLen (s : State) (c : Code) (k : Cause) : (s.finish c k).syncLen = s.syncLen := rfl
@[simp] theorem State.finish_pattern (s : State) (c : Code) (k : Cause) : (s.finish c k).pattern = s.pattern := rfl
@[simp] theorem State.finish_hdrLen (s : State) (c : Code) (k : Cause) : (s.finish c k).hdrLen = s.hdrLen := rfl
@[simp] theorem State.finish_lenOff (s : State) (c : Code) (k : Cause) : (s.finish c k).lenOff = s.lenOff := rfl
@[simp] theorem State.finish_lenEnc (s : State) (c : Code) (k : Cause) : (s.finish c k).lenEnc = s.lenEnc := rfl
@[simp] theorem State.finish_ckAlgNum (s : State) (c : Code) (k : Cause) : (s.finish c k).ckAlgNum = s.ckAlgNum := rfl
@[simp] theorem State.finish_ckAlg (s : State) (c : Code) (k : Cause) : (s.finish c k).ckAlg = s.ckAlg := rfl
@[simp] theorem State.finish_ckIncl (s : State) (c : Code) (k : Cause) : (s.finish c k).ckIncl = s.ckIncl := rfl
@[simp] theorem State.finish_ckRotf (s : State) (c : Code) (k : Cause) : (s.finish c k).ckRotf = s.ckRotf := rfl
@[simp] theorem State.finish_ckStart (s : State) (c : Code) (k : Cause) : (s.finish c k).ckStart = s.ckStart := rfl
@[simp] theorem State.finish_trl (s : State) (c : Code) (k : Cause) : (s.finish c k).trl = s.trl := rfl
@[simp] theorem State.finish_typeOff (s : State) (c : Code) (k : Cause) : (s.finish c k).typeOff = s.typeOff := rfl
@[simp] theorem State.finish_typeW (s : State) (c : Code) (k : Cause) : (s.finish c k).typeW = s.typeW := rfl
@[simp] theorem State.finish_typeEndian (s : State) (c : Code) (k : Cause) : (s.finish c k).typeEndian = s.typeEndian := rfl
@[simp] theorem State.finish_tfEn (s : State) (c : Code) (k : Cause) : (s.finish c k).tfEn = s.tfEn := rfl
@[simp] theorem State.finish_frameMax (s : State) (c : Code) (k : Cause) : (s.finish c k).frameMax = s.frameMax := rfl
@[simp] theorem State.finish_lkGe (s : State) (c : Code) (k : Cause) : (s.finish c k).lkGe = s.lkGe := rfl
@[simp] theorem State.finish_sent (s : State) (c : Code) (k : Cause) : (s.finish c k).sent = s.sent := rfl
@[simp] theorem State.finish_cfgLegal (s : State) (c : Code) (k : Cause) : (s.finish c k).cfgLegal = s.cfgLegal := rfl
@[simp] theorem State.finish_time (s : State) (c : Code) (k : Cause) : (s.finish c k).time = s.time := rfl
@[simp] theorem State.finish_zeroRec (s : State) (c : Code) (k : Cause) : (s.finish c k).zeroRec = s.zeroRec := rfl
@[simp] theorem State.setRes_syncLen (s : State) (v : DWord) : (s.setRes v).syncLen = s.syncLen := rfl
@[simp] theorem State.setRes_pattern (s : State) (v : DWord) : (s.setRes v).pattern = s.pattern := rfl
@[simp] theorem State.setRes_hdrLen (s : State) (v : DWord) : (s.setRes v).hdrLen = s.hdrLen := rfl
@[simp] theorem State.setRes_lenOff (s : State) (v : DWord) : (s.setRes v).lenOff = s.lenOff := rfl
@[simp] theorem State.setRes_lenEnc (s : State) (v : DWord) : (s.setRes v).lenEnc = s.lenEnc := rfl
@[simp] theorem State.setRes_ckAlgNum (s : State) (v : DWord) : (s.setRes v).ckAlgNum = s.ckAlgNum := rfl
@[simp] theorem State.setRes_ckAlg (s : State) (v : DWord) : (s.setRes v).ckAlg = s.ckAlg := rfl
@[simp] theorem State.setRes_ckIncl (s : State) (v : DWord) : (s.setRes v).ckIncl = s.ckIncl := rfl
@[simp] theorem State.setRes_ckRotf (s : State) (v : DWord) : (s.setRes v).ckRotf = s.ckRotf := rfl
@[simp] theorem State.setRes_ckStart (s : State) (v : DWord) : (s.setRes v).ckStart = s.ckStart := rfl
@[simp] theorem State.setRes_trl (s : State) (v : DWord) : (s.setRes v).trl = s.trl := rfl
@[simp] theorem State.setRes_typeOff (s : State) (v : DWord) : (s.setRes v).typeOff = s.typeOff := rfl
@[simp] theorem State.setRes_typeW (s : State) (v : DWord) : (s.setRes v).typeW = s.typeW := rfl
@[simp] theorem State.setRes_typeEndian (s : State) (v : DWord) : (s.setRes v).typeEndian = s.typeEndian := rfl
@[simp] theorem State.setRes_tfEn (s : State) (v : DWord) : (s.setRes v).tfEn = s.tfEn := rfl
@[simp] theorem State.setRes_frameMax (s : State) (v : DWord) : (s.setRes v).frameMax = s.frameMax := rfl
@[simp] theorem State.setRes_lkGe (s : State) (v : DWord) : (s.setRes v).lkGe = s.lkGe := rfl
@[simp] theorem State.setRes_sent (s : State) (v : DWord) : (s.setRes v).sent = s.sent := rfl
@[simp] theorem State.setRes_cfgLegal (s : State) (v : DWord) : (s.setRes v).cfgLegal = s.cfgLegal := rfl
@[simp] theorem State.setRes_time (s : State) (v : DWord) : (s.setRes v).time = s.time := rfl
@[simp] theorem State.setRes_zeroRec (s : State) (v : DWord) : (s.setRes v).zeroRec = s.zeroRec := rfl
@[simp] theorem State.setFxf_syncLen (s : State) (m n : Bool) : (s.setFxf m n).syncLen = s.syncLen := rfl
@[simp] theorem State.setFxf_pattern (s : State) (m n : Bool) : (s.setFxf m n).pattern = s.pattern := rfl
@[simp] theorem State.setFxf_hdrLen (s : State) (m n : Bool) : (s.setFxf m n).hdrLen = s.hdrLen := rfl
@[simp] theorem State.setFxf_lenOff (s : State) (m n : Bool) : (s.setFxf m n).lenOff = s.lenOff := rfl
@[simp] theorem State.setFxf_lenEnc (s : State) (m n : Bool) : (s.setFxf m n).lenEnc = s.lenEnc := rfl
@[simp] theorem State.setFxf_ckAlgNum (s : State) (m n : Bool) : (s.setFxf m n).ckAlgNum = s.ckAlgNum := rfl
@[simp] theorem State.setFxf_ckAlg (s : State) (m n : Bool) : (s.setFxf m n).ckAlg = s.ckAlg := rfl
@[simp] theorem State.setFxf_ckIncl (s : State) (m n : Bool) : (s.setFxf m n).ckIncl = s.ckIncl := rfl
@[simp] theorem State.setFxf_ckRotf (s : State) (m n : Bool) : (s.setFxf m n).ckRotf = s.ckRotf := rfl
@[simp] theorem State.setFxf_ckStart (s : State) (m n : Bool) : (s.setFxf m n).ckStart = s.ckStart := rfl
@[simp] theorem State.setFxf_trl (s : State) (m n : Bool) : (s.setFxf m n).trl = s.trl := rfl
@[simp] theorem State.setFxf_typeOff (s : State) (m n : Bool) : (s.setFxf m n).typeOff = s.typeOff := rfl
@[simp] theorem State.setFxf_typeW (s : State) (m n : Bool) : (s.setFxf m n).typeW = s.typeW := rfl
@[simp] theorem State.setFxf_typeEndian (s : State) (m n : Bool) : (s.setFxf m n).typeEndian = s.typeEndian := rfl
@[simp] theorem State.setFxf_tfEn (s : State) (m n : Bool) : (s.setFxf m n).tfEn = s.tfEn := rfl
@[simp] theorem State.setFxf_frameMax (s : State) (m n : Bool) : (s.setFxf m n).frameMax = s.frameMax := rfl
@[simp] theorem State.setFxf_lkGe (s : State) (m n : Bool) : (s.setFxf m n).lkGe = s.lkGe := rfl
@[simp] theorem State.setFxf_sent (s : State) (m n : Bool) : (s.setFxf m n).sent = s.sent := rfl
@[simp] theorem State.setFxf_cfgLegal (s : State) (m n : Bool) : (s.setFxf m n).cfgLegal = s.cfgLegal := rfl
@[simp] theorem State.setFxf_time (s : State) (m n : Bool) : (s.setFxf m n).time = s.time := rfl
@[simp] theorem State.setFxf_zeroRec (s : State) (m n : Bool) : (s.setFxf m n).zeroRec = s.zeroRec := rfl
@[simp] theorem State.syncReset_syncLen (s : State) : (s.syncReset).syncLen = s.syncLen := rfl
@[simp] theorem State.syncReset_pattern (s : State) : (s.syncReset).pattern = s.pattern := rfl
@[simp] theorem State.syncReset_hdrLen (s : State) : (s.syncReset).hdrLen = s.hdrLen := rfl
@[simp] theorem State.syncReset_lenOff (s : State) : (s.syncReset).lenOff = s.lenOff := rfl
@[simp] theorem State.syncReset_lenEnc (s : State) : (s.syncReset).lenEnc = s.lenEnc := rfl
@[simp] theorem State.syncReset_ckAlgNum (s : State) : (s.syncReset).ckAlgNum = s.ckAlgNum := rfl
@[simp] theorem State.syncReset_ckAlg (s : State) : (s.syncReset).ckAlg = s.ckAlg := rfl
@[simp] theorem State.syncReset_ckIncl (s : State) : (s.syncReset).ckIncl = s.ckIncl := rfl
@[simp] theorem State.syncReset_ckRotf (s : State) : (s.syncReset).ckRotf = s.ckRotf := rfl
@[simp] theorem State.syncReset_ckStart (s : State) : (s.syncReset).ckStart = s.ckStart := rfl
@[simp] theorem State.syncReset_trl (s : State) : (s.syncReset).trl = s.trl := rfl
@[simp] theorem State.syncReset_typeOff (s : State) : (s.syncReset).typeOff = s.typeOff := rfl
@[simp] theorem State.syncReset_typeW (s : State) : (s.syncReset).typeW = s.typeW := rfl
@[simp] theorem State.syncReset_typeEndian (s : State) : (s.syncReset).typeEndian = s.typeEndian := rfl
@[simp] theorem State.syncReset_tfEn (s : State) : (s.syncReset).tfEn = s.tfEn := rfl
@[simp] theorem State.syncReset_frameMax (s : State) : (s.syncReset).frameMax = s.frameMax := rfl
@[simp] theorem State.syncReset_lkGe (s : State) : (s.syncReset).lkGe = s.lkGe := rfl
@[simp] theorem State.syncReset_sent (s : State) : (s.syncReset).sent = s.sent := rfl
@[simp] theorem State.syncReset_cfgLegal (s : State) : (s.syncReset).cfgLegal = s.cfgLegal := rfl
@[simp] theorem State.syncReset_time (s : State) : (s.syncReset).time = s.time := rfl
@[simp] theorem State.syncReset_zeroRec (s : State) : (s.syncReset).zeroRec = s.zeroRec := rfl
@[simp] theorem State.putByte_syncLen (s : State) (b : Byte) : (s.putByte b).syncLen = s.syncLen := rfl
@[simp] theorem State.putByte_pattern (s : State) (b : Byte) : (s.putByte b).pattern = s.pattern := rfl
@[simp] theorem State.putByte_hdrLen (s : State) (b : Byte) : (s.putByte b).hdrLen = s.hdrLen := rfl
@[simp] theorem State.putByte_lenOff (s : State) (b : Byte) : (s.putByte b).lenOff = s.lenOff := rfl
@[simp] theorem State.putByte_lenEnc (s : State) (b : Byte) : (s.putByte b).lenEnc = s.lenEnc := rfl
@[simp] theorem State.putByte_ckAlgNum (s : State) (b : Byte) : (s.putByte b).ckAlgNum = s.ckAlgNum := rfl
@[simp] theorem State.putByte_ckAlg (s : State) (b : Byte) : (s.putByte b).ckAlg = s.ckAlg := rfl
@[simp] theorem State.putByte_ckIncl (s : State) (b : Byte) : (s.putByte b).ckIncl = s.ckIncl := rfl
@[simp] theorem State.putByte_ckRotf (s : State) (b : Byte) : (s.putByte b).ckRotf = s.ckRotf := rfl
@[simp] theorem State.putByte_ckStart (s : State) (b : Byte) : (s.putByte b).ckStart = s.ckStart := rfl
@[simp] theorem State.putByte_trl (s : State) (b : Byte) : (s.putByte b).trl = s.trl := rfl
@[simp] theorem State.putByte_typeOff (s : State) (b : Byte) : (s.putByte b).typeOff = s.typeOff := rfl
@[simp] theorem State.putByte_typeW (s : State) (b : Byte) : (s.putByte b).typeW = s.typeW := rfl
@[simp] theorem State.putByte_typeEndian (s : State) (b : Byte) : (s.putByte b).typeEndian = s.typeEndian := rfl
@[simp] theorem State.putByte_tfEn (s : State) (b : Byte) : (s.putByte b).tfEn = s.tfEn := rfl
@[simp] theorem State.putByte_frameMax (s : State) (b : Byte) : (s.putByte b).frameMax = s.frameMax := rfl
@[simp] theorem State.putByte_lkGe (s : State) (b : Byte) : (s.putByte b).lkGe = s.lkGe := rfl
@[simp] theorem State.putByte_sent (s : State) (b : Byte) : (s.putByte b).sent = s.sent := rfl
@[simp] theorem State.putByte_cfgLegal (s : State) (b : Byte) : (s.putByte b).cfgLegal = s.cfgLegal := rfl
@[simp] theorem State.putByte_time (s : State) (b : Byte) : (s.putByte b).time = s.time := rfl
@[simp] theorem State.putByte_zeroRec (s : State) (b : Byte) : (s.putByte b).zeroRec = s.zeroRec := rfl
@[simp] theorem State.beginFrame_syncLen (s : State) (w : List Byte) : (s.beginFrame w).syncLen = s.syncLen := rfl
@[simp] theorem State.beginFrame_pattern (s : State) (w : List Byte) : (s.beginFrame w).pattern = s.pattern := rfl
@[simp] theorem State.beginFrame_hdrLen (s : State) (w : List Byte) : (s.beginFrame w).hdrLen = s.hdrLen := rfl
@[simp] theorem State.beginFrame_lenOff (s : State) (w : List Byte) : (s.beginFrame w).lenOff = s.lenOff := rfl
@[simp] theorem State.beginFrame_lenEnc (s : State) (w : List Byte) : (s.beginFrame w).lenEnc = s.lenEnc := rfl
@[simp] theorem State.beginFrame_ckAlgNum (s : State) (w : List Byte) : (s.beginFrame w).ckAlgNum = s.ckAlgNum := rfl
@[simp] theorem State.beginFrame_ckAlg (s : State) (w : List Byte) : (s.beginFrame w).ckAlg = s.ckAlg := rfl
@[simp] theorem State.beginFrame_ckIncl (s : State) (w : List Byte) : (s.beginFrame w).ckIncl = s.ckIncl := rfl
@[simp] theorem State.beginFrame_ckRotf (s : State) (w : List Byte) : (s.beginFrame w).ckRotf = s.ckRotf := rfl
@[simp] theorem State.beginFrame_ckStart (s : State) (w : List Byte) : (s.beginFrame w).ckStart = s.ckStart := rfl
@[simp] theorem State.beginFrame_trl (s : State) (w : List Byte) : (s.beginFrame w).trl = s.trl := rfl
@[simp] theorem State.beginFrame_typeOff (s : State) (w : List Byte) : (s.beginFrame w).typeOff = s.typeOff := rfl
@[simp] theorem State.beginFrame_typeW (s : State) (w : List Byte) : (s.beginFrame w).typeW = s.typeW := rfl
@[simp] theorem State.beginFrame_typeEndian (s : State) (w : List Byte) : (s.beginFrame w).typeEndian = s.typeEndian := rfl
@[simp] theorem State.beginFrame_tfEn (s : State) (w : List Byte) : (s.beginFrame w).tfEn = s.tfEn := rfl
@[simp] theorem State.beginFrame_frameMax (s : State) (w : List Byte) : (s.beginFrame w).frameMax = s.frameMax := rfl
@[simp] theorem State.beginFrame_lkGe (s : State) (w : List Byte) : (s.beginFrame w).lkGe = s.lkGe := rfl
@[simp] theorem State.beginFrame_sent (s : State) (w : List Byte) : (s.beginFrame w).sent = s.sent := rfl
@[simp] theorem State.beginFrame_cfgLegal (s : State) (w : List Byte) : (s.beginFrame w).cfgLegal = s.cfgLegal := rfl
@[simp] theorem State.beginFrame_time (s : State) (w : List Byte) : (s.beginFrame w).time = s.time := rfl
@[simp] theorem State.beginFrame_zeroRec (s : State) (w : List Byte) : (s.beginFrame w).zeroRec = s.zeroRec := rfl
@[simp] theorem State.holdFrame_syncLen (s : State) (j : BitVec 4) (h : Bool) : (s.holdFrame j h).syncLen = s.syncLen := rfl
@[simp] theorem State.holdFrame_pattern (s : State) (j : BitVec 4) (h : Bool) : (s.holdFrame j h).pattern = s.pattern := rfl
@[simp] theorem State.holdFrame_hdrLen (s : State) (j : BitVec 4) (h : Bool) : (s.holdFrame j h).hdrLen = s.hdrLen := rfl
@[simp] theorem State.holdFrame_lenOff (s : State) (j : BitVec 4) (h : Bool) : (s.holdFrame j h).lenOff = s.lenOff := rfl
@[simp] theorem State.holdFrame_lenEnc (s : State) (j : BitVec 4) (h : Bool) : (s.holdFrame j h).lenEnc = s.lenEnc := rfl
@[simp] theorem State.holdFrame_ckAlgNum (s : State) (j : BitVec 4) (h : Bool) : (s.holdFrame j h).ckAlgNum = s.ckAlgNum := rfl
@[simp] theorem State.holdFrame_ckAlg (s : State) (j : BitVec 4) (h : Bool) : (s.holdFrame j h).ckAlg = s.ckAlg := rfl
@[simp] theorem State.holdFrame_ckIncl (s : State) (j : BitVec 4) (h : Bool) : (s.holdFrame j h).ckIncl = s.ckIncl := rfl
@[simp] theorem State.holdFrame_ckRotf (s : State) (j : BitVec 4) (h : Bool) : (s.holdFrame j h).ckRotf = s.ckRotf := rfl
@[simp] theorem State.holdFrame_ckStart (s : State) (j : BitVec 4) (h : Bool) : (s.holdFrame j h).ckStart = s.ckStart := rfl
@[simp] theorem State.holdFrame_trl (s : State) (j : BitVec 4) (h : Bool) : (s.holdFrame j h).trl = s.trl := rfl
@[simp] theorem State.holdFrame_typeOff (s : State) (j : BitVec 4) (h : Bool) : (s.holdFrame j h).typeOff = s.typeOff := rfl
@[simp] theorem State.holdFrame_typeW (s : State) (j : BitVec 4) (h : Bool) : (s.holdFrame j h).typeW = s.typeW := rfl
@[simp] theorem State.holdFrame_typeEndian (s : State) (j : BitVec 4) (h : Bool) : (s.holdFrame j h).typeEndian = s.typeEndian := rfl
@[simp] theorem State.holdFrame_tfEn (s : State) (j : BitVec 4) (h : Bool) : (s.holdFrame j h).tfEn = s.tfEn := rfl
@[simp] theorem State.holdFrame_frameMax (s : State) (j : BitVec 4) (h : Bool) : (s.holdFrame j h).frameMax = s.frameMax := rfl
@[simp] theorem State.holdFrame_lkGe (s : State) (j : BitVec 4) (h : Bool) : (s.holdFrame j h).lkGe = s.lkGe := rfl
@[simp] theorem State.holdFrame_sent (s : State) (j : BitVec 4) (h : Bool) : (s.holdFrame j h).sent = s.sent := rfl
@[simp] theorem State.holdFrame_cfgLegal (s : State) (j : BitVec 4) (h : Bool) : (s.holdFrame j h).cfgLegal = s.cfgLegal := rfl
@[simp] theorem State.holdFrame_time (s : State) (j : BitVec 4) (h : Bool) : (s.holdFrame j h).time = s.time := rfl
@[simp] theorem State.holdFrame_zeroRec (s : State) (j : BitVec 4) (h : Bool) : (s.holdFrame j h).zeroRec = s.zeroRec := rfl
@[simp] theorem State.setObs_syncLen (s : State) (a : List Rec) (n : Byte) : (s.setObs a n).syncLen = s.syncLen := rfl
@[simp] theorem State.setObs_pattern (s : State) (a : List Rec) (n : Byte) : (s.setObs a n).pattern = s.pattern := rfl
@[simp] theorem State.setObs_hdrLen (s : State) (a : List Rec) (n : Byte) : (s.setObs a n).hdrLen = s.hdrLen := rfl
@[simp] theorem State.setObs_lenOff (s : State) (a : List Rec) (n : Byte) : (s.setObs a n).lenOff = s.lenOff := rfl
@[simp] theorem State.setObs_lenEnc (s : State) (a : List Rec) (n : Byte) : (s.setObs a n).lenEnc = s.lenEnc := rfl
@[simp] theorem State.setObs_ckAlgNum (s : State) (a : List Rec) (n : Byte) : (s.setObs a n).ckAlgNum = s.ckAlgNum := rfl
@[simp] theorem State.setObs_ckAlg (s : State) (a : List Rec) (n : Byte) : (s.setObs a n).ckAlg = s.ckAlg := rfl
@[simp] theorem State.setObs_ckIncl (s : State) (a : List Rec) (n : Byte) : (s.setObs a n).ckIncl = s.ckIncl := rfl
@[simp] theorem State.setObs_ckRotf (s : State) (a : List Rec) (n : Byte) : (s.setObs a n).ckRotf = s.ckRotf := rfl
@[simp] theorem State.setObs_ckStart (s : State) (a : List Rec) (n : Byte) : (s.setObs a n).ckStart = s.ckStart := rfl
@[simp] theorem State.setObs_trl (s : State) (a : List Rec) (n : Byte) : (s.setObs a n).trl = s.trl := rfl
@[simp] theorem State.setObs_typeOff (s : State) (a : List Rec) (n : Byte) : (s.setObs a n).typeOff = s.typeOff := rfl
@[simp] theorem State.setObs_typeW (s : State) (a : List Rec) (n : Byte) : (s.setObs a n).typeW = s.typeW := rfl
@[simp] theorem State.setObs_typeEndian (s : State) (a : List Rec) (n : Byte) : (s.setObs a n).typeEndian = s.typeEndian := rfl
@[simp] theorem State.setObs_tfEn (s : State) (a : List Rec) (n : Byte) : (s.setObs a n).tfEn = s.tfEn := rfl
@[simp] theorem State.setObs_frameMax (s : State) (a : List Rec) (n : Byte) : (s.setObs a n).frameMax = s.frameMax := rfl
@[simp] theorem State.setObs_lkGe (s : State) (a : List Rec) (n : Byte) : (s.setObs a n).lkGe = s.lkGe := rfl
@[simp] theorem State.setObs_sent (s : State) (a : List Rec) (n : Byte) : (s.setObs a n).sent = s.sent := rfl
@[simp] theorem State.setObs_cfgLegal (s : State) (a : List Rec) (n : Byte) : (s.setObs a n).cfgLegal = s.cfgLegal := rfl
@[simp] theorem State.setObs_time (s : State) (a : List Rec) (n : Byte) : (s.setObs a n).time = s.time := rfl
@[simp] theorem State.setObs_zeroRec (s : State) (a : List Rec) (n : Byte) : (s.setObs a n).zeroRec = s.zeroRec := rfl
@[simp] theorem State.setStaged_syncLen (s : State) (a : List Rec) (n : Byte) : (s.setStaged a n).syncLen = s.syncLen := rfl
@[simp] theorem State.setStaged_pattern (s : State) (a : List Rec) (n : Byte) : (s.setStaged a n).pattern = s.pattern := rfl
@[simp] theorem State.setStaged_hdrLen (s : State) (a : List Rec) (n : Byte) : (s.setStaged a n).hdrLen = s.hdrLen := rfl
@[simp] theorem State.setStaged_lenOff (s : State) (a : List Rec) (n : Byte) : (s.setStaged a n).lenOff = s.lenOff := rfl
@[simp] theorem State.setStaged_lenEnc (s : State) (a : List Rec) (n : Byte) : (s.setStaged a n).lenEnc = s.lenEnc := rfl
@[simp] theorem State.setStaged_ckAlgNum (s : State) (a : List Rec) (n : Byte) : (s.setStaged a n).ckAlgNum = s.ckAlgNum := rfl
@[simp] theorem State.setStaged_ckAlg (s : State) (a : List Rec) (n : Byte) : (s.setStaged a n).ckAlg = s.ckAlg := rfl
@[simp] theorem State.setStaged_ckIncl (s : State) (a : List Rec) (n : Byte) : (s.setStaged a n).ckIncl = s.ckIncl := rfl
@[simp] theorem State.setStaged_ckRotf (s : State) (a : List Rec) (n : Byte) : (s.setStaged a n).ckRotf = s.ckRotf := rfl
@[simp] theorem State.setStaged_ckStart (s : State) (a : List Rec) (n : Byte) : (s.setStaged a n).ckStart = s.ckStart := rfl
@[simp] theorem State.setStaged_trl (s : State) (a : List Rec) (n : Byte) : (s.setStaged a n).trl = s.trl := rfl
@[simp] theorem State.setStaged_typeOff (s : State) (a : List Rec) (n : Byte) : (s.setStaged a n).typeOff = s.typeOff := rfl
@[simp] theorem State.setStaged_typeW (s : State) (a : List Rec) (n : Byte) : (s.setStaged a n).typeW = s.typeW := rfl
@[simp] theorem State.setStaged_typeEndian (s : State) (a : List Rec) (n : Byte) : (s.setStaged a n).typeEndian = s.typeEndian := rfl
@[simp] theorem State.setStaged_tfEn (s : State) (a : List Rec) (n : Byte) : (s.setStaged a n).tfEn = s.tfEn := rfl
@[simp] theorem State.setStaged_frameMax (s : State) (a : List Rec) (n : Byte) : (s.setStaged a n).frameMax = s.frameMax := rfl
@[simp] theorem State.setStaged_lkGe (s : State) (a : List Rec) (n : Byte) : (s.setStaged a n).lkGe = s.lkGe := rfl
@[simp] theorem State.setStaged_sent (s : State) (a : List Rec) (n : Byte) : (s.setStaged a n).sent = s.sent := rfl
@[simp] theorem State.setStaged_cfgLegal (s : State) (a : List Rec) (n : Byte) : (s.setStaged a n).cfgLegal = s.cfgLegal := rfl
@[simp] theorem State.setStaged_time (s : State) (a : List Rec) (n : Byte) : (s.setStaged a n).time = s.time := rfl
@[simp] theorem State.setStaged_zeroRec (s : State) (a : List Rec) (n : Byte) : (s.setStaged a n).zeroRec = s.zeroRec := rfl
@[simp] theorem State.clearStaged_syncLen (s : State) (n : Byte) : (s.clearStaged n).syncLen = s.syncLen := rfl
@[simp] theorem State.clearStaged_pattern (s : State) (n : Byte) : (s.clearStaged n).pattern = s.pattern := rfl
@[simp] theorem State.clearStaged_hdrLen (s : State) (n : Byte) : (s.clearStaged n).hdrLen = s.hdrLen := rfl
@[simp] theorem State.clearStaged_lenOff (s : State) (n : Byte) : (s.clearStaged n).lenOff = s.lenOff := rfl
@[simp] theorem State.clearStaged_lenEnc (s : State) (n : Byte) : (s.clearStaged n).lenEnc = s.lenEnc := rfl
@[simp] theorem State.clearStaged_ckAlgNum (s : State) (n : Byte) : (s.clearStaged n).ckAlgNum = s.ckAlgNum := rfl
@[simp] theorem State.clearStaged_ckAlg (s : State) (n : Byte) : (s.clearStaged n).ckAlg = s.ckAlg := rfl
@[simp] theorem State.clearStaged_ckIncl (s : State) (n : Byte) : (s.clearStaged n).ckIncl = s.ckIncl := rfl
@[simp] theorem State.clearStaged_ckRotf (s : State) (n : Byte) : (s.clearStaged n).ckRotf = s.ckRotf := rfl
@[simp] theorem State.clearStaged_ckStart (s : State) (n : Byte) : (s.clearStaged n).ckStart = s.ckStart := rfl
@[simp] theorem State.clearStaged_trl (s : State) (n : Byte) : (s.clearStaged n).trl = s.trl := rfl
@[simp] theorem State.clearStaged_typeOff (s : State) (n : Byte) : (s.clearStaged n).typeOff = s.typeOff := rfl
@[simp] theorem State.clearStaged_typeW (s : State) (n : Byte) : (s.clearStaged n).typeW = s.typeW := rfl
@[simp] theorem State.clearStaged_typeEndian (s : State) (n : Byte) : (s.clearStaged n).typeEndian = s.typeEndian := rfl
@[simp] theorem State.clearStaged_tfEn (s : State) (n : Byte) : (s.clearStaged n).tfEn = s.tfEn := rfl
@[simp] theorem State.clearStaged_frameMax (s : State) (n : Byte) : (s.clearStaged n).frameMax = s.frameMax := rfl
@[simp] theorem State.clearStaged_lkGe (s : State) (n : Byte) : (s.clearStaged n).lkGe = s.lkGe := rfl
@[simp] theorem State.clearStaged_sent (s : State) (n : Byte) : (s.clearStaged n).sent = s.sent := rfl
@[simp] theorem State.clearStaged_cfgLegal (s : State) (n : Byte) : (s.clearStaged n).cfgLegal = s.cfgLegal := rfl
@[simp] theorem State.clearStaged_time (s : State) (n : Byte) : (s.clearStaged n).time = s.time := rfl
@[simp] theorem State.clearStaged_zeroRec (s : State) (n : Byte) : (s.clearStaged n).zeroRec = s.zeroRec := rfl
@[simp] theorem State.setLk_syncLen (s : State) (t : List (List LkEntry)) : (s.setLk t).syncLen = s.syncLen := rfl
@[simp] theorem State.setLk_pattern (s : State) (t : List (List LkEntry)) : (s.setLk t).pattern = s.pattern := rfl
@[simp] theorem State.setLk_hdrLen (s : State) (t : List (List LkEntry)) : (s.setLk t).hdrLen = s.hdrLen := rfl
@[simp] theorem State.setLk_lenOff (s : State) (t : List (List LkEntry)) : (s.setLk t).lenOff = s.lenOff := rfl
@[simp] theorem State.setLk_lenEnc (s : State) (t : List (List LkEntry)) : (s.setLk t).lenEnc = s.lenEnc := rfl
@[simp] theorem State.setLk_ckAlgNum (s : State) (t : List (List LkEntry)) : (s.setLk t).ckAlgNum = s.ckAlgNum := rfl
@[simp] theorem State.setLk_ckAlg (s : State) (t : List (List LkEntry)) : (s.setLk t).ckAlg = s.ckAlg := rfl
@[simp] theorem State.setLk_ckIncl (s : State) (t : List (List LkEntry)) : (s.setLk t).ckIncl = s.ckIncl := rfl
@[simp] theorem State.setLk_ckRotf (s : State) (t : List (List LkEntry)) : (s.setLk t).ckRotf = s.ckRotf := rfl
@[simp] theorem State.setLk_ckStart (s : State) (t : List (List LkEntry)) : (s.setLk t).ckStart = s.ckStart := rfl
@[simp] theorem State.setLk_trl (s : State) (t : List (List LkEntry)) : (s.setLk t).trl = s.trl := rfl
@[simp] theorem State.setLk_typeOff (s : State) (t : List (List LkEntry)) : (s.setLk t).typeOff = s.typeOff := rfl
@[simp] theorem State.setLk_typeW (s : State) (t : List (List LkEntry)) : (s.setLk t).typeW = s.typeW := rfl
@[simp] theorem State.setLk_typeEndian (s : State) (t : List (List LkEntry)) : (s.setLk t).typeEndian = s.typeEndian := rfl
@[simp] theorem State.setLk_tfEn (s : State) (t : List (List LkEntry)) : (s.setLk t).tfEn = s.tfEn := rfl
@[simp] theorem State.setLk_frameMax (s : State) (t : List (List LkEntry)) : (s.setLk t).frameMax = s.frameMax := rfl
@[simp] theorem State.setLk_lkGe (s : State) (t : List (List LkEntry)) : (s.setLk t).lkGe = s.lkGe := rfl
@[simp] theorem State.setLk_sent (s : State) (t : List (List LkEntry)) : (s.setLk t).sent = s.sent := rfl
@[simp] theorem State.setLk_cfgLegal (s : State) (t : List (List LkEntry)) : (s.setLk t).cfgLegal = s.cfgLegal := rfl
@[simp] theorem State.setLk_time (s : State) (t : List (List LkEntry)) : (s.setLk t).time = s.time := rfl
@[simp] theorem State.setLk_zeroRec (s : State) (t : List (List LkEntry)) : (s.setLk t).zeroRec = s.zeroRec := rfl
@[simp] theorem State.setAcc_syncLen (s : State) (a : Word) : (s.setAcc a).syncLen = s.syncLen := rfl
@[simp] theorem State.setAcc_pattern (s : State) (a : Word) : (s.setAcc a).pattern = s.pattern := rfl
@[simp] theorem State.setAcc_hdrLen (s : State) (a : Word) : (s.setAcc a).hdrLen = s.hdrLen := rfl
@[simp] theorem State.setAcc_lenOff (s : State) (a : Word) : (s.setAcc a).lenOff = s.lenOff := rfl
@[simp] theorem State.setAcc_lenEnc (s : State) (a : Word) : (s.setAcc a).lenEnc = s.lenEnc := rfl
@[simp] theorem State.setAcc_ckAlgNum (s : State) (a : Word) : (s.setAcc a).ckAlgNum = s.ckAlgNum := rfl
@[simp] theorem State.setAcc_ckAlg (s : State) (a : Word) : (s.setAcc a).ckAlg = s.ckAlg := rfl
@[simp] theorem State.setAcc_ckIncl (s : State) (a : Word) : (s.setAcc a).ckIncl = s.ckIncl := rfl
@[simp] theorem State.setAcc_ckRotf (s : State) (a : Word) : (s.setAcc a).ckRotf = s.ckRotf := rfl
@[simp] theorem State.setAcc_ckStart (s : State) (a : Word) : (s.setAcc a).ckStart = s.ckStart := rfl
@[simp] theorem State.setAcc_trl (s : State) (a : Word) : (s.setAcc a).trl = s.trl := rfl
@[simp] theorem State.setAcc_typeOff (s : State) (a : Word) : (s.setAcc a).typeOff = s.typeOff := rfl
@[simp] theorem State.setAcc_typeW (s : State) (a : Word) : (s.setAcc a).typeW = s.typeW := rfl
@[simp] theorem State.setAcc_typeEndian (s : State) (a : Word) : (s.setAcc a).typeEndian = s.typeEndian := rfl
@[simp] theorem State.setAcc_tfEn (s : State) (a : Word) : (s.setAcc a).tfEn = s.tfEn := rfl
@[simp] theorem State.setAcc_frameMax (s : State) (a : Word) : (s.setAcc a).frameMax = s.frameMax := rfl
@[simp] theorem State.setAcc_lkGe (s : State) (a : Word) : (s.setAcc a).lkGe = s.lkGe := rfl
@[simp] theorem State.setAcc_sent (s : State) (a : Word) : (s.setAcc a).sent = s.sent := rfl
@[simp] theorem State.setAcc_cfgLegal (s : State) (a : Word) : (s.setAcc a).cfgLegal = s.cfgLegal := rfl
@[simp] theorem State.setAcc_time (s : State) (a : Word) : (s.setAcc a).time = s.time := rfl
@[simp] theorem State.setAcc_zeroRec (s : State) (a : Word) : (s.setAcc a).zeroRec = s.zeroRec := rfl

end Sys2Proof.Machine
end

