-- ==== Sys2Proof/Laws/Ops.lean ====
section
/-! SUPPORT. For each shared operation, once, what it can do: the parts of the state it may change, and what its reads give after its
writes. -/

namespace Sys2Proof.Machine

/-! ## Pairs of words (00_scope.md R7) -/

theorem pair_toNat (hi lo : Word) : (pair hi lo).toNat = hi.toNat * 2 ^ 32 + lo.toNat := by
  rw [pair, BitVec.toNat_append, Nat.shiftLeft_eq, Nat.mul_comm, Nat.two_pow_add_eq_or_of_lt lo.isLt]

@[simp] theorem pair_low (hi lo : Word) : (pair hi lo).extractLsb' 0 32 = lo := by
  have := lo.isLt
  apply BitVec.eq_of_toNat_eq
  rw [BitVec.extractLsb'_toNat, pair_toNat, Nat.shiftRight_eq_div_pow]
  omega

@[simp] theorem pair_high (hi lo : Word) : (pair hi lo).extractLsb' 32 32 = hi := by
  have := lo.isLt
  have := hi.isLt
  apply BitVec.eq_of_toNat_eq
  rw [BitVec.extractLsb'_toNat, pair_toNat, Nat.shiftRight_eq_div_pow]
  omega

/-- A pair of words given as a result is what RES1 and RES0 hold (10_state.md R23). -/
theorem State.setRes_pair (s : State) (hi lo : Word) : s.setRes (pair hi lo) = { s with res0 := lo, res1 := hi } := by
  rw [State.setRes, pair_low, pair_high]

/-! ## Record arrays -/

theorem getD_set_self {α : Type} {l : List α} {i : Nat} (x d : α) (h : i < l.length) : (l.set i x).getD i d = x := by
  simp [List.getD_eq_getElem?_getD, h]

theorem getD_set_other {α : Type} (l : List α) {i j : Nat} (x d : α) (h : j ≠ i) : (l.set i x).getD j d = l.getD j d := by
  simp [List.getD_eq_getElem?_getD, Ne.symm h]

/-- Reading a record array after a write to the same ordinal. -/
theorem State.recAt_set_self (s : State) {arr : List Rec} {i : Nat} (r : Rec) (h : i < arr.length) :
    s.recAt (arr.set i r) i = r := getD_set_self r _ h

/-- Reading a record array after a write to another ordinal. -/
theorem State.recAt_set_other (s : State) (arr : List Rec) {i j : Nat} (r : Rec) (h : j ≠ i) :
    s.recAt (arr.set i r) j = s.recAt arr j := getD_set_other arr r _ h

/-- The record an ordinal reads as depends on the state only through NSLOT. -/
theorem State.recAt_congr (s t : State) (h : t.params = s.params) (arr : List Rec) (i : Nat) : t.recAt arr i = s.recAt arr i := by
  simp only [State.recAt, State.zeroRec, h]

theorem State.recAt_mem (s : State) {arr : List Rec} {i : Nat} (h : i < arr.length) : s.recAt arr i ∈ arr := by
  simp [State.recAt, List.getD_eq_getElem?_getD, h]

/-- A record with one field written keeps satellite, time and its number of slots. -/
@[simp] theorem Rec.writeField_sat (r : Rec) (slot fld : Nat) (v : DWord) (m : Bool) : (r.writeField slot fld v m).sat = r.sat := by
  unfold Rec.writeField; split <;> rfl
@[simp] theorem Rec.writeField_time (r : Rec) (slot fld : Nat) (v : DWord) (m : Bool) : (r.writeField slot fld v m).time = r.time := by
  unfold Rec.writeField; split <;> rfl
@[simp] theorem Rec.writeField_tv (r : Rec) (slot fld : Nat) (v : DWord) (m : Bool) : (r.writeField slot fld v m).tv = r.tv := by
  unfold Rec.writeField; split <;> rfl
@[simp] theorem Rec.writeField_slots_length (r : Rec) (slot fld : Nat) (v : DWord) (m : Bool) :
    (r.writeField slot fld v m).slots.length = r.slots.length := by
  unfold Rec.writeField; split <;> simp
@[simp] theorem Rec.writeField_missing (r : Rec) (slot fld : Nat) (v : DWord) : r.writeField slot fld v true = r := rfl
theorem Rec.writeField_present (r : Rec) (slot fld : Nat) (v : DWord) :
    r.writeField slot fld v false = { r with slots := r.slots.set slot ((r.slot slot).set fld v) } := rfl

@[simp] theorem Rec.zero_slots_length (n : Nat) : (Rec.zero n).slots.length = n := by simp [Rec.zero]
@[simp] theorem zeroRecords_length (p : Params) : (zeroRecords p).length = p.maxObs := by simp [zeroRecords]

/-- Every record of a cleared array is all-zero. -/
theorem eq_zero_of_mem_zeroRecords {p : Params} {r : Rec} (h : r ∈ zeroRecords p) : r = Rec.zero p.nSlot :=
  List.eq_of_mem_replicate h

/-- A slot after a write of one of its six fields (44_epoch_buffer.md R202, 10_state.md R51): the others keep their values. -/
theorem SlotRec.set_eq (r : SlotRec) {fld : BitVec 4} (v : DWord) (h : fld.toNat ≤ 5) : r.set fld.toNat v =
    if fld = 0 then { r with p := v } else if fld = 1 then { r with l := v } else if fld = 2 then { r with d := v }
    else if fld = 3 then { r with snr := v.setWidth 16 } else if fld = 4 then { r with lli := v.setWidth 8 }
    else { r with code := v.setWidth 8 } := by
  have : fld = 0#4 ∨ fld = 1#4 ∨ fld = 2#4 ∨ fld = 3#4 ∨ fld = 4#4 ∨ fld = 5#4 := by revert fld; decide
  rcases this with rfl | rfl | rfl | rfl | rfl | rfl <;> rfl

/-- A read of a slot field after a write of it: the value cut to the field's width (10_state.md R51). -/
theorem SlotRec.get_set (r : SlotRec) {fld : Nat} (v : DWord) (h : fld ≤ 5) :
    ((r.set fld v).get fld).toNat = v.toNat % (if fld ≤ 2 then 2 ^ 64 else if fld = 3 then 2 ^ 16 else 2 ^ 8) := by
  have hv := v.isLt
  rcases (show fld = 0 ∨ fld = 1 ∨ fld = 2 ∨ fld = 3 ∨ fld = 4 ∨ fld = 5 by omega) with rfl | rfl | rfl | rfl | rfl | rfl
  all_goals simp only [SlotRec.set, SlotRec.get, BitVec.toNat_setWidth, Nat.reduceLeDiff, ite_true, ite_false,
    Nat.reduceEqDiff]
  all_goals omega

/-! ## The lock table -/

/-- LK[sat][slot] after a write of it. -/
theorem lkGet_lkSet_self {lk : List (List LkEntry)} {sat slot n : Nat} (e : LkEntry) (h1 : sat - 1 < lk.length)
    (hr : ∀ row ∈ lk, row.length = n) (h2 : slot < n) : lkGet (lkSet lk sat slot e) sat slot = e := by
  unfold lkGet lkSet
  rw [getD_set_self _ _ h1, getD_set_self]
  rw [List.getD_eq_getElem _ _ h1, hr _ (List.getElem_mem h1)]
  exact h2

/-- Every other entry after a write of LK[sat][slot]. -/
theorem lkGet_lkSet_other (lk : List (List LkEntry)) {sat slot sat' slot' : Nat} (e : LkEntry) (h : 1 ≤ sat) (h' : 1 ≤ sat')
    (hne : sat' ≠ sat ∨ slot' ≠ slot) : lkGet (lkSet lk sat slot e) sat' slot' = lkGet lk sat' slot' := by
  unfold lkGet lkSet
  by_cases hs : sat' = sat
  · subst hs
    have hslot : slot' ≠ slot := hne.resolve_left (by simp)
    by_cases hl : sat' - 1 < lk.length
    · rw [getD_set_self _ _ hl, getD_set_other _ _ _ hslot]
    · rw [List.set_eq_of_length_le (by omega)]
  · rw [getD_set_other _ _ _ (by omega)]

@[simp] theorem lkSet_length (lk : List (List LkEntry)) (sat slot : Nat) (e : LkEntry) :
    (lkSet lk sat slot e).length = lk.length := by simp [lkSet]

/-- A write of one entry keeps the length of every row. -/
theorem lkSet_rows {lk : List (List LkEntry)} {sat slot n : Nat} (e : LkEntry) (hr : ∀ row ∈ lk, row.length = n) :
    ∀ row ∈ lkSet lk sat slot e, row.length = n := by
  intro row hrow
  by_cases h : sat - 1 < lk.length
  · rcases List.mem_or_eq_of_mem_set hrow with h1 | h1
    · exact hr row h1
    · rw [h1, List.length_set, List.getD_eq_getElem _ _ h]
      exact hr _ (List.getElem_mem h)
  · unfold lkSet at hrow
    rw [List.set_eq_of_length_le (by omega)] at hrow
    exact hr row hrow

/-- The operand check of LK.UPD and LK.RD passes exactly for a legal entry (45_continuity.md R241, R243). -/
theorem State.lkError_eq_none (s : State) (sat slot : Nat) :
    s.lkError sat slot = none ↔ sat ≠ 0 ∧ sat ≤ s.params.maxSat ∧ slot < s.params.nSlot := by
  unfold State.lkError
  split
  · simp_all
  · split
    · simp; omega
    · split
      · simp; omega
      · simp; omega

/-! ## What the shared operations may change -/

/-- `readRecord` changes RES and STATUS (44_epoch_buffer.md R206). -/
theorem State.readRecord_frame (s : State) (arr : List Rec) (n fld slot idx : Nat) :
    s.readRecord arr n fld slot idx = { s with
      res0 := (s.readRecord arr n fld slot idx).res0, res1 := (s.readRecord arr n fld slot idx).res1
      code := (s.readRecord arr n fld slot idx).code, cause := (s.readRecord arr n fld slot idx).cause } := by
  unfold State.readRecord; split
  · rfl
  · split <;> rfl

/-- The common part of an FX command changes RES, FXF and STATUS (43_field_codec.md R189). -/
theorem State.fxRead_frame (s : State) (e : Endian) (sm : SentMode) (n off : Nat) (conv : Nat → DWord × Bool) :
    s.fxRead e sm n off conv = { s with
      res0 := (s.fxRead e sm n off conv).res0, res1 := (s.fxRead e sm n off conv).res1
      fxMissing := (s.fxRead e sm n off conv).fxMissing, fxNan := (s.fxRead e sm n off conv).fxNan
      code := (s.fxRead e sm n off conv).code, cause := (s.fxRead e sm n off conv).cause } := by
  unfold State.fxRead; split <;> rfl

/-- The flush changes OBS, OBS_N, OBUF and STG_N (44_epoch_buffer.md R213). -/
theorem State.flushEpoch_frame (s : State) :
    s.flushEpoch = { s with obs := s.flushEpoch.obs, obsN := s.flushEpoch.obsN, obuf := zeroRecords s.params, stgN := 0 } := by
  unfold State.flushEpoch; dsimp only; split <;> rfl

/-- OBS.DWR after its checks changes OBS, OBS_N, STATUS and the counter of free values (44_epoch_buffer.md R203). -/
theorem State.directWrite_frame (s : State) (n slot fld : Nat) (sat : Byte) (v : DWord) (m : Bool) :
    s.directWrite n slot fld sat v m = { s with
      obs := (s.directWrite n slot fld sat v m).obs, obsN := (s.directWrite n slot fld sat v m).obsN
      freeCount := (s.directWrite n slot fld sat v m).freeCount
      code := (s.directWrite n slot fld sat v m).code, cause := (s.directWrite n slot fld sat v m).cause } := by
  unfold State.directWrite
  split
  · split <;> rfl
  · rfl
  · rfl

/-- An ordinal found by OBS.DWR's search is below the count and of the satellite. -/
theorem State.mem_satOrdinals (s : State) (n : Nat) (sat : Byte) (i : Nat) :
    i ∈ s.satOrdinals n sat ↔ i < n ∧ (s.recAt s.obs i).sat = sat := by
  simp [State.satOrdinals]

/-- What OBS.DWR does after its checks (44_epoch_buffer.md R203): EPOCH_FULL, a fresh record at the end, or a field of a record of
the satellite, which is the only one unless a flush made several. -/
theorem State.directWrite_cases (s : State) (n slot fld : Nat) (sat : Byte) (v : DWord) (m : Bool) :
    ((∀ i, i < n → (s.recAt s.obs i).sat ≠ sat) ∧ s.params.maxObs ≤ n ∧ s.directWrite n slot fld sat v m = s.raiseError .epochFull) ∨
    ((∀ i, i < n → (s.recAt s.obs i).sat ≠ sat) ∧ n < s.params.maxObs ∧ s.directWrite n slot fld sat v m =
      (s.setObs (s.obs.set n ((s.freshRec sat).writeField slot fld v m)) (BitVec.ofNat 8 (n + 1))).finishOk) ∨
    (∃ k c, k < n ∧ (s.recAt s.obs k).sat = sat ∧ s.directWrite n slot fld sat v m =
      ({ s.setObs (s.obs.set k ((s.recAt s.obs k).writeField slot fld v m)) (BitVec.ofNat 8 n) with freeCount := c } : State).finishOk) := by
  have hm := s.mem_satOrdinals n sat
  unfold State.directWrite
  split
  · next h =>
    have hno : ∀ i, i < n → (s.recAt s.obs i).sat ≠ sat := fun i hi hs => by
      have := (hm i).mpr ⟨hi, hs⟩
      rw [h] at this
      exact List.not_mem_nil this
    split
    · exact .inl ⟨hno, by omega, rfl⟩
    · exact .inr (.inl ⟨hno, by omega, rfl⟩)
  · next i h =>
    obtain ⟨h1, h2⟩ := (hm i).mp (h ▸ List.mem_singleton_self i)
    exact .inr (.inr ⟨i, s.freeCount, h1, h2, rfl⟩)
  · next i j rest h =>
    have hk : ∀ x, (i :: j :: rest).getD x i ∈ i :: j :: rest := fun x => by
      by_cases hx : x < (i :: j :: rest).length
      · rw [List.getD_eq_getElem _ _ hx]; exact List.getElem_mem hx
      · rw [List.getD_eq_default _ _ (by omega)]; exact List.mem_cons_self
    have hmem := hk (Config.duplicateChoice s.freeCount % (i :: j :: rest).length)
    rw [← h] at hmem
    obtain ⟨h1, h2⟩ := (hm _).mp hmem
    refine .inr (.inr ⟨_, s.freeCount + 1, h1, h2, ?_⟩)
    rw [h]

/-- With one record of the satellite in the epoch, that record is written and no free value is drawn (44_epoch_buffer.md R203). -/
theorem State.satOrdinals_unique (s : State) {n k : Nat} {sat : Byte} (hk : k < n) (hs : (s.recAt s.obs k).sat = sat)
    (hu : ∀ j, j < n → (s.recAt s.obs j).sat = sat → j = k) : s.satOrdinals n sat = [k] := by
  have hm := s.mem_satOrdinals n sat
  have hnd : (s.satOrdinals n sat).Nodup := List.Nodup.filter _ List.nodup_range
  match hl : s.satOrdinals n sat with
  | [] => exact absurd ((hm k).mpr ⟨hk, hs⟩) (by simp [hl])
  | [a] =>
    have := (hm a).mp (by simp [hl])
    rw [hu a this.1 this.2]
  | a :: b :: rest =>
    have ha := (hm a).mp (by simp [hl])
    have hb := (hm b).mp (by simp [hl])
    rw [hl] at hnd
    have : a = b := (hu a ha.1 ha.2).trans (hu b hb.1 hb.2).symm
    simp [this] at hnd

end Sys2Proof.Machine
end

