-- ==== Sys2Proof/Laws/PerInstr.lean ====
section
/-! SUPPORT. A property of every command as syntax: its encoding carries its own opcode, and no reserved bit. -/

namespace Sys2Proof.Laws

open Sys2Proof

/-- The encoding of a command holds its opcode in bits 31:26 (30_encoding.md R90) and zeros in the reserved ranges of its format
(30_encoding.md R91). -/
def EncodedOpcode.Statement (i : Instr) : Prop :=
  field (encode i) 26 6 = i.opcode.bits ∧ reservedClear i.opcode (encode i) = true

/-- The encoding as a number, when the fields fit below the opcode. -/
theorem encode_toNat (i : Instr) (h : placeFields i.fields < 2 ^ 26) :
    (encode i).toNat = i.opcode.bits.toNat * 2 ^ 26 + placeFields i.fields := by
  have := i.opcode.bits.isLt
  simp only [encode, BitVec.toNat_ofNat]
  omega

theorem field_toNat (w : Word) (lo n : Nat) : (field w lo n).toNat = w.toNat / 2 ^ lo % 2 ^ n := by
  simp [field, Nat.shiftRight_eq_div_pow]

/-- The opcode field of an encoding. -/
theorem field_encode_opcode (i : Instr) (h : placeFields i.fields < 2 ^ 26) : field (encode i) 26 6 = i.opcode.bits := by
  apply BitVec.eq_of_toNat_eq
  have := i.opcode.bits.isLt
  rw [field_toNat, encode_toNat i h]
  omega

/-- A reserved range is zero when the number of the encoding says so. -/
theorem statement_of (i : Instr) (h : placeFields i.fields < 2 ^ 26)
    (hr : i.opcode.reserved.all (fun r =>
      (i.opcode.bits.toNat * 2 ^ 26 + placeFields i.fields) / 2 ^ r.1 % 2 ^ r.2 == 0) = true) :
    EncodedOpcode.Statement i := by
  refine ⟨field_encode_opcode i h, ?_⟩
  simp only [reservedClear, field_toNat, encode_toNat i h]
  exact hr

theorem EncodedOpcode.nop : EncodedOpcode.Statement .nop := statement_of _ (by decide) (by decide)
theorem EncodedOpcode.openSession : EncodedOpcode.Statement .openSession := statement_of _ (by decide) (by decide)
theorem EncodedOpcode.eoi : EncodedOpcode.Statement .eoi := statement_of _ (by decide) (by decide)
theorem EncodedOpcode.release : EncodedOpcode.Statement .release := statement_of _ (by decide) (by decide)
theorem EncodedOpcode.ckFin : EncodedOpcode.Statement .ckFin := statement_of _ (by decide) (by decide)
theorem EncodedOpcode.flush : EncodedOpcode.Statement .flush := statement_of _ (by decide) (by decide)

theorem EncodedOpcode.feed (b : Byte) : EncodedOpcode.Statement (.feed b) := by
  have h0 := b.isLt
  refine statement_of _ ?_ ?_
  · simp only [Instr.fields, placeFields]; omega
  · simp only [Instr.opcode, Instr.fields, placeFields, Opcode.reserved, Opcode.bits, List.all_cons, List.all_nil,
      Bool.and_true, beq_iff_eq, BitVec.toNat_ofNat]
    omega

theorem EncodedOpcode.feedn (c : BitVec 3) : EncodedOpcode.Statement (.feedn c) := by
  have h0 := c.isLt
  refine statement_of _ ?_ ?_
  · simp only [Instr.fields, placeFields]; omega
  · simp only [Instr.opcode, Instr.fields, placeFields, Opcode.reserved, Opcode.bits, List.all_cons, List.all_nil,
      Bool.and_true, beq_iff_eq, BitVec.toNat_ofNat]
    omega

theorem EncodedOpcode.ckInit (f : Bool) (a : BitVec 3) : EncodedOpcode.Statement (.ckInit f a) := by
  have h0 := f.toNat_lt
  have h1 := a.isLt
  refine statement_of _ ?_ ?_
  · simp only [Instr.fields, placeFields]; omega
  · simp only [Instr.opcode, Instr.fields, placeFields, Opcode.reserved, Opcode.bits, List.all_cons, List.all_nil,
      Bool.and_true, beq_iff_eq, BitVec.toNat_ofNat]
    omega

theorem EncodedOpcode.ckUpd (c : BitVec 3) : EncodedOpcode.Statement (.ckUpd c) := by
  have h0 := c.isLt
  refine statement_of _ ?_ ?_
  · simp only [Instr.fields, placeFields]; omega
  · simp only [Instr.opcode, Instr.fields, placeFields, Opcode.reserved, Opcode.bits, List.all_cons, List.all_nil,
      Bool.and_true, beq_iff_eq, BitVec.toNat_ofNat]
    omega

theorem EncodedOpcode.ckFrm (o : BitVec 16) : EncodedOpcode.Statement (.ckFrm o) := by
  have h0 := o.isLt
  refine statement_of _ ?_ ?_
  · simp only [Instr.fields, placeFields]; omega
  · simp only [Instr.opcode, Instr.fields, placeFields, Opcode.reserved, Opcode.bits, List.all_cons, List.all_nil,
      Bool.and_true, beq_iff_eq, BitVec.toNat_ofNat]
    omega

theorem EncodedOpcode.fxU (e : Endian) (sm : SentMode) (w : BitVec 3) (o : BitVec 16) : EncodedOpcode.Statement (.fxU e sm w o) := by
  have h0 := e.bit.toNat_lt
  have h1 := sm.bits.isLt
  have h2 := w.isLt
  have h3 := o.isLt
  refine statement_of _ ?_ ?_
  · simp only [Instr.fields, placeFields]; omega
  · simp only [Instr.opcode, Instr.fields, placeFields, Opcode.reserved, Opcode.bits, List.all_cons, List.all_nil,
      Bool.and_true, beq_iff_eq, BitVec.toNat_ofNat]
    omega

theorem EncodedOpcode.fxS (e : Endian) (sm : SentMode) (w : BitVec 3) (o : BitVec 16) : EncodedOpcode.Statement (.fxS e sm w o) := by
  have h0 := e.bit.toNat_lt
  have h1 := sm.bits.isLt
  have h2 := w.isLt
  have h3 := o.isLt
  refine statement_of _ ?_ ?_
  · simp only [Instr.fields, placeFields]; omega
  · simp only [Instr.opcode, Instr.fields, placeFields, Opcode.reserved, Opcode.bits, List.all_cons, List.all_nil,
      Bool.and_true, beq_iff_eq, BitVec.toNat_ofNat]
    omega

theorem EncodedOpcode.fxF32 (e : Endian) (sm : SentMode) (o : BitVec 16) : EncodedOpcode.Statement (.fxF32 e sm o) := by
  have h0 := e.bit.toNat_lt
  have h1 := sm.bits.isLt
  have h2 := o.isLt
  refine statement_of _ ?_ ?_
  · simp only [Instr.fields, placeFields]; omega
  · simp only [Instr.opcode, Instr.fields, placeFields, Opcode.reserved, Opcode.bits, List.all_cons, List.all_nil,
      Bool.and_true, beq_iff_eq, BitVec.toNat_ofNat]
    omega

theorem EncodedOpcode.fxF64 (e : Endian) (sm : SentMode) (o : BitVec 16) : EncodedOpcode.Statement (.fxF64 e sm o) := by
  have h0 := e.bit.toNat_lt
  have h1 := sm.bits.isLt
  have h2 := o.isLt
  refine statement_of _ ?_ ?_
  · simp only [Instr.fields, placeFields]; omega
  · simp only [Instr.opcode, Instr.fields, placeFields, Opcode.reserved, Opcode.bits, List.all_cons, List.all_nil,
      Bool.and_true, beq_iff_eq, BitVec.toNat_ofNat]
    omega

theorem EncodedOpcode.obsDwr (src : Source) (m : Bool) (fld : BitVec 4) (slot : BitVec 4) (sat : Byte) : EncodedOpcode.Statement (.obsDwr src m fld slot sat) := by
  have h0 := src.bit.toNat_lt
  have h1 := m.toNat_lt
  have h2 := fld.isLt
  have h3 := slot.isLt
  have h4 := sat.isLt
  refine statement_of _ ?_ ?_
  · simp only [Instr.fields, placeFields]; omega
  · simp only [Instr.opcode, Instr.fields, placeFields, Opcode.reserved, Opcode.bits, List.all_cons, List.all_nil,
      Bool.and_true, beq_iff_eq, BitVec.toNat_ofNat]
    omega

theorem EncodedOpcode.obsRd (fld : BitVec 4) (slot : BitVec 4) (idx : Byte) : EncodedOpcode.Statement (.obsRd fld slot idx) := by
  have h0 := fld.isLt
  have h1 := slot.isLt
  have h2 := idx.isLt
  refine statement_of _ ?_ ?_
  · simp only [Instr.fields, placeFields]; omega
  · simp only [Instr.opcode, Instr.fields, placeFields, Opcode.reserved, Opcode.bits, List.all_cons, List.all_nil,
      Bool.and_true, Bool.and_eq_true, beq_iff_eq, BitVec.toNat_ofNat]
    omega

theorem EncodedOpcode.stgCnt (n : Byte) : EncodedOpcode.Statement (.stgCnt n) := by
  have h0 := n.isLt
  refine statement_of _ ?_ ?_
  · simp only [Instr.fields, placeFields]; omega
  · simp only [Instr.opcode, Instr.fields, placeFields, Opcode.reserved, Opcode.bits, List.all_cons, List.all_nil,
      Bool.and_true, beq_iff_eq, BitVec.toNat_ofNat]
    omega

theorem EncodedOpcode.stgSat (idx : Byte) (sat : Byte) : EncodedOpcode.Statement (.stgSat idx sat) := by
  have h0 := idx.isLt
  have h1 := sat.isLt
  refine statement_of _ ?_ ?_
  · simp only [Instr.fields, placeFields]; omega
  · simp only [Instr.opcode, Instr.fields, placeFields, Opcode.reserved, Opcode.bits, List.all_cons, List.all_nil,
      Bool.and_true, beq_iff_eq, BitVec.toNat_ofNat]
    omega

theorem EncodedOpcode.stgChk (n : Byte) : EncodedOpcode.Statement (.stgChk n) := by
  have h0 := n.isLt
  refine statement_of _ ?_ ?_
  · simp only [Instr.fields, placeFields]; omega
  · simp only [Instr.opcode, Instr.fields, placeFields, Opcode.reserved, Opcode.bits, List.all_cons, List.all_nil,
      Bool.and_true, beq_iff_eq, BitVec.toNat_ofNat]
    omega

theorem EncodedOpcode.stgWr (src : Source) (m : Bool) (fld : BitVec 4) (slot : BitVec 4) (idx : Byte) : EncodedOpcode.Statement (.stgWr src m fld slot idx) := by
  have h0 := src.bit.toNat_lt
  have h1 := m.toNat_lt
  have h2 := fld.isLt
  have h3 := slot.isLt
  have h4 := idx.isLt
  refine statement_of _ ?_ ?_
  · simp only [Instr.fields, placeFields]; omega
  · simp only [Instr.opcode, Instr.fields, placeFields, Opcode.reserved, Opcode.bits, List.all_cons, List.all_nil,
      Bool.and_true, beq_iff_eq, BitVec.toNat_ofNat]
    omega

theorem EncodedOpcode.stgRd (fld : BitVec 4) (slot : BitVec 4) (idx : Byte) : EncodedOpcode.Statement (.stgRd fld slot idx) := by
  have h0 := fld.isLt
  have h1 := slot.isLt
  have h2 := idx.isLt
  refine statement_of _ ?_ ?_
  · simp only [Instr.fields, placeFields]; omega
  · simp only [Instr.opcode, Instr.fields, placeFields, Opcode.reserved, Opcode.bits, List.all_cons, List.all_nil,
      Bool.and_true, Bool.and_eq_true, beq_iff_eq, BitVec.toNat_ofNat]
    omega

theorem EncodedOpcode.lkUpd (c : Bool) (h : Bool) (hc : Bool) (slot : BitVec 4) (sat : Byte) : EncodedOpcode.Statement (.lkUpd c h hc slot sat) := by
  have h0 := c.toNat_lt
  have h1 := h.toNat_lt
  have h2 := hc.toNat_lt
  have h3 := slot.isLt
  have h4 := sat.isLt
  refine statement_of _ ?_ ?_
  · simp only [Instr.fields, placeFields]; omega
  · simp only [Instr.opcode, Instr.fields, placeFields, Opcode.reserved, Opcode.bits, List.all_cons, List.all_nil,
      Bool.and_true, Bool.and_eq_true, beq_iff_eq, BitVec.toNat_ofNat]
    omega

theorem EncodedOpcode.lkRd (item : BitVec 4) (slot : BitVec 4) (sat : Byte) : EncodedOpcode.Statement (.lkRd item slot sat) := by
  have h0 := item.isLt
  have h1 := slot.isLt
  have h2 := sat.isLt
  refine statement_of _ ?_ ?_
  · simp only [Instr.fields, placeFields]; omega
  · simp only [Instr.opcode, Instr.fields, placeFields, Opcode.reserved, Opcode.bits, List.all_cons, List.all_nil,
      Bool.and_true, Bool.and_eq_true, beq_iff_eq, BitVec.toNat_ofNat]
    omega

end Sys2Proof.Laws
end

