-- ==== Sys2Proof/Laws/Sync.lean ====
section
/-! SUPPORT. What a byte fed to SYNC can do: the fields it may change, and its outcomes. -/

namespace Sys2Proof.Machine

/-- Two states that differ at most in the registers of SYNC and STATUS.CODE and CAUSE (41_synchronizer.md R123). -/
def SyncOnly (s t : State) : Prop :=
  t = { s with buf := t.buf, nbyte := t.nbyte, flen := t.flen, sstate := t.sstate, win := t.win, wcnt := t.wcnt,
               ftype := t.ftype, fdecIdx := t.fdecIdx, fdecHit := t.fdecHit, code := t.code, cause := t.cause }

theorem SyncOnly.refl (s : State) : SyncOnly s s := rfl

theorem SyncOnly.trans {s t u : State} (h1 : SyncOnly s t) (h2 : SyncOnly t u) : SyncOnly s u := by
  unfold SyncOnly at *
  rw [h2, h1]

/-- Bytes of ARG0 and the configuration read the same in a state that differs only in SYNC. -/
theorem SyncOnly.argByte {s t : State} (h : SyncOnly s t) (j : Nat) : t.argByte j = s.argByte j := by rw [h]; rfl
theorem SyncOnly.cfg {s t : State} (h : SyncOnly s t) : t.cfg = s.cfg := by rw [h]
theorem SyncOnly.isOpen {s t : State} (h : SyncOnly s t) : t.isOpen = s.isOpen := by rw [h]
theorem SyncOnly.params {s t : State} (h : SyncOnly s t) : t.params = s.params := by rw [h]

/-- The end of a header byte changes SSTATE and the outcome, which is OK (41_synchronizer.md R125). -/
theorem headerNext_eq (s : State) : headerNext s =
    { s with sstate := if s.nbyte.toNat = s.hdrLen then .payload else s.sstate, code := .ok, cause := .none } := by
  unfold headerNext; split <;> rfl

/-- A length error's cause (41_synchronizer.md R126, R127), and the bounds of an accepted length. -/
theorem State.decodeLength_error {s : State} {k : Cause} (h : s.decodeLength = .error k) :
    k = .lenBadhex ∨ k = .lenZero ∨ k = .lenOversize := by
  unfold State.decodeLength at h
  split at h
  · cases h; exact .inl rfl
  · split at h
    · cases h; exact .inr (.inl rfl)
    · split at h
      · cases h; exact .inr (.inr rfl)
      · cases h

theorem State.decodeLength_ok {s : State} {n : Nat} (h : s.decodeLength = .ok n) : s.hdrLen + 1 + s.trl ≤ n ∧ n ≤ s.frameMax := by
  unfold State.decodeLength at h
  split at h
  · cases h
  · split at h
    · cases h
    · split at h
      · cases h
      · cases h; omega

/-- What `completeFrame()` can do (41_synchronizer.md R129, R130): a mismatch, a dropped type, or a held frame. -/
theorem completeFrame_cases (s : State) :
    (s.frameValid = false ∧ completeFrame s = s.syncReset.finish .error .ckMismatch) ∨
    (s.frameValid = true ∧ s.tfEn = true ∧ s.filterEntry s.typeCode = none ∧
      completeFrame s = ({ s with ftype := s.typeCode, fdecIdx := 0, fdecHit := false } : State).syncReset.finish .ok .none) ∨
    (s.frameValid = true ∧ s.tfEn = true ∧ ∃ j, s.filterEntry s.typeCode = some j ∧ completeFrame s =
      ({ s with ftype := s.typeCode, fdecIdx := BitVec.ofNat 4 j, fdecHit := true, sstate := .complete } : State).finish .frameReady .none) ∨
    (s.frameValid = true ∧ s.tfEn = false ∧ completeFrame s =
      ({ s with ftype := s.typeCode, fdecIdx := 0, fdecHit := false, sstate := .complete } : State).finish .frameReady .none) := by
  unfold completeFrame
  cases hv : s.frameValid
  · exact .inl ⟨rfl, rfl⟩
  · right
    rw [if_pos rfl]
    unfold typeStep
    dsimp only
    have e1 : ({ s with ftype := s.typeCode } : State).tfEn = s.tfEn := rfl
    have e2 : ({ s with ftype := s.typeCode } : State).filterEntry s.typeCode = s.filterEntry s.typeCode := rfl
    rw [e1, e2]
    cases ht : s.tfEn
    · exact .inr (.inr ⟨rfl, rfl, rfl⟩)
    · rw [if_pos rfl]
      cases hf : s.filterEntry s.typeCode with
      | none => exact .inl ⟨rfl, rfl, rfl, rfl⟩
      | some j => exact .inr (.inl ⟨rfl, rfl, j, rfl, rfl⟩)

/-- What a header byte can do (41_synchronizer.md R125). -/
theorem headerByte_cases (b : Byte) (s : State) :
    ((s.putByte b).nbyte.toNat ≠ s.lenOff + lenWidth s.lenEnc ∧ headerByte b s = headerNext (s.putByte b)) ∨
    ((s.putByte b).nbyte.toNat = s.lenOff + lenWidth s.lenEnc ∧ ∃ k, (s.putByte b).decodeLength = .error k ∧
      headerByte b s = (s.putByte b).syncReset.finish .error k) ∨
    ((s.putByte b).nbyte.toNat = s.lenOff + lenWidth s.lenEnc ∧ ∃ n, (s.putByte b).decodeLength = .ok n ∧
      headerByte b s = headerNext { s.putByte b with flen := BitVec.ofNat 16 n }) := by
  unfold headerByte
  dsimp only
  by_cases h : (s.putByte b).nbyte.toNat = s.lenOff + lenWidth s.lenEnc
  · right
    rw [if_pos (show (s.putByte b).nbyte.toNat = (s.putByte b).lenOff + lenWidth (s.putByte b).lenEnc from h)]
    cases hd : (s.putByte b).decodeLength with
    | error k => exact .inl ⟨h, k, rfl, rfl⟩
    | ok n => exact .inr ⟨h, n, rfl, rfl⟩
  · left
    rw [if_neg (show ¬ (s.putByte b).nbyte.toNat = (s.putByte b).lenOff + lenWidth (s.putByte b).lenEnc from h)]
    exact ⟨h, rfl⟩

/-- What a payload byte can do (41_synchronizer.md R128). -/
theorem payloadByte_cases (b : Byte) (s : State) :
    ((s.putByte b).nbyte.toNat < s.flen.toNat ∧ payloadByte b s = (s.putByte b).finish .ok .none) ∨
    (s.flen.toNat ≤ (s.putByte b).nbyte.toNat ∧ payloadByte b s = completeFrame (s.putByte b)) := by
  unfold payloadByte
  by_cases h : (s.putByte b).nbyte.toNat < s.flen.toNat
  · exact .inl ⟨h, if_pos h⟩
  · exact .inr ⟨by omega, if_neg h⟩

/-- What a byte in SEEKING can do (41_synchronizer.md R124). -/
theorem seekByte_cases (b : Byte) (s : State) :
    (syncMatch s.syncLen (shiftWindow s.syncLen s.win s.wcnt b).1 (shiftWindow s.syncLen s.win s.wcnt b).2 s.pattern = true ∧
      seekByte b s = (s.beginFrame (shiftWindow s.syncLen s.win s.wcnt b).1).finish .ok .none) ∨
    (syncMatch s.syncLen (shiftWindow s.syncLen s.win s.wcnt b).1 (shiftWindow s.syncLen s.win s.wcnt b).2 s.pattern = false ∧
      seekByte b s = ({ s with win := (shiftWindow s.syncLen s.win s.wcnt b).1,
                               wcnt := (shiftWindow s.syncLen s.win s.wcnt b).2 } : State).finish .ok .none) := by
  unfold seekByte
  dsimp only
  cases h : syncMatch s.syncLen (shiftWindow s.syncLen s.win s.wcnt b).1 (shiftWindow s.syncLen s.win s.wcnt b).2 s.pattern
  · exact .inr ⟨rfl, rfl⟩
  · exact .inl ⟨rfl, rfl⟩

/-- A fed byte changes only the registers of SYNC and STATUS.CODE and CAUSE (41_synchronizer.md R123). -/
theorem feedByte_syncOnly (b : Byte) (s : State) : SyncOnly s (feedByte b s) := by
  unfold feedByte
  split
  · rcases seekByte_cases b s with ⟨_, h⟩ | ⟨_, h⟩ <;> rw [h] <;> rfl
  · rcases headerByte_cases b s with ⟨_, h⟩ | ⟨_, k, _, h⟩ | ⟨_, n, _, h⟩ <;> rw [h]
    · rw [headerNext_eq]; rfl
    · rfl
    · rw [headerNext_eq]; rfl
  · rcases payloadByte_cases b s with ⟨_, h⟩ | ⟨_, h⟩ <;> rw [h]
    · rfl
    · rcases completeFrame_cases (s.putByte b) with ⟨_, h⟩ | ⟨_, _, _, h⟩ | ⟨_, _, j, _, h⟩ | ⟨_, _, h⟩ <;> rw [h] <;> rfl
  · rfl

/-- A fed byte changes BUF only at the addresses it stores to (41_synchronizer.md R124, R125, R128, R122). -/
theorem feedByte_read_other {b : Byte} {s : State} {a : Nat} (h : a ∉ storedBy b s) :
    Memory.read (feedByte b s).buf a = Memory.read s.buf a := by
  unfold feedByte
  unfold storedBy at h
  cases hs : s.sstate <;> simp only [hs] at h ⊢
  · rcases seekByte_cases b s with ⟨hm, e⟩ | ⟨_, e⟩ <;> rw [e]
    · rw [if_pos hm, List.mem_range] at h
      refine Memory.read_writeList_outside _ (.inr ?_)
      have := List.length_take_le s.syncLen (shiftWindow s.syncLen s.win s.wcnt b).1
      omega
    · rfl
  · have hb : Memory.read (s.putByte b).buf a = Memory.read s.buf a := Memory.read_write_other _ _ (by simpa using h)
    rcases headerByte_cases b s with ⟨_, e⟩ | ⟨_, k, _, e⟩ | ⟨_, n, _, e⟩ <;> rw [e]
    · rw [headerNext_eq]; exact hb
    · exact hb
    · rw [headerNext_eq]; exact hb
  · have hb : Memory.read (s.putByte b).buf a = Memory.read s.buf a := Memory.read_write_other _ _ (by simpa using h)
    rcases payloadByte_cases b s with ⟨_, e⟩ | ⟨_, e⟩ <;> rw [e]
    · exact hb
    · rcases completeFrame_cases (s.putByte b) with ⟨_, e⟩ | ⟨_, _, _, e⟩ | ⟨_, _, j, _, e⟩ | ⟨_, _, e⟩ <;> rw [e] <;> exact hb
  · rfl

/-- The outcomes of a fed byte outside COMPLETE: OK and no frame held, FRAME_READY and a frame held, or ERROR and SYNC reset, with only
the byte stored (41_synchronizer.md R124 to R130, R135(a)). -/
theorem feedByte_outcomes (b : Byte) {s : State} (h : s.sstate ≠ .complete) :
    ((feedByte b s).code = .ok ∧ (feedByte b s).cause = .none ∧ (feedByte b s).sstate ≠ .complete) ∨
    ((feedByte b s).code = .frameReady ∧ (feedByte b s).cause = .none ∧ (feedByte b s).sstate = .complete) ∨
    (∃ k, k.isError = true ∧ feedByte b s = (s.putByte b).syncReset.finish .error k) := by
  unfold feedByte
  split
  · left
    rcases seekByte_cases b s with ⟨_, h⟩ | ⟨_, h⟩ <;> rw [h]
    · exact ⟨rfl, rfl, nofun⟩
    · exact ⟨rfl, rfl, by assumption⟩
  · next hs =>
    have hn : ∀ u : State, u.sstate = .header → (headerNext u).code = .ok ∧ (headerNext u).cause = .none ∧ (headerNext u).sstate ≠ .complete := by
      intro u hu
      rw [headerNext_eq]
      refine ⟨rfl, rfl, ?_⟩
      dsimp only
      split
      · nofun
      · rw [hu]; nofun
    rcases headerByte_cases b s with ⟨_, h⟩ | ⟨_, k, hk, h⟩ | ⟨_, n, _, h⟩ <;> rw [h]
    · exact .inl (hn _ hs)
    · refine .inr (.inr ⟨k, ?_, rfl⟩)
      rcases State.decodeLength_error hk with rfl | rfl | rfl <;> rfl
    · exact .inl (hn _ hs)
  · next hs =>
    rcases payloadByte_cases b s with ⟨_, h⟩ | ⟨_, h⟩ <;> rw [h]
    · refine .inl ⟨rfl, rfl, ?_⟩
      rw [show ((s.putByte b).finish .ok .none).sstate = s.sstate from rfl, hs]; nofun
    · rcases completeFrame_cases (s.putByte b) with ⟨_, h⟩ | ⟨_, _, _, h⟩ | ⟨_, _, j, _, h⟩ | ⟨_, _, h⟩ <;> rw [h]
      · exact .inr (.inr ⟨_, rfl, rfl⟩)
      · exact .inl ⟨rfl, rfl, nofun⟩
      · exact .inr (.inl ⟨rfl, rfl, rfl⟩)
      · exact .inr (.inl ⟨rfl, rfl, rfl⟩)
  · exact absurd (by assumption) h

/-- One turn of FEEDN's loop (41_synchronizer.md R132). -/
theorem feedLoop_succ (left j : Nat) (s : State) : feedLoop (left + 1) j s =
    if (feedByte (s.argByte j) s).code = .ok then feedLoop left (j + 1) (feedByte (s.argByte j) s)
    else (feedByte (s.argByte j) s, j + 1) := rfl

theorem feedLoop_syncOnly (left : Nat) : ∀ (j : Nat) (s : State), SyncOnly s (feedLoop left j s).1 := by
  induction left with
  | zero => intro j s; rfl
  | succ left ih =>
    intro j s
    rw [feedLoop_succ]
    split
    · exact (feedByte_syncOnly _ s).trans (ih (j + 1) _)
    · exact feedByte_syncOnly _ s

/-- FEEDN's loop keeps what every fed byte keeps. -/
theorem feedLoop_induction {P : State → Prop} (hstep : ∀ (b : Byte) (s : State), s.sstate ≠ .complete → P s → P (feedByte b s))
    (left : Nat) : ∀ (j : Nat) (s : State), s.sstate ≠ .complete → P s → P (feedLoop left j s).1 := by
  induction left with
  | zero => intro j s _ h; exact h
  | succ left ih =>
    intro j s hc h
    rw [feedLoop_succ]
    split
    · next hok =>
      refine ih (j + 1) _ ?_ (hstep _ s hc h)
      rcases feedByte_outcomes (s.argByte j) hc with ⟨_, _, h1⟩ | ⟨h1, _, _⟩ | ⟨k, _, h1⟩
      · exact h1
      · rw [h1] at hok; cases hok
      · rw [h1] at hok; cases hok
    · exact hstep _ s hc h

/-- The bytes FEEDN consumes: at most those it was given, and at least one if it was given any (41_synchronizer.md R132). -/
theorem feedLoop_count (left : Nat) : ∀ (j : Nat) (s : State), j ≤ (feedLoop left j s).2 ∧ (feedLoop left j s).2 ≤ j + left ∧
    (0 < left → j < (feedLoop left j s).2) := by
  induction left with
  | zero => intro j s; exact ⟨le_refl _, le_refl _, fun h => absurd h (by omega)⟩
  | succ left ih =>
    intro j s
    rw [feedLoop_succ]
    split
    · have := ih (j + 1) (feedByte (s.argByte j) s)
      omega
    · dsimp only; omega

end Sys2Proof.Machine
end

