-- ==== Sys2Proof/Tests/Slice0.lean ====
section
/-! SUPPORT. The model's own tests: the well-formedness smoke test, one word written out from the spec's encodings for every
command, single steps with results from 95_test_vectors.md, and for every statement with hypotheses a state and operands that meet
them. -/

set_option maxRecDepth 100000

namespace Sys2Proof.Tests

open Sys2Proof Sys2Proof.Machine

/-! ## Well-formedness: each check of WellFormed.lean refuses an ill-formed command (30_encoding.md R95) -/

theorem test_wf_refuses_cnt : (Instr.feedn 0).wf = false ∧ (Instr.feedn 5).wf = false ∧ (Instr.ckUpd 0).wf = false ∧
    (Instr.ckUpd 7).wf = false := by decide
theorem test_wf_refuses_alg : (Instr.ckInit false 0).wf = false ∧ (Instr.ckInit true 6).wf = false := by decide
theorem test_wf_refuses_fld_of_a_write : (Instr.obsDwr .arg false 6 0 5).wf = false ∧ (Instr.stgWr .res false 8 0 0).wf = false := by decide
theorem test_wf_refuses_fld_of_a_read : (Instr.obsRd 6 0 0).wf = false ∧ (Instr.stgRd 7 0 0).wf = false ∧
    (Instr.obsRd 11 0 0).wf = false := by decide
theorem test_wf_refuses_slot_with_record_field : (Instr.obsRd 8 1 0).wf = false ∧ (Instr.stgRd 10 1 0).wf = false := by decide
theorem test_wf_refuses_item : (Instr.lkRd 3 0 5).wf = false := by decide

/-! ## Decoding: a word written out from 30_encoding.md R91 to R93 for every constructor -/

theorem test_decode_session : decode 0x00000000 = .ok .nop ∧ decode 0x04000000 = .ok .openSession ∧ decode 0x08000000 = .ok .eoi := by decide
theorem test_decode_sync : decode 0x100000B5 = .ok (.feed 0xB5) ∧ decode 0x14000004 = .ok (.feedn 4) ∧ decode 0x18000000 = .ok .release := by
  decide
theorem test_decode_checksum : decode 0x20000009 = .ok (.ckInit true 1) ∧ decode 0x24000003 = .ok (.ckUpd 3) ∧
    decode 0x28000000 = .ok .ckFin ∧ decode 0x2C000102 = .ok (.ckFrm 0x102) := by decide
theorem test_decode_codec : decode 0x42030006 = .ok (.fxU .big .none 3 6) ∧ decode 0x45818001 = .ok (.fxS .little .sent 1 0x8001) ∧
    decode 0x4A800008 = .ok (.fxF32 .big .ones 8) ∧ decode 0x4F000024 = .ok (.fxF64 .big .maxpos 36) := by decide
theorem test_decode_epoch : decode 0x61100009 = .ok (.obsDwr .arg true 1 0 9) ∧ decode 0x64310200 = .ok (.obsRd 3 1 2) ∧
    decode 0x68000003 = .ok (.stgCnt 3) ∧ decode 0x6C000308 = .ok (.stgSat 3 8) ∧ decode 0x70000002 = .ok (.stgChk 2) ∧
    decode 0x76520100 = .ok (.stgWr .res false 5 2 1) ∧ decode 0x78A00700 = .ok (.stgRd 10 0 7) ∧ decode 0x7C000000 = .ok .flush := by decide
theorem test_decode_continuity : decode 0x82020005 = .ok (.lkUpd true false false 2 5) ∧ decode 0x81800005 = .ok (.lkUpd false true true 0 5) ∧
    decode 0x84210021 = .ok (.lkRd 2 1 0x21) := by decide

/-- The refusals of 95_test_vectors.md section 2.1 that decoding makes. -/
theorem test_decode_refuses : [0x0C000000#32, 0x1C000000, 0x88000000, 0xFC000000].map decode = List.replicate 4 (.error .badOpcode) ∧
    [0x00000001#32, 0x08000001, 0x14000000, 0x14000005, 0x20000000, 0x20000007, 0x20000012, 0x60600005, 0x80100005, 0x84300005,
     0x64810000, 0x64600000, 0x48010004, 0x40080004].map decode = List.replicate 14 (.error .badField) := by decide

/-- The reserved ranges of every opcode are the zero mask of its row in 30_encoding.md R93, and its match is its number. -/
theorem test_rows_agree_with_formats : ∀ r ∈ opcodeRows,
    r.2.2.toNat = 0xFC000000 + (r.1.reserved.map fun x => 2 ^ x.1 * (2 ^ x.2 - 1)).sum ∧ r.2.1.toNat = r.1.bits.toNat * 2 ^ 26 := by decide

/-- The word of a row, placed where the next step takes it, runs its command (from reset OPEN is refused: 95_test_vectors.md section 2.2). -/
theorem test_withFetchWord_runs : step (State.reset.withFetchWord 32 0x04000000) =
    .next { State.reset with code := .refused, cause := .cfgIllegal } := by rfl

/-! ## States to test on: a small instance with a legal configuration -/

def tp : Params := { bufSize := 16, maxObs := 2, nSlot := 2, maxSat := 3, fssBase := 0x1000 }

/-- Sync 41 42, HDR_LEN 5, LEN_OFF 2, BIN16BE, XOR from byte 2, type byte 4, filter entry 15 = 7, FRAME_MAX 16. -/
def tCfg : CfgRegs :=
  { CfgRegs.reset tp with syncCfg := 2, syncPat0 := 0x4241, hdrCfg := 0x00020005, lenCfg := 1, ckCfg := 0x00020002, typeCfg := 0x00110004
                          tfValid := 0x8000, tfType := List.replicate 15 0 ++ [7], lkScale := 1, lkSlack := 10, lkSat := 100 }

/-- CLOSED, with the configuration. -/
def tClosed : State := { State.resetOf tp with cfg := tCfg }
/-- OPEN, SEEKING. -/
def tOpen : State := { tClosed with isOpen := true }
/-- In HEADER with these bytes. -/
def tHeader (bs : List Byte) (flen : BitVec 16) : State :=
  { tOpen with sstate := .header, nbyte := BitVec.ofNat 16 bs.length, flen := flen, buf := Memory.writeList [] 0 bs }
/-- In PAYLOAD with these bytes. -/
def tPayload (bs : List Byte) (flen : BitVec 16) : State := { tHeader bs flen with sstate := .payload }
/-- A frame with this type and payload, and its trailer. -/
def tFrame (type : Byte) (p : List Byte) : List Byte :=
  let body : List Byte := [0x41, 0x42, 0, BitVec.ofNat 8 p.length, type] ++ p
  body ++ [(body.drop 2).foldl (· ^^^ ·) 0]
/-- A frame with this payload held in COMPLETE. -/
def tHeld (p : List Byte) : State :=
  { tPayload (tFrame 7 p) (BitVec.ofNat 16 (6 + p.length)) with sstate := .complete, ftype := 7, fdecIdx := 15, fdecHit := true }
/-- A record of a satellite at a time, with this P in slot 0. -/
def tRec (sat : Byte) (time p : DWord) : Rec :=
  { sat := sat, time := time, tv := true, slots := [{ SlotRec.zero with p := p }, SlotRec.zero] }
/-- OPEN, with these two records in OBS, `n` of them live. -/
def tObs (a b : Rec) (n : Byte) : State := { tOpen with obs := [a, b], obsN := n }
/-- OPEN, with these two records in OBUF, `n` of them staged. -/
def tStg (a b : Rec) (n : Byte) : State := { tOpen with obuf := [a, b], stgN := n }
/-- OPEN, with an entry at LK[2][1]. -/
def tLk (e : LkEntry) : State := { tOpen with lk := lkSet tOpen.lk 2 1 e }

/-- The state after a command (the state before it, if it stops, which none does). -/
def after (i : Instr) (s : State) : State :=
  match exec i s with
  | .next t => t
  | .fault _ => s
  | .refused _ => s

/-- The command answers a next state. -/
def answers (i : Instr) (s : State) : Bool :=
  match exec i s with
  | .next _ => true
  | .fault _ => false
  | .refused _ => false

theorem exec_after {i : Instr} {s : State} (h : answers i s = true) : exec i s = .next (after i s) := by
  unfold answers at h
  unfold after
  split at h <;> simp_all

/-- The result of a command as the host sees it: CODE, CAUSE, RES0, RES1. -/
def result (i : Instr) (s : State) : Code × Cause × Word × Word := let t := after i s; (t.code, t.cause, t.res0, t.res1)

/-! ## Single steps -/

/-- R110's example. -/
theorem test_nop : after .nop { tOpen with code := .refused, cause := .wrongState } = { tOpen with code := .ok, cause := .none } := by decide

/-- 95_test_vectors.md section 2.2: OPEN gives STATUS 0x00010000 and clears WERR; a CFG register short of legal refuses it. -/
theorem test_open : (after .openSession { tClosed with werr := true, obsN := 1 }).statusWord = 0x00010000 ∧
    (after .openSession { tClosed with obsN := 1 }).obsN = 0 := by decide
theorem test_open_illegal : (after .openSession { tClosed with cfg := { tCfg with frameMax := 6 } }).code = .refused ∧
    (after .openSession { tClosed with cfg := { tCfg with frameMax := 7 } }).code = .ok ∧
    (after .openSession { tClosed with cfg := { tCfg with frameMax := 17 } }).cause = .cfgIllegal ∧
    (after .openSession { tClosed with cfg := { tCfg with ckCfg := 0x0002000B } }).cause = .cfgIllegal := by decide

/-- R114: a held frame is dropped, a staged record is flushed, the session closes. -/
theorem test_eoi : (let t := after .eoi { tHeld [1] with obuf := [tRec 3 9 1, Rec.zero 2], stgN := 2 }
    (t.statusWord, t.flen, t.stgN, t.obsN, t.obs.head?)) = (0x00000001, 0, 0, 1, some (tRec 3 9 1)) := by decide

/-- R124: the second sync byte starts a frame; a window that overlaps itself slides. -/
theorem test_feed_sync : (let t := after (.feed 0x42) { tOpen with win := [0x41, 0, 0, 0, 0], wcnt := 1 }
    (t.statusWord, t.nbyte, Memory.read t.buf 0, Memory.read t.buf 1)) = (0x00030000, 2, 0x41, 0x42) ∧
    (after (.feed 0x41) { tOpen with win := [0x40, 0x41, 0, 0, 0], wcnt := 2 }).win = [0x41, 0x41, 0, 0, 0] := by decide
/-- R130: the last byte of a valid frame of type 7 gives FRAME_READY (STATUS 0x00070010) and FDEC 0x1F; a wrong one CK_MISMATCH. -/
theorem test_feed_last : (let t := after (.feed 2) (tPayload [0x41, 0x42, 0, 1, 7, 4] 7)
    (t.statusWord, t.fdecWord, t.ftype, t.nbyte)) = (0x00070010, 0x1F, 7, 7) ∧
    (let t := after (.feed 3) (tPayload [0x41, 0x42, 0, 1, 7, 4] 7)
    (t.code, t.cause, t.sstate, t.flen)) = (.error, .ckMismatch, .seeking, 0) := by decide

/-- R126's table at the ends of its ranges: L of "Af9" is 0xAF9, and the neighbours of each range are no digits. -/
theorem test_hex_digits : lengthTable 4 [0x41, 0x66, 0x39] = some 0xAF9 ∧ lengthTable 4 [0x30, 0x46, 0x61] = some 0x0FA ∧
    [0x2F#8, 0x3A, 0x40, 0x47, 0x60, 0x67].map (fun d => lenValue 4 [d, 0x30, 0x30]) = List.replicate 6 none := by decide

/-- R157: the validator uses CRC32_INIT and CRC32_XOROUT, and CK_ROTF (CKF is 0 here). The range is the payload byte; the trailers are those
of FF under CRC32 std and of 80 under ROTXOR+F in 95_test_vectors.md section 2.4. -/
theorem test_validator : (after (.feed 0xFF) { tPayload [0x41, 0x42, 0, 1, 7, 0xFF, 0, 0, 0] 10 with
      cfg := { tCfg with ckCfg := 0x00050004, crc32Init := 0xFFFFFFFF, crc32Xorout := 0xFFFFFFFF } }).code = .frameReady ∧
    (after (.feed 2) { tPayload [0x41, 0x42, 0, 1, 7, 0x80] 7 with cfg := { tCfg with ckCfg := 0x00050011 } }).code = .frameReady := by decide

/-- R132: FEEDN stops at FRAME_READY; the byte above it is not fed. -/
theorem test_feedn : (let t := after (.feedn 4) { tPayload [0x41, 0x42, 0, 1, 7] 7 with arg0 := 0x41FF0204, res1 := 9 }
    (t.statusWord, t.res0, t.res1)) = (0x00070010, 2, 0) := by decide

/-- R133: RELEASE keeps FTYPE and FDEC; a second one is refused. -/
theorem test_release : (let t := after .release (tHeld [1]); (t.statusWord, t.nbyte, t.flen, t.ftype, t.fdecWord)) = (0x00010000, 0, 0, 7, 0x1F) ∧
    (after .release tOpen).cause = .wrongState := by decide

/-- R158's example, and init(CRC32) = CRC32_INIT. -/
theorem test_ckInit : (let t := after (.ckInit false 5) State.reset; (t.ckstatWord, t.acc)) = (5, 0) ∧
    (after (.ckInit true 4) { tClosed with cfg := { tCfg with crc32Init := 0xFFFFFFFF } }).acc = 0xFFFFFFFF := by decide

/-- R159's example: "1234" under CRC24Q. -/
theorem test_ckUpd : (after (.ckUpd 4) { tClosed with cka := some .crc24q, arg0 := 0x34333231 }).acc = 0x548AB0 := by decide

/-- R160: v = 0xCDE703 gives RES1 = 0x0003E7CD; CRC-32 is little-endian and final-XORed. -/
theorem test_ckFin : result .ckFin { tClosed with cka := some .crc24q, acc := 0xCDE703 } = (.ok, .none, 0xCDE703, 0x0003E7CD) ∧
    result .ckFin { tClosed with cka := some .crc32, acc := 0x340BC6D9, cfg := { tCfg with crc32Xorout := 0xFFFFFFFF } } =
      (.ok, .none, 0xCBF43926, 0xCBF43926) := by decide

/-- R161: a range of the held frame; one byte past it is OOB. -/
theorem test_ckFrm : (after (.ckFrm 5) { tHeld [1, 2, 4] with cka := some .add8, arg0 := 3 }).acc = 7 ∧
    (after (.ckFrm 5) { tHeld [1, 2, 4] with cka := some .add8, arg0 := 5 }).cause = .oob := by decide

/-- R183: byte order, and the all-ones sentinel. -/
theorem test_fxU : result (.fxU .little .none 3 5) (tHeld [0x11, 0x22, 0x33, 0x44]) = (.ok, .none, 0x44332211, 0) ∧
    result (.fxU .big .none 7 2) (tHeld [0x11, 0x22, 0x33, 0x44, 0x55]) = (.ok, .none, 0x22334455, 0x00050711) ∧
    (after (.fxU .big .ones 1 5) (tHeld [0xFF, 0xFF])).fxMissing = true := by decide

/-- R184's examples: FF, and 80 00 big-endian. -/
theorem test_fxS : result (.fxS .little .none 0 5) (tHeld [0xFF]) = (.ok, .none, 0xFFFFFFFF, 0xFFFFFFFF) ∧
    result (.fxS .big .none 1 5) (tHeld [0x80, 0x00]) = (.ok, .none, 0xFFFF8000, 0xFFFFFFFF) := by decide

/-- R185, R187: 1.0, and the smallest normal 2^-126, whose binary64 exponent is 897; a NaN is 0 and missing. -/
theorem test_fxF32 : result (.fxF32 .big .none 5) (tHeld [0x3F, 0x80, 0, 0]) = (.ok, .none, 0, 0x3FF00000) ∧
    result (.fxF32 .big .none 5) (tHeld [0x00, 0x80, 0, 0]) = (.ok, .none, 0, 0x38100000) ∧
    (let t := after (.fxF32 .big .none 5) (tHeld [0x7F, 0x80, 0, 1]); (t.res1, t.fxfWord)) = (0, 3) := by decide
/-- R187's subnormal example 0x00000001, and -0.0. -/
theorem test_fxF32_subnormal : result (.fxF32 .big .none 5) (tHeld [0, 0, 0, 1]) = (.ok, .none, 0, 0x36A00000) ∧
    result (.fxF32 .big .none 5) (tHeld [0x80, 0, 0, 0]) = (.ok, .none, 0, 0x80000000) := by decide

/-- R186's example: pi. -/
theorem test_fxF64 : result (.fxF64 .big .none 5) (tHeld [0x40, 0x09, 0x21, 0xFB, 0x54, 0x44, 0x2D, 0x18]) = (.ok, .none, 0x54442D18, 0x400921FB) := by
  decide

/-- 95_test_vectors.md section 1.4: a new TIME starts a new epoch with a fresh record; the same TIME overwrites. -/
theorem test_obsDwr : (let t := after (.obsDwr .arg false 0 1 2) { tObs (tRec 3 0 1) (tRec 2 0 5) 2 with arg0 := 9 }
    (t.obsN, (t.recAt t.obs 1).slots.map SlotRec.p)) = (2, [5, 9]) ∧
    (let t := after (.obsDwr .arg false 3 0 2) { tObs (tRec 3 0 1) (tRec 2 0 5) 2 with timeLo := 1, arg0 := 0x12345 }
    (t.obsN, t.recAt t.obs 0)) = (1, { tRec 2 1 0 with slots := [{ SlotRec.zero with snr := 0x2345 }, SlotRec.zero] }) := by decide
/-- R203: a full set refuses a new satellite and changes nothing. -/
theorem test_obsDwr_full : after (.obsDwr .arg false 0 0 1) (tObs (tRec 3 0 1) (tRec 2 0 5) 2) =
    { tObs (tRec 3 0 1) (tRec 2 0 5) 2 with code := .error, cause := .epochFull } := by decide

/-- R206: TIME and TV of a record; ORD_RANGE before SLOT_RANGE. -/
theorem test_obsRd : result (.obsRd 9 0 0) (tObs (tRec 3 0x500000007 1) (tRec 2 0 5) 1) = (.ok, .none, 7, 5) ∧
    result (.obsRd 0 2 1) { tObs (tRec 3 0 1) (tRec 2 0 5) 1 with res0 := 1 } = (.error, .ordRange, 0, 0) ∧
    result (.obsRd 0 2 0) { tObs (tRec 3 0 1) (tRec 2 0 5) 1 with res1 := 1 } = (.error, .slotRange, 0, 0) := by decide

/-- R208. -/
theorem test_stgCnt : (let t := after (.stgCnt 2) (tStg (tRec 3 0 1) (tRec 2 0 5) 1); (t.stgN, t.obuf)) = (2, [Rec.zero 2, Rec.zero 2]) ∧
    (after (.stgCnt 3) tOpen).cause = .countRange := by decide
/-- R209. -/
theorem test_stgSat : (after (.stgSat 1 9) (tStg (tRec 3 0 1) (tRec 2 0 5) 2)).obuf = [tRec 3 0 1, tRec 9 0 5] ∧
    (after (.stgSat 1 9) (tStg (tRec 3 0 1) (tRec 2 0 5) 1)).cause = .ordRange := by decide
/-- R210. -/
theorem test_stgChk : (after (.stgChk 2) (tStg (tRec 3 0 1) (tRec 2 0 5) 1)).cause = .countMismatch ∧
    (after (.stgChk 1) (tStg (tRec 3 0 1) (tRec 2 0 5) 1)).code = .ok := by decide
/-- R211: a missing value still stamps the record. -/
theorem test_stgWr : (after (.stgWr .res false 0 0 0) { tStg (Rec.zero 2) (Rec.zero 2) 1 with fxMissing := true, res0 := 5, timeHi := 1 }).obuf =
    [tRec 0 0x100000000 0, Rec.zero 2] ∧
    (after (.stgWr .res false 0 0 0) { tStg (Rec.zero 2) (Rec.zero 2) 1 with arg1 := 5, res0 := 5 }).obuf = [tRec 0 0 5, Rec.zero 2] := by decide
/-- R212's example. -/
theorem test_stgRd : result (.stgRd 10 0 0) (tStg (tRec 3 0 1) (Rec.zero 2) 2) = (.ok, .none, 1, 0) := by decide
/-- R214's example: the second staged record has no satellite. -/
theorem test_flush : (let t := after .flush { tStg (tRec 0 0 1) (tRec 2 4 5) 2 with obs := [tRec 1 1 1, tRec 1 1 2], obsN := 2 }
    (t.code, t.obsN, t.obs, t.stgN)) = (.obsUpdate, 1, [tRec 2 4 5, tRec 1 1 2], 0) := by decide

/-- 95_test_vectors.md sections 1.5, 1.7: a mismatch equal to the slack is no slip while LK_GE is 0; a decrease always is. -/
theorem test_lkUpd : (after (.lkUpd true false false 1 2) { tLk ⟨5, 0, false, true⟩ with timeLo := 10, arg0 := 5 }).res0 = 0 ∧
    (after (.lkUpd true false false 1 2) { tLk ⟨5, 0, false, true⟩ with timeLo := 11, arg0 := 5 }).res0 = 1 ∧
    (after (.lkUpd true false true 1 2) { tLk ⟨5, 0, true, true⟩ with arg0 := 4 }).res0 = 3 := by decide
theorem test_lkUpd_half : (after (.lkUpd false true true 1 2) (tLk ⟨5, 0, false, true⟩)).res0 = 3 ∧
    (after (.lkUpd false true true 1 2) (tLk ⟨5, 0, false, false⟩)).res0 = 2 ∧
    lkGet (after (.lkUpd false false true 1 2) { tLk ⟨5, 0, false, true⟩ with arg0 := 7, timeLo := 3 }).lk 2 1 = ⟨5, 3, true, true⟩ := by decide
/-- R243. -/
theorem test_lkRd : result (.lkRd 2 1 2) (tLk ⟨5, 0x500000007, true, true⟩) = (.ok, .none, 3, 0) ∧
    result (.lkRd 1 1 2) (tLk ⟨5, 0x500000007, true, true⟩) = (.ok, .none, 7, 5) ∧
    result (.lkRd 1 1 4) { tLk ⟨5, 7, true, true⟩ with res0 := 1 } = (.error, .satRange, 0, 0) := by decide

/-- 10_state.md R27 and R36: a CFG write while OPEN sets WERR (95_test_vectors.md section 3, program 5). -/
theorem test_cfg_write : (match tOpen.busWrite 0x080 32 1 with | .next t => (t.statusWord, t.busRead 0x080 32) | _ => (0, 0)) = (0x00090000, 2) ∧
    (match tClosed.busWrite 0x090 32 0xFFFFFFFD with | .next t => t.busRead 0x090 32 | _ => 0) = 5 := by decide
/-- 10_state.md R25: the parameter words of the default instance. -/
theorem test_params : State.reset.busRead 0x004 32 = 0x0003FF60 ∧ State.reset.busRead 0x008 32 = 0x00004000 ∧ State.reset.busRead 0x008 16 = 0 := by
  decide

/-! ## Witnesses: for every statement with hypotheses, states and operands that meet them -/

/-- `State.syncOk` as a Bool. -/
def syncOkB (s : State) : Bool :=
  match s.sstate with
  | .seeking => decide (s.nbyte = 0 ∧ s.flen = 0 ∧ s.wcnt ≤ (if s.isOpen then s.syncLen else 0))
  | .header => decide (s.wcnt = 0 ∧ s.syncLen ≤ s.nbyte.toNat ∧ s.nbyte.toNat < s.hdrLen ∧
      (s.nbyte.toNat < s.lenOff + lenWidth s.lenEnc → s.flen = 0) ∧
      (s.lenOff + lenWidth s.lenEnc ≤ s.nbyte.toNat → s.hdrLen + 1 + s.trl ≤ s.flen.toNat ∧ s.flen.toNat ≤ s.frameMax))
  | .payload => decide (s.wcnt = 0 ∧ s.hdrLen ≤ s.nbyte.toNat ∧ s.nbyte.toNat < s.flen.toNat ∧
      s.hdrLen + 1 + s.trl ≤ s.flen.toNat ∧ s.flen.toNat ≤ s.frameMax)
  | .complete => decide (s.wcnt = 0 ∧ s.nbyte = s.flen ∧ s.hdrLen + 1 + s.trl ≤ s.flen.toNat ∧ s.flen.toNat ≤ s.frameMax)

/-- The invariant as a Bool, for a state with no host checksum in progress. -/
def invB (s : State) : Bool :=
  s.params.legal && Memory.wf s.buf && Memory.below s.params.bufSize s.buf && decide (s.win.length = 5) &&
  decide (s.obs.length = s.params.maxObs) && decide (∀ r ∈ s.obs, r.slots.length = s.params.nSlot) &&
  decide (s.obuf.length = s.params.maxObs) && decide (∀ r ∈ s.obuf, r.slots.length = s.params.nSlot) &&
  decide (s.obsN.toNat ≤ s.params.maxObs) && decide (s.stgN.toNat ≤ s.params.maxObs) &&
  decide (∀ i, i < s.obsN.toNat → (s.recAt s.obs i).sat ≠ 0 ∧ (s.recAt s.obs i).tv = true) &&
  decide (s.lk.length = s.params.maxSat) && decide (∀ row ∈ s.lk, row.length = s.params.nSlot) &&
  decide (s.cfg.tfType.length = ntype) && s.cfg.reservedZero && (s.isOpen || s.sstate == .seeking) && (!s.isOpen || s.cfgLegal) &&
  syncOkB s && decide (s.cka = none ∧ s.acc = 0) && outcomeOk s.code s.cause && (s.fdecHit || s.fdecIdx == 0) && (!s.fxNan || s.fxMissing)

theorem inv_of_invB {s : State} (h : invB s = true) : s.Inv := by
  simp only [invB, Bool.and_eq_true, decide_eq_true_eq, Bool.or_eq_true, Bool.not_eq_true', beq_iff_eq] at h
  obtain ⟨⟨⟨⟨⟨⟨⟨⟨⟨⟨⟨⟨⟨⟨⟨⟨⟨⟨⟨⟨⟨h1, h2⟩, h3⟩, h4⟩, h5⟩, h6⟩, h7⟩, h8⟩, h9⟩, h10⟩, h11⟩, h12⟩, h13⟩, h14⟩, h15⟩, h16⟩, h17⟩, h18⟩, h19⟩, h20⟩,
    h21⟩, h22⟩ := h
  refine ⟨h1, h2, h3, h4, h5, h6, h7, h8, h9, h10, h11, h12, h13, h14, h15, fun h => h16.resolve_left (by simp [h]),
    fun h => h17.resolve_left (by simp [h]), ?_, ?_, h20, fun h => h21.resolve_left (by simp [h]), fun h => h22.resolve_left (by simp [h])⟩
  · unfold syncOkB at h18
    unfold State.syncOk State.flenOk
    cases he : s.sstate <;> simp only [he] at h18 ⊢ <;> exact of_decide_eq_true h18
  · rw [h19.1]; exact h19.2

theorem inv_tClosed : tClosed.Inv := inv_of_invB (by decide)
theorem inv_tOpen : tOpen.Inv := inv_of_invB (by decide)
theorem inv_tHeld : (tHeld [1, 2, 4]).Inv := inv_of_invB (by decide)

/-! ### Encoding -/

theorem witness_DecodeOfEncodeIsTheCommand : (Instr.feedn 1).wf = true ∧ (Instr.feedn 4).wf = true ∧ (Instr.obsRd 10 0 0xFF).wf = true := by decide
theorem witness_EncodeOfDecodeIsTheWord : decode 0x14000001 = .ok (.feedn 1) ∧ decode 0x64A0FF00 = .ok (.obsRd 10 0 0xFF) := by decide
theorem witness_MaskAndMatchSelectTheOpcode : (Opcode.feedn, 0x14000000#32, 0xFFFFFFF8#32) ∈ opcodeRows := by decide

/-! ### Bus, reset and step -/

/-- `s` with one transaction to do. -/
def withEvent (s : State) (e : BusEvent) : State := { s with bus := [e] }

theorem witness_StepPerformsTheIssuedCommand : (withEvent tOpen (issueEvent tp 0x7C000000)).bus = issueEvent tOpen.params 0x7C000000 :: [] ∧
    decode 0x7C000000 = .ok .flush ∧ decode 0x0C000000 = .error .badOpcode ∧ decode 0x7C000001 = .error .badField := by decide
theorem witness_IdleStepsAndHardwareReset : tHeld [1, 2, 4] = { tHeld [1, 2, 4] with bus := [] } ∧
    (withEvent (tHeld [1, 2, 4]) .reset).bus = .reset :: [] := by decide
theorem witness_RegistersReadTheirState : tOpen.params.legal = true := by decide
theorem witness_ConfigurationIsLockedWhileOpen : IsCfg 0x080 0x00000007 ∧ IsCfg 0x0C0 0x0000FFFF ∧ IsCfg 0x100 0xFFFFFFFF ∧
    IsCfg 0x13C 0xFFFFFFFF ∧ tOpen.cfg.tfType.length = 16 ∧ tOpen.isOpen = true ∧ tClosed.cfg.tfType.length = 16 ∧ tClosed.isOpen = false := by
  unfold IsCfg; decide
theorem witness_WritesStoreOrAreIgnored : (16 : Nat) ≠ 32 ∧ 0x015 % 4 ≠ 0 ∧ 0x00F < 0x010 ∧ (0x01C ≤ 0x01C ∧ 0x043 < 0x044) ∧
    (0x04C ≤ 0x04C ∧ 0x07F < 0x080) ∧ (0x0C4 ≤ 0x0C4 ∧ 0x0FF < 0x100) ∧ 0x140 ≤ 0x140 := by decide
theorem witness_TransactionsReachTheWindowOnly : tp.fssBase ≤ 0x1000 ∧ 0x11FF < tp.fssBase + 512 ∧ 0xFFF < tp.fssBase ∧
    tp.fssBase + 512 ≤ 0x1200 ∧ (withEvent tOpen (.read 0x1000 32)).bus = .read 0x1000 32 :: [] ∧
    (withEvent tOpen (.write 0x11FF 8 3)).bus = .write 0x11FF 8 3 :: [] ∧ tOpen.params = tp := by decide
theorem witness_ResetValues : tp.legal = true ∧ Params.default.legal = true ∧ IsCfg 0x0A4 0x0000FFFF ∧ IsCfg 0x13C 0xFFFFFFFF ∧
    (withEvent (tHeld [1, 2, 4]) .reset).params = tp ∧ (withEvent (tHeld [1, 2, 4]) .reset).bus = .reset :: [] := by
  unfold IsCfg; decide

/-! ### The invariant -/

theorem witness_StepKeepsTheInvariant : (withEvent (tHeld [1, 2, 4]) (issueEvent tp 0x18000000)).Inv ∧
    step (withEvent (tHeld [1, 2, 4]) (issueEvent tp 0x18000000)) = .next (after .release (tHeld [1, 2, 4])) :=
  ⟨inv_of_invB (by decide), by rfl⟩
theorem witness_ResetMeetsTheInvariant : tp.legal = true := by decide
theorem witness_StepKeepsBufCanonical : Memory.wf (tHeader [0x41, 0x42] 0).buf = true ∧
    step (withEvent (tHeader [0x41, 0x42] 0) (issueEvent tp 0x10000009)) = .next (after (.feed 9) (tHeader [0x41, 0x42] 0)) :=
  ⟨by decide, by rfl⟩

/-! ### Every command -/

theorem witness_EveryOutcomeIsOfItsClass : exec .flush (tStg (tRec 2 4 5) (tRec 2 4 5) 1) = .next (after .flush (tStg (tRec 2 4 5) (tRec 2 4 5) 1)) ∧
    (after .flush (tStg (tRec 2 4 5) (tRec 2 4 5) 1)).code = .obsUpdate ∧
    exec (.feed 2) (tPayload [0x41, 0x42, 0, 1, 7, 4] 7) = .next (after (.feed 2) (tPayload [0x41, 0x42, 0, 1, 7, 4] 7)) ∧
    (after (.feed 2) (tPayload [0x41, 0x42, 0, 1, 7, 4] 7)).code = .frameReady := ⟨rfl, by decide, rfl, by decide⟩
theorem witness_RefusedChangesOnlyStatus : tOpen.issue 0x0C000000 = .next (tOpen.raiseRefused .badOpcode) ∧
    tOpen.issue 0x14000000 = .next (tOpen.raiseRefused .badField) ∧ tOpen.issue 0x18000000 = .next (tOpen.raiseRefused .wrongState) ∧
    State.reset.issue 0x04000000 = .next (State.reset.raiseRefused .cfgIllegal) ∧
    exec .eoi tClosed = .next (tClosed.raiseRefused .wrongState) := ⟨rfl, rfl, rfl, rfl, rfl⟩
theorem witness_ErrorsChangeOnlyWhatIsListed : exec (.feed 3) (tPayload [0x41, 0x42, 0, 1, 7, 4] 7) = .next (after (.feed 3) (tPayload [0x41, 0x42, 0, 1, 7, 4] 7)) ∧
    (after (.feed 3) (tPayload [0x41, 0x42, 0, 1, 7, 4] 7)).code = .error ∧
    Memory.wf (tPayload [0x41, 0x42, 0, 1, 7, 4] 7).buf = true ∧ (6 : Nat) ∉ feedStores [4] (tPayload [0x41, 0x42, 0, 1, 7] 7) ∧
    exec (.feedn 1) (tPayload [0x41, 0x42, 0, 1, 7, 4] 7) = .next (after (.feedn 1) (tPayload [0x41, 0x42, 0, 1, 7, 4] 7)) ∧
    (after (.feedn 1) (tPayload [0x41, 0x42, 0, 1, 7, 4] 7)).code = .error ∧
    exec (.lkRd 0 0 0) tOpen = .next (after (.lkRd 0 0 0) tOpen) ∧ (after (.lkRd 0 0 0) tOpen).code = .error ∧
    exec (.fxU .big .none 0 0) tOpen = .next (after (.fxU .big .none 0 0) tOpen) ∧ (after (.fxU .big .none 0 0) tOpen).code = .error ∧
    exec (.stgChk 1) tOpen = .next (after (.stgChk 1) tOpen) ∧ (after (.stgChk 1) tOpen).code = .error :=
  ⟨rfl, by decide, by decide, by decide, rfl, by decide, rfl, by decide, rfl, by decide, rfl, by decide⟩
theorem witness_CommandsAreRefusedOutsideTheirStates : (Instr.feedn 4).wf = true ∧ ¬ Allowed (.feedn 4) (tHeld [1, 2, 4]) ∧ Allowed (.feedn 4) tOpen := by
  unfold Allowed; decide
theorem witness_CommandsLeaveTheHostsRegisters : exec .openSession { tClosed with werr := true } = .next (after .openSession { tClosed with werr := true }) ∧
    (after .openSession { tClosed with werr := true }).isOpen ≠ tClosed.isOpen ∧ (after .openSession { tClosed with werr := true }).werr ≠ true ∧
    exec .eoi tOpen = .next (after .eoi tOpen) ∧ (after .eoi tOpen).isOpen ≠ tOpen.isOpen := ⟨rfl, by decide, by decide, rfl, by decide⟩
theorem witness_OnlyListedCommandsWriteTheInternalSpaces : exec (.feed 9) (tHeader [0x41, 0x42] 0) = .next (after (.feed 9) (tHeader [0x41, 0x42] 0)) ∧
    Memory.read (after (.feed 9) (tHeader [0x41, 0x42] 0)).buf 2 ≠ Memory.read (tHeader [0x41, 0x42] 0).buf 2 ∧
    exec (.obsDwr .arg false 0 0 1) tOpen = .next (after (.obsDwr .arg false 0 0 1) tOpen) ∧ (after (.obsDwr .arg false 0 0 1) tOpen).obs ≠ tOpen.obs ∧
    exec (.stgCnt 2) tOpen = .next (after (.stgCnt 2) tOpen) ∧ (after (.stgCnt 2) tOpen).stgN ≠ tOpen.stgN ∧
    exec (.lkUpd false false true 1 3) tOpen = .next (after (.lkUpd false false true 1 3) tOpen) ∧
    (after (.lkUpd false false true 1 3) tOpen).lk ≠ tOpen.lk :=
  ⟨rfl, by decide, rfl, by decide, rfl, by decide, rfl, by decide⟩
theorem witness_OnlyListedCommandsWriteTheResultRegisters : exec (.feedn 1) tOpen = .next (after (.feedn 1) tOpen) ∧
    (after (.feedn 1) tOpen).res0 ≠ tOpen.res0 ∧ (after (.feedn 1) tOpen).wcnt ≠ tOpen.wcnt ∧
    exec (.fxU .big .ones 0 5) (tHeld [0xFF]) = .next (after (.fxU .big .ones 0 5) (tHeld [0xFF])) ∧
    (after (.fxU .big .ones 0 5) (tHeld [0xFF])).fxMissing ≠ (tHeld [0xFF]).fxMissing ∧
    exec (.ckInit false 1) tOpen = .next (after (.ckInit false 1) tOpen) ∧ (after (.ckInit false 1) tOpen).cka ≠ tOpen.cka ∧
    exec .openSession { tClosed with ftype := 7 } = .next (after .openSession { tClosed with ftype := 7 }) ∧
    (after .openSession { tClosed with ftype := 7 }).ftype ≠ 7 :=
  ⟨rfl, by decide, by decide, rfl, by decide, rfl, by decide, rfl, by decide⟩

/-! ### Session -/

/-- The fields of `tCfg` as the statement reads them: SYNC_LEN 2, HDR_LEN 5, LEN_OFF 2, LEN_ENC 1 (LW 2), CK_ALG 2 (TRL 1), CK_INCL 0, CK_START 2,
TYPE_OFF 4, TYPE_W 1, FRAME_MAX 16 = BUF_SIZE. -/
theorem witness_OpenStartsASessionOnALegalConfiguration : tOpen.isOpen = true ∧ State.reset.isOpen = false ∧
    ¬ 1 ≤ (State.reset.busRead 0x080 32).toNat % 2 ^ 3 ∧ tClosed.isOpen = false ∧
    (let w (off : Nat) : Nat := (tClosed.busRead off 32).toNat
     w 0x080 % 2 ^ 3 = 2 ∧ w 0x08C % 2 ^ 16 = 5 ∧ w 0x08C / 2 ^ 16 = 2 ∧ w 0x090 % 2 ^ 3 = 1 ∧ w 0x094 % 2 ^ 3 = 2 ∧ w 0x094 / 2 ^ 3 % 2 = 0 ∧
     w 0x094 / 2 ^ 16 = 2 ∧ w 0x0A0 % 2 ^ 16 = 4 ∧ w 0x0A0 / 2 ^ 16 % 2 ^ 3 = 1 ∧ w 0x0A4 % 2 ^ 16 = 16 ∧ tClosed.params.bufSize = 16) := by decide
theorem witness_EoiFlushesAndCloses : tClosed.isOpen = false ∧ tOpen.isOpen = true ∧
    (tOpen.obuf.take tOpen.stgN.toNat).filter (fun r => r.sat ≠ 0 ∧ r.tv = true) = [] ∧
    ((tStg (tRec 2 4 5) (tRec 3 4 5) 2).obuf.take 2).filter (fun r => r.sat ≠ 0 ∧ r.tv = true) ≠ [] := by decide

/-! ### Synchronizer -/

/-- SEEKING with this window. -/
def tSeek (win : List Byte) (wcnt : Nat) : State := { tOpen with win := win ++ List.replicate (5 - win.length) 0, wcnt := wcnt }

theorem inv_tSeek : (tSeek [0x41] 1).Inv ∧ (tSeek [0x42, 0x41] 2).Inv := ⟨inv_of_invB (by decide), inv_of_invB (by decide)⟩

theorem witness_SeekingMatchesThePattern : (tSeek [0x42, 0x41] 2).Inv ∧ (tSeek [0x42, 0x41] 2).isOpen = true ∧ (tSeek [0x42, 0x41] 2).sstate = .seeking ∧
    ([0x42, 0x41, 0x42].drop (3 - (tSeek [0x42, 0x41] 2).syncLen) = (tSeek [0x42, 0x41] 2).pattern.take (tSeek [0x42, 0x41] 2).syncLen) ∧
    ([0x42, 0x41, 0x41].drop (3 - (tSeek [0x42, 0x41] 2).syncLen) ≠ (tSeek [0x42, 0x41] 2).pattern.take (tSeek [0x42, 0x41] 2).syncLen) :=
  ⟨inv_tSeek.2, by decide⟩
theorem witness_HeaderBytesAreStored : (tHeader [0x41, 0x42] 0).Inv ∧ (tHeader [0x41, 0x42] 0).isOpen = true ∧ (tHeader [0x41, 0x42] 0).sstate = .header ∧
    (tHeader [0x41, 0x42] 0).nbyte.toNat + 1 ≠ tOpen.lenOff + lenWidth tOpen.lenEnc ∧
    (tHeader [0x41, 0x42, 0, 1] 7).Inv ∧ (tHeader [0x41, 0x42, 0, 1] 7).nbyte.toNat + 1 ≠ tOpen.lenOff + lenWidth tOpen.lenEnc ∧
    (tHeader [0x41, 0x42, 0, 1] 7).nbyte.toNat + 1 = tOpen.hdrLen :=
  ⟨inv_of_invB (by decide), by decide, by decide, by decide, inv_of_invB (by decide), by decide, by decide⟩
/-- A HEX3 configuration, one byte before the end of the length field. -/
def tHex : State := { tHeader [0x41, 0x42, 0x30, 0x30] 0 with cfg := { tCfg with lenCfg := 4 } }
theorem witness_LengthFieldDecidesTheFrame : (tHeader [0x41, 0x42, 0] 0).Inv ∧ (tHeader [0x41, 0x42, 0] 0).isOpen = true ∧
    (tHeader [0x41, 0x42, 0] 0).sstate = .header ∧ (tHeader [0x41, 0x42, 0] 0).nbyte.toNat + 1 = tOpen.lenOff + lenWidth tOpen.lenEnc ∧
    lengthTable tOpen.lenEnc [0, 0] = some 0 ∧ lengthTable tOpen.lenEnc [0, 11] = some 11 ∧ tOpen.frameMax < tOpen.hdrLen + 11 + tOpen.trl ∧
    lengthTable tOpen.lenEnc [0, 10] = some 10 ∧ tOpen.hdrLen + 10 + tOpen.trl = tOpen.frameMax ∧
    tHex.Inv ∧ tHex.sstate = .header ∧ tHex.nbyte.toNat + 1 = tHex.lenOff + lenWidth tHex.lenEnc ∧ lengthTable tHex.lenEnc [0x30, 0x30, 0x67] = none :=
  ⟨inv_of_invB (by decide), by decide, by decide, by decide, by decide, by decide, by decide, by decide, by decide, inv_of_invB (by decide),
   by decide, by decide, by decide⟩
theorem witness_PayloadBytesCompleteTheFrame : (tPayload [0x41, 0x42, 0, 1, 7, 4] 7).Inv ∧ (tPayload [0x41, 0x42, 0, 1, 7, 4] 7).isOpen = true ∧
    (tPayload [0x41, 0x42, 0, 1, 7, 4] 7).sstate = .payload ∧ (tPayload [0x41, 0x42, 0, 1, 7] 7).Inv ∧
    (tPayload [0x41, 0x42, 0, 1, 7] 7).nbyte.toNat + 1 < (tPayload [0x41, 0x42, 0, 1, 7] 7).flen.toNat ∧
    (tPayload [0x41, 0x42, 0, 1, 7, 4] 7).nbyte.toNat + 1 = (tPayload [0x41, 0x42, 0, 1, 7, 4] 7).flen.toNat ∧
    tOpen.validFrame [0x41, 0x42, 0, 1, 7, 4, 2] ∧ ¬ tOpen.validFrame [0x41, 0x42, 0, 1, 7, 4, 3] ∧ tOpen.typeAccepted [0x41, 0x42, 0, 1, 7, 4, 2] ∧
    tOpen.validFrame [0x41, 0x42, 0, 1, 6, 4, 3] ∧ ¬ tOpen.typeAccepted [0x41, 0x42, 0, 1, 6, 4, 3] := by
  refine ⟨inv_of_invB (by decide), by decide, by decide, inv_of_invB (by decide), by decide, by decide, ?_, ?_, ?_, ?_, ?_⟩
  · show Alg.serialize .xor _ = _; decide
  · show ¬ Alg.serialize .xor _ = _; decide
  · exact .inr ⟨15, by decide, by decide, by decide⟩
  · show Alg.serialize .xor _ = _; decide
  · unfold State.typeAccepted; decide
theorem witness_FeednEqualsFeeds : 1 ≤ (1 : BitVec 3).toNat ∧ (4 : BitVec 3).toNat ≤ 4 ∧ tOpen.isOpen = true ∧ tOpen.sstate ≠ .complete := by decide
theorem witness_ReleaseEndsComplete : (tHeld [1, 2, 4]).isOpen = true ∧ (tHeld [1, 2, 4]).sstate = .complete ∧ tOpen.sstate ≠ .complete := by decide
theorem witness_HeldFrameIsImmutable : (tHeld [1, 2, 4]).Inv ∧ (tHeld [1, 2, 4]).sstate = .complete ∧ Instr.flush ≠ .release ∧ Instr.flush ≠ .eoi ∧
    exec .flush (tHeld [1, 2, 4]) = .next (after .flush (tHeld [1, 2, 4])) := ⟨inv_tHeld, by decide, by decide, by decide, rfl⟩
theorem witness_ResyncWithinGarbagePlusFrame : (tSeek [0x41] 1).Inv ∧ (tSeek [0x41] 1).isOpen = true ∧ (tSeek [0x41] 1).sstate = .seeking ∧
    (tSeek [0x41] 1).legalFrame (tFrame 7 [4]) ∧ (tSeek [0x41] 1).typeAccepted (tFrame 7 [4]) ∧
    (tSeek [0x41] 1).legalFrame (tFrame 6 [4]) ∧ ¬ (tSeek [0x41] 1).typeAccepted (tFrame 6 [4]) ∧
    (∀ k, k < (tSeek [0x41] 1).wcnt + 2 → ((((tSeek [0x41] 1).win.take (tSeek [0x41] 1).wcnt ++ [0x41, 0x00] ++ tFrame 7 [4]).drop k).take
      (tSeek [0x41] 1).syncLen) ≠ (tSeek [0x41] 1).pattern.take (tSeek [0x41] 1).syncLen) := by
  refine ⟨inv_tSeek.1, by decide, by decide, ⟨by decide, ⟨1, by decide, by decide, by decide⟩, by decide, ?_⟩, .inr ⟨15, by decide, by decide, by decide⟩,
    ⟨by decide, ⟨1, by decide, by decide, by decide⟩, by decide, ?_⟩, by unfold State.typeAccepted; decide, by decide⟩
  · show Alg.serialize .xor _ = _; decide
  · show Alg.serialize .xor _ = _; decide

/-! ### Checksums -/

/-- A fed byte that matches the pattern stores SYNC_LEN bytes (R124), one that does not none, and a payload byte one at NBYTE (R128). -/
theorem test_feedStores : feedStores [0x42, 9] { tOpen with win := [0x41, 0, 0, 0, 0], wcnt := 1 } = [0, 1, 2] ∧ feedStores [9] tOpen = [] ∧
    feedStores [4] (tPayload [0x41, 0x42, 0, 1, 7] 7) = [5] := by decide

theorem witness_CheckValuesOfTheAlgorithms : (0xFF : Word).toNat < 2 ^ 8 ∧ (0xFFFFFF : Word).toNat < 2 ^ 24 := by decide
theorem witness_ResidueIsZeroExactlyForTheTrailer : [0x46#8].length = Alg.trl .xor ∧ [0xCD#8, 0xE7, 0x03].length = Alg.trl .crc24q := by decide
theorem witness_OneWrongByteIsRejected : tClosed.cfgLegal = true ∧ tClosed.ckAlg = some .xor ∧ tClosed.ckStart + Alg.trl .xor ≤ (tFrame 7 [4]).length ∧
    (tFrame 7 [4]).length = ((tFrame 7 [4]).set 2 1).length ∧ tClosed.ckStart ≤ 2 ∧ 2 < (tFrame 7 [4]).length ∧
    (tFrame 7 [4]).getD 2 0 ≠ ((tFrame 7 [4]).set 2 1).getD 2 0 ∧ (∀ i, i ≠ 2 → (tFrame 7 [4]).getD i 0 = ((tFrame 7 [4]).set 2 1).getD i 0) ∧
    tClosed.validFrame (tFrame 7 [4]) := by
  refine ⟨by decide, by decide, by decide, by decide, by decide, by decide, by decide, fun i hi => (getD_set_other _ _ _ hi).symm, ?_⟩
  show Alg.serialize .xor _ = _; decide
theorem witness_CkInitStartsTheAccumulator : 1 ≤ (1 : BitVec 3).toNat ∧ (5 : BitVec 3).toNat ≤ 5 := by decide
theorem witness_CkUpdFoldsTheBytes : 1 ≤ (1 : BitVec 3).toNat ∧ (4 : BitVec 3).toNat ≤ 4 ∧ tOpen.cka = none ∧
    ({ tOpen with cka := some .add8 } : State).cka = some .add8 := by decide
theorem witness_CkFinReadsTheValueAndTrailer : tOpen.cka = none ∧ ({ tOpen with cka := some .crc32 } : State).cka = some .crc32 := by decide
theorem witness_CkFrmFoldsTheHeldFrame : tOpen.cka = none ∧ ({ tHeld [1, 2, 4] with cka := some .xor, arg0 := 4 } : State).cka = some .xor ∧
    (tHeld [1, 2, 4]).sstate = .complete ∧ (5 : BitVec 16).toNat + (4 : Word).toNat = (tHeld [1, 2, 4]).flen.toNat ∧
    (tHeld [1, 2, 4]).flen.toNat < (5 : BitVec 16).toNat + (5 : Word).toNat := by decide

/-! ### Field codec -/

/-- A held frame with eight bytes of payload, at offsets 5 to 12 of its 14 bytes. -/
def tHeld8 (p : List Byte) : State := tHeld (p ++ List.replicate (8 - p.length) 0)

theorem witness_CodecReadsOutsideTheFrameAreOob : (tHeld8 []).sstate = .complete ∧ (tHeld8 []).flen.toNat < (14 : BitVec 16).toNat + ((0 : BitVec 3).toNat + 1) ∧
    (tHeld8 []).flen.toNat < (11 : BitVec 16).toNat + 4 ∧ (tHeld8 []).flen.toNat < (7 : BitVec 16).toNat + 8 ∧ tOpen.sstate ≠ .complete := by decide
theorem witness_FxUReadsAnUnsignedInteger : (tHeld8 []).sstate = .complete ∧
    (6 : BitVec 16).toNat + ((7 : BitVec 3).toNat + 1) = (tHeld8 []).flen.toNat ∧ (0 : BitVec 16).toNat + ((0 : BitVec 3).toNat + 1) ≤ (tHeld8 []).flen.toNat := by
  decide
theorem witness_FxSReadsASignedInteger : (tHeld8 []).sstate = .complete ∧ (6 : BitVec 16).toNat + ((7 : BitVec 3).toNat + 1) ≤ (tHeld8 []).flen.toNat := by
  decide
theorem witness_FxF32WidensExactly : (tHeld8 []).sstate = .complete ∧ (10 : BitVec 16).toNat + 4 = (tHeld8 []).flen.toNat ∧
    bytesSum .big (Memory.slice (tHeld8 [0x7F, 0xC0, 0, 0]).buf 5 4) / 2 ^ 23 % 2 ^ 8 = 0xFF ∧
    bytesSum .big (Memory.slice (tHeld8 [0x7F, 0xC0, 0, 0]).buf 5 4) % 2 ^ 23 ≠ 0 ∧
    bytesSum .big (Memory.slice (tHeld8 [0xFF, 0x80, 0, 0]).buf 5 4) / 2 ^ 23 % 2 ^ 8 = 0xFF ∧
    bytesSum .big (Memory.slice (tHeld8 [0xFF, 0x80, 0, 0]).buf 5 4) % 2 ^ 23 = 0 ∧
    bytesSum .big (Memory.slice (tHeld8 [0x7F, 0x7F, 0xFF, 0xFF]).buf 5 4) / 2 ^ 23 % 2 ^ 8 = 0xFE := by decide
theorem witness_FxF64PassesTheBits : (tHeld8 []).sstate = .complete ∧ (6 : BitVec 16).toNat + 8 = (tHeld8 []).flen.toNat ∧
    bytesSum .big (Memory.slice (tHeld8 [0x7F, 0xF0, 0, 0, 0, 0, 0, 1]).buf 5 8) / 2 ^ 52 % 2 ^ 11 = 0x7FF ∧
    bytesSum .big (Memory.slice (tHeld8 [0x7F, 0xF0, 0, 0, 0, 0, 0, 1]).buf 5 8) % 2 ^ 52 ≠ 0 ∧
    bytesSum .big (Memory.slice (tHeld8 [0x7F, 0xF0]).buf 5 8) % 2 ^ 52 = 0 := by decide
theorem witness_CodecNeverYieldsANaN : exec (.fxF32 .big .none 5) (tHeld8 [0x7F, 0xC0, 0, 0]) = .next (after (.fxF32 .big .none 5) (tHeld8 [0x7F, 0xC0, 0, 0])) ∧
    exec (.fxF64 .big .none 5) tOpen = .next (after (.fxF64 .big .none 5) tOpen) ∧
    exec (.fxU .big .ones 7 5) (tHeld8 []) = .next (after (.fxU .big .ones 7 5) (tHeld8 [])) ∧
    exec (.fxS .little .none 0 5) (tHeld8 [0xFF]) = .next (after (.fxS .little .none 0 5) (tHeld8 [0xFF])) := ⟨rfl, rfl, rfl, rfl⟩

/-! ### Epoch buffer -/

/-- Two live records at time 4, TIME 4. -/
def tTwo : State := { tObs (tRec 3 4 1) (tRec 2 4 5) 2 with timeLo := 4 }
/-- One live record at time 4, TIME 4. -/
def tOne : State := { tObs (tRec 3 4 1) (Rec.zero 2) 1 with timeLo := 4 }
/-- Two live records of satellite 3, as a flush may leave them. -/
def tDup : State := { tObs (tRec 3 4 1) (tRec 3 4 5) 2 with timeLo := 4 }

theorem inv_tTwo : tTwo.Inv := inv_of_invB (by decide)
theorem inv_tOne : tOne.Inv := inv_of_invB (by decide)

theorem witness_DirectWriteErrorsChangeNothing : tTwo.isOpen = true ∧ (5 : BitVec 4).toNat ≤ 5 ∧ (1 : Byte) ≠ 0 ∧
    tTwo.params.nSlot ≤ (2 : BitVec 4).toNat ∧ (1 : BitVec 4).toNat < tTwo.params.nSlot ∧
    tTwo.params.maxObs ≤ (if 0 < tTwo.obsN.toNat ∧ tTwo.time ≠ (tTwo.recAt tTwo.obs 0).time then 0 else tTwo.obsN.toNat) ∧
    (∀ j, j < 2 → (tTwo.recAt tTwo.obs j).sat ≠ 1) := by decide
theorem witness_DirectWriteOverwritesTheField : tTwo.Inv ∧ tTwo.isOpen = true ∧ (5 : BitVec 4).toNat ≤ 5 ∧ (2 : Byte) ≠ 0 ∧ (1 : BitVec 4).toNat < tTwo.params.nSlot ∧
    1 < tTwo.obsN.toNat ∧ tTwo.time = (tTwo.recAt tTwo.obs 0).time ∧ (tTwo.recAt tTwo.obs 1).sat = 2 ∧
    (∀ j, j < tTwo.obsN.toNat → (tTwo.recAt tTwo.obs j).sat = 2 → j = 1) := ⟨inv_tTwo, by decide⟩
theorem witness_DirectWriteAllocatesAFreshRecord : tOne.Inv ∧ tOne.isOpen = true ∧ (0 : BitVec 4).toNat ≤ 5 ∧ (2 : Byte) ≠ 0 ∧ (1 : BitVec 4).toNat < tOne.params.nSlot ∧
    (if 0 < tOne.obsN.toNat ∧ tOne.time ≠ (tOne.recAt tOne.obs 0).time then 0 else tOne.obsN.toNat) + 1 = tOne.params.maxObs ∧
    (∀ j, j < tOne.obsN.toNat → (tOne.recAt tOne.obs j).sat ≠ 2) ∧ ({ tTwo with timeHi := 1 } : State).Inv ∧
    0 < tTwo.obsN.toNat ∧ ({ tTwo with timeHi := 1 } : State).time ≠ (tTwo.recAt tTwo.obs 0).time :=
  ⟨inv_tOne, by decide, by decide, by decide, by decide, by decide, by decide, inv_of_invB (by decide), by decide, by decide⟩
theorem witness_DirectWritesKeepOneEpoch : tOne.Inv ∧
    (∀ i j, i < tOne.obsN.toNat → j < tOne.obsN.toNat → (tOne.recAt tOne.obs i).sat = (tOne.recAt tOne.obs j).sat → i = j) ∧
    (∀ i, i < tOne.obsN.toNat → (tOne.recAt tOne.obs i).time = (tOne.recAt tOne.obs 0).time) ∧
    exec (.obsDwr .arg false 0 0 2) tOne = .next (after (.obsDwr .arg false 0 0 2) tOne) ∧ (after (.obsDwr .arg false 0 0 2) tOne).code = .ok :=
  ⟨inv_tOne, fun i j hi hj _ => by simp [show tOne.obsN.toNat = 1 from rfl] at hi hj; omega, by decide, rfl, by decide⟩
theorem witness_DirectWriteAmongDuplicatesWritesOne : tDup.Inv ∧ tDup.isOpen = true ∧ (0 : BitVec 4).toNat ≤ 5 ∧ (3 : Byte) ≠ 0 ∧
    (0 : BitVec 4).toNat < tDup.params.nSlot ∧ tDup.time = (tDup.recAt tDup.obs 0).time ∧ 0 < 1 ∧ 1 < tDup.obsN.toNat ∧
    (tDup.recAt tDup.obs 0).sat = 3 ∧ (tDup.recAt tDup.obs 1).sat = 3 := ⟨inv_of_invB (by decide), by decide⟩
theorem witness_RecordReadsReturnTheField : (5 : BitVec 4).toNat ≤ 5 ∧ (8 ≤ (10 : BitVec 4).toNat ∧ (10 : BitVec 4).toNat ≤ 10 ∧ (0 : BitVec 4) = 0) ∧
    tTwo.obsN.toNat ≤ (2 : Byte).toNat ∧ (1 : Byte).toNat < tTwo.obsN.toNat ∧ tTwo.params.nSlot ≤ (2 : BitVec 4).toNat ∧
    (1 : BitVec 4).toNat < tTwo.params.nSlot ∧ (tStg (tRec 3 4 1) (tRec 2 4 5) 2).stgN.toNat ≤ (2 : Byte).toNat ∧
    (1 : Byte).toNat < (tStg (tRec 3 4 1) (tRec 2 4 5) 2).stgN.toNat := by decide
theorem witness_DirectWriteThenReadReturnsTheValue : tTwo.Inv ∧ exec (.obsDwr .arg false 3 1 2) tTwo = .next (after (.obsDwr .arg false 3 1 2) tTwo) ∧
    (after (.obsDwr .arg false 3 1 2) tTwo).code = .ok ∧ (1 : Byte).toNat < (after (.obsDwr .arg false 3 1 2) tTwo).obsN.toNat ∧
    ((after (.obsDwr .arg false 3 1 2) tTwo).recAt (after (.obsDwr .arg false 3 1 2) tTwo).obs 1).sat = 2 ∧
    (∀ j, j < (after (.obsDwr .arg false 3 1 2) tTwo).obsN.toNat →
      ((after (.obsDwr .arg false 3 1 2) tTwo).recAt (after (.obsDwr .arg false 3 1 2) tTwo).obs j).sat = 2 → j = 1) :=
  ⟨inv_tTwo, rfl, by decide, by decide, by decide, by decide⟩
theorem witness_StagingAnnouncesCountsAndSatellites : tClosed.isOpen = false ∧ tOpen.isOpen = true ∧ tOpen.params.maxObs < (3 : Byte).toNat ∧
    (2 : Byte).toNat = tOpen.params.maxObs ∧ (tStg (tRec 3 4 1) (tRec 2 4 5) 1).stgN.toNat ≤ (1 : Byte).toNat ∧
    (0 : Byte).toNat < (tStg (tRec 3 4 1) (tRec 2 4 5) 1).stgN.toNat ∧ (2 : Byte) ≠ (tStg (tRec 3 4 1) (tRec 2 4 5) 1).stgN ∧
    (1 : Byte) = (tStg (tRec 3 4 1) (tRec 2 4 5) 1).stgN := by decide
theorem witness_StagedWriteStampsTheRecord : (5 : BitVec 4).toNat ≤ 5 ∧ tClosed.isOpen = false ∧ (tStg (tRec 3 4 1) (tRec 2 4 5) 1).isOpen = true ∧
    (tStg (tRec 3 4 1) (tRec 2 4 5) 1).stgN.toNat ≤ (1 : Byte).toNat ∧ (0 : Byte).toNat < (tStg (tRec 3 4 1) (tRec 2 4 5) 1).stgN.toNat ∧
    tOpen.params.nSlot ≤ (2 : BitVec 4).toNat ∧ (1 : BitVec 4).toNat < tOpen.params.nSlot ∧
    (false = true ∨ (Source.res = .res ∧ ({ tStg (tRec 3 4 1) (tRec 2 4 5) 1 with fxMissing := true } : State).fxMissing = true)) ∧
    ¬ (false = true ∨ (Source.res = .res ∧ (tStg (tRec 3 4 1) (tRec 2 4 5) 1).fxMissing = true)) := by decide
theorem witness_FlushCopiesTheQualifyingRecords : tClosed.isOpen = false ∧ tOpen.isOpen = true ∧
    (tOpen.obuf.take tOpen.stgN.toNat).filter (fun r => r.sat ≠ 0 ∧ r.tv = true) = [] ∧
    ((tStg (tRec 0 4 5) (tRec 3 4 5) 2).obuf.take 2).filter (fun r => r.sat ≠ 0 ∧ r.tv = true) ≠ [] := by decide

/-! ### Continuity tracker -/

theorem inv_tLk : (tLk ⟨5, 0, false, true⟩).Inv := inv_of_invB (by decide)

/-- On the legal entry [2][1]: no slip at the slack, a slip one nanosecond later, and each error of the order. -/
theorem witness_LockUpdateReportsTheSlip : (tLk ⟨5, 0, false, true⟩).Inv ∧ (tLk ⟨5, 0, false, true⟩).isOpen = true ∧ tClosed.Inv ∧ tClosed.isOpen = false ∧
    (2 : Byte) ≠ 0 ∧ (2 : Byte).toNat ≤ tOpen.params.maxSat ∧ (1 : BitVec 4).toNat < tOpen.params.nSlot ∧
    tOpen.params.maxSat < (4 : Byte).toNat ∧ (3 : Byte).toNat ≤ tOpen.params.maxSat ∧ tOpen.params.nSlot ≤ (2 : BitVec 4).toNat ∧
    ((11 : BitVec 64).toInt - (0 : BitVec 64).toInt) - (((5 : Word).toNat : Int) - (5 : Word).toNat) * tCfg.lkScale.toNat > tCfg.lkSlack.toNat ∧
    ¬ ((10 : BitVec 64).toInt - (0 : BitVec 64).toInt) - (((5 : Word).toNat : Int) - (5 : Word).toNat) * tCfg.lkScale.toNat > tCfg.lkSlack.toNat :=
  ⟨inv_tLk, by decide, inv_tClosed, by decide⟩
theorem witness_LockReadReturnsTheItem : (2 : BitVec 4).toNat ≤ 2 ∧ tOpen.params.maxSat < (4 : Byte).toNat ∧ (4 : Byte) ≠ 0 ∧ (3 : Byte) ≠ 0 ∧
    (3 : Byte).toNat ≤ tOpen.params.maxSat ∧ tOpen.params.nSlot ≤ (2 : BitVec 4).toNat ∧ (1 : BitVec 4).toNat < tOpen.params.nSlot := by decide
/-- Counter 9 at entry [2][1], then counter 8. -/
theorem witness_LowerCounterAlwaysSlips :
    let s := { tOpen with arg0 := 9 }
    let t := after (.lkUpd true false false 1 2) s
    let u := { t with arg0 := 8 }
    s.Inv ∧ exec (.lkUpd true false false 1 2) s = .next t ∧ t.code = .ok ∧ lkGet u.lk 2 1 = lkGet t.lk 2 1 ∧ u.arg0.toNat < s.arg0.toNat ∧
    exec (.lkUpd true false false 1 2) u = .next (after (.lkUpd true false false 1 2) u) ∧ (after (.lkUpd true false false 1 2) u).code = .ok :=
  ⟨inv_of_invB (by decide), rfl, by decide, rfl, by decide, rfl, by decide⟩

end Sys2Proof.Tests
end

section
/-! One step of the block by the head of its queue of transactions (00_scope.md R10, 20_memory.md R74), and the reset event. -/

namespace Sys2Proof.Machine

theorem State.takeEvent_of_bus_nil {s : State} (hbus : s.bus = []) : s.takeEvent = none := by
  simp only [State.takeEvent, hbus]

theorem State.takeEvent_of_bus_cons {s : State} {e : BusEvent} {rest : List BusEvent} (hbus : s.bus = e :: rest) :
    s.takeEvent = some (e, { s with bus := rest, reply := none }) := by
  simp only [State.takeEvent, hbus]

/-- The block does nothing of its own accord (00_scope.md R10). -/
theorem step_of_bus_nil {s : State} (hbus : s.bus = []) : step s = .next s := by
  simp only [step, State.takeEvent_of_bus_nil hbus]

/-- The oldest pending transaction is performed, and it alone (20_memory.md R74). -/
theorem step_of_bus_cons {s : State} {e : BusEvent} {rest : List BusEvent} (hbus : s.bus = e :: rest) :
    step s = State.perform { s with bus := rest, reply := none } e := by
  simp only [step, State.takeEvent_of_bus_cons hbus]

@[simp] theorem State.perform_reset (s : State) : s.perform .reset = .next s.hardwareReset := rfl

/-- Hardware reset reads of the state before it only the instance, the queue and the counter of free values (log 8): taking the
event off the queue, which also clears the reply, leaves no other trace. -/
theorem State.hardwareReset_of_taken (s : State) (rest : List BusEvent) :
    State.hardwareReset { s with bus := rest, reply := none } =
      { State.resetOf s.params with bus := rest, freeCount := s.freeCount } := rfl

/-- Settles O7: by the head of the queue, no transaction or a reset. -/
theorem idleStepsAndHardwareReset : Obligations.IdleStepsAndHardwareReset := by
  intro s rest
  refine ⟨step_of_bus_nil, fun hbus => ?_⟩
  rw [step_of_bus_cons hbus, State.perform_reset, State.hardwareReset_of_taken]

end Sys2Proof.Machine
end

section
/-! What a command can do: one relation with a case per kind of effect, and that every command of the block ends in one of them. -/

namespace Sys2Proof.Machine

/-- An outcome that every command may end with: of the list and with a cause of its class (10_state.md R28, R29), and neither of the two
successes that announce an update. -/
def PlainOutcome (c : Code) (k : Cause) : Prop := outcomeOk c k = true ∧ c ≠ .obsUpdate ∧ c ≠ .frameReady

theorem plainOutcome_ok : PlainOutcome .ok .none := ⟨rfl, nofun, nofun⟩
theorem plainOutcome_error {k : Cause} (h : k.isError = true) : PlainOutcome .error k := ⟨h, nofun, nofun⟩
theorem plainOutcome_refused {k : Cause} (h : k.isRefusal = true) : PlainOutcome .refused k := ⟨h, nofun, nofun⟩

/-- `Effect s i t`: the command `i` may take the state `s` to `t`. A case states the shared operation that makes `t` and what was checked
before it, and no more than the rules about every command need. -/
inductive Effect (s : State) : Instr → State → Prop where
  /-- Only STATUS changes. -/
  | status {i : Instr} {c : Code} {k : Cause} (hck : PlainOutcome c k) : Effect s i (s.finish c k)
  /-- 40_session.md R112 -/
  | opened (hclosed : s.isOpen = false) (hlegal : s.cfgLegal = true) : Effect s .openSession (s.openEffects.finish .ok .none)
  /-- 40_session.md R114 -/
  | ended (hopen : s.isOpen = true) :
      Effect s .eoi (({ s.syncReset.flushEpoch with isOpen := false } : State).finish s.syncReset.flushCode .none)
  /-- 44_epoch_buffer.md R214 -/
  | flushed (hopen : s.isOpen = true) : Effect s .flush (s.flushEpoch.finish s.flushCode .none)
  /-- 41_synchronizer.md R123 -/
  | fed {b : Byte} (hopen : s.isOpen = true) (hfree : s.sstate ≠ .complete) : Effect s (.feed b) (feedByte b s)
  /-- 41_synchronizer.md R132 -/
  | fedMany {cnt : BitVec 3} {v : DWord} (hopen : s.isOpen = true) (hfree : s.sstate ≠ .complete) (hcnt : 0 < cnt.toNat) :
      Effect s (.feedn cnt) ((feedLoop cnt.toNat 0 s).1.setRes v)
  /-- 41_synchronizer.md R133 -/
  | released (hopen : s.isOpen = true) : Effect s .release (s.syncReset.finish .ok .none)
  /-- 42_checksum.md R158 -/
  | sumStarted {rotf : Bool} {alg : BitVec 3} (a : Alg) : Effect s (.ckInit rotf alg)
      (({ s with cka := some a, ckf := rotf, acc := a.init s.cfg.crc32Init } : State).finish .ok .none)
  /-- 42_checksum.md R159, R161 -/
  | summed {i : Instr} {a : Alg} (bs : List Byte) (hi : i.opcode ∈ [Opcode.ckUpd, .ckFrm]) (ha : s.cka = some a) :
      Effect s i ((s.setAcc (a.run s.acc bs)).finish .ok .none)
  /-- 42_checksum.md R160, 44_epoch_buffer.md R205, R212, 45_continuity.md R243 -/
  | answered {i : Instr} {v : DWord} {c : Code} {k : Cause} (hi : i.opcode ∈ [Opcode.ckFin, .obsRd, .stgRd, .lkRd])
      (hck : PlainOutcome c k) : Effect s i ((s.setRes v).finish c k)
  /-- 43_field_codec.md R180 to R189: a NaN is missing -/
  | fieldRead {i : Instr} {v : DWord} {missing nan : Bool} {c : Code} {k : Cause}
      (hi : i.opcode ∈ [Opcode.fxU, .fxS, .fxF32, .fxF64]) (hnan : nan = true → missing = true) (hck : PlainOutcome c k) :
      Effect s i (((s.setRes v).setFxf missing nan).finish c k)
  /-- 44_epoch_buffer.md R203, a record put at the end of the set -/
  | recordAdded {src : Source} {m : Bool} {fld slot : BitVec 4} {sat : Byte} (f : Nat) (v : DWord) (missing : Bool)
      (hsat : sat ≠ 0) (hroom : s.epochCount < s.params.maxObs) : Effect s (.obsDwr src m fld slot sat)
        ((s.setObs (s.obs.set s.epochCount ((s.freshRec sat).writeField slot.toNat f v missing))
          (BitVec.ofNat 8 (s.epochCount + 1))).finish .ok .none)
  /-- 44_epoch_buffer.md R203, a field of a live record written -/
  | recordWritten {src : Source} {m : Bool} {fld slot : BitVec 4} {sat : Byte} (f : Nat) (v : DWord) (missing : Bool) (n free : Nat)
      (hlive : n < s.epochCount) : Effect s (.obsDwr src m fld slot sat)
        (({ s.setObs (s.obs.set n ((s.recAt s.obs n).writeField slot.toNat f v missing)) (BitVec.ofNat 8 s.epochCount) with
            freeCount := free } : State).finish .ok .none)
  /-- 44_epoch_buffer.md R208 -/
  | stagedCleared {n : Byte} (hn : n.toNat ≤ s.params.maxObs) : Effect s (.stgCnt n) ((s.clearStaged n).finish .ok .none)
  /-- 44_epoch_buffer.md R209, R211: an ordinal below the staged count, and as many slots as before -/
  | stagedWritten {i : Instr} {n : Nat} {r : Rec} (hi : i.opcode ∈ [Opcode.stgSat, .stgWr]) (hn : n < s.stgN.toNat)
      (hr : r.slots.length = (s.recAt s.obuf n).slots.length) :
      Effect s i ((s.setStaged (s.obuf.set n r) s.stgN).finish .ok .none)
  /-- 45_continuity.md R241 -/
  | locked {c h hc : Bool} {slot : BitVec 4} {sat : Byte} (e : LkEntry) (v : DWord) : Effect s (.lkUpd c h hc slot sat)
      (((s.setLk (lkSet s.lk sat.toNat slot.toNat e)).setRes v).finish .ok .none)

/-! ## Refusals, whatever the command -/

theorem Effect.ok {s : State} {i : Instr} : Effect s i (s.finish .ok .none) := .status plainOutcome_ok
theorem Effect.error {s : State} {i : Instr} {k : Cause} (h : k.isError = true) : Effect s i (s.finish .error k) :=
  .status (plainOutcome_error h)
theorem Effect.refused {s : State} {i : Instr} {k : Cause} (h : k.isRefusal = true) : Effect s i (s.finish .refused k) :=
  .status (plainOutcome_refused h)

/-- A command that is refused outside its states has its effect if it has it inside them. -/
theorem Effect.of_ite {s t : State} {i : Instr} {p : Prop} [Decidable p] {o : Host.Outcome State Fault Refusal} {k : Cause}
    (hk : k.isRefusal = true) (hin : p → o = .next t → Effect s i t)
    (h : (if p then o else .next (s.raiseRefused k)) = .next t) : Effect s i t := by
  split at h
  · next hp => exact hin hp h
  · cases h; exact .refused hk

/-! ## The session -/

theorem execOpenSession_effect {s t : State} (h : execOpenSession s = .next t) : Effect s .openSession t := by
  unfold execOpenSession at h
  split at h
  · cases h; exact .refused rfl
  · next hclosed =>
    refine Effect.of_ite rfl (fun hlegal h => ?_) h
    cases h; exact .opened (by simpa using hclosed) hlegal

theorem execEoi_effect {s t : State} (h : execEoi s = .next t) : Effect s .eoi t :=
  Effect.of_ite rfl (fun hopen h => by cases h; exact .ended hopen) h

theorem execFlush_effect {s t : State} (h : execFlush s = .next t) : Effect s .flush t :=
  Effect.of_ite rfl (fun hopen h => by cases h; exact .flushed hopen) h

/-! ## SYNC -/

theorem State.mayFeed_iff (s : State) : s.mayFeed = true ↔ s.isOpen = true ∧ s.sstate ≠ .complete := by
  simp [State.mayFeed]

theorem execFeed_effect {b : Byte} {s t : State} (h : execFeed b s = .next t) : Effect s (.feed b) t :=
  Effect.of_ite rfl (fun hmay h => by
    obtain ⟨hopen, hfree⟩ := s.mayFeed_iff.mp hmay
    cases h; exact .fed hopen hfree) h

theorem execFeedn_effect {cnt : BitVec 3} {s t : State} (h : execFeedn cnt s = .next t) : Effect s (.feedn cnt) t := by
  refine Effect.of_ite rfl (fun hcnt h => Effect.of_ite rfl (fun hmay h => ?_) h) h
  obtain ⟨hopen, hfree⟩ := s.mayFeed_iff.mp hmay
  have hpos : 1 ≤ cnt.toNat := (of_decide_eq_true hcnt).1
  cases h; exact .fedMany hopen hfree hpos

theorem execRelease_effect {s t : State} (h : execRelease s = .next t) : Effect s .release t :=
  Effect.of_ite rfl (fun hheld h => by
    obtain ⟨hopen, -⟩ := Bool.and_eq_true_iff.mp hheld
    cases h; exact .released hopen) h

/-! ## Checksums -/

theorem execCkInit_effect {rotf : Bool} {alg : BitVec 3} {s t : State} (h : execCkInit rotf alg s = .next t) :
    Effect s (.ckInit rotf alg) t := by
  unfold execCkInit at h
  split at h
  · cases h; exact .refused rfl
  · next a _ => cases h; exact .sumStarted a

theorem execCkUpd_effect {cnt : BitVec 3} {s t : State} (h : execCkUpd cnt s = .next t) : Effect s (.ckUpd cnt) t := by
  refine Effect.of_ite rfl (fun _ h => ?_) h
  split at h
  · cases h; exact .refused rfl
  · next a ha => cases h; exact .summed _ (by simp [Instr.opcode]) ha

theorem execCkFin_effect {s t : State} (h : execCkFin s = .next t) : Effect s .ckFin t := by
  unfold execCkFin at h
  split at h
  · cases h; exact .refused rfl
  · cases h; exact .answered (by simp [Instr.opcode]) plainOutcome_ok

theorem execCkFrm_effect {off : BitVec 16} {s t : State} (h : execCkFrm off s = .next t) : Effect s (.ckFrm off) t := by
  unfold execCkFrm at h
  split at h
  · cases h; exact .refused rfl
  · next a ha =>
    split at h <;> cases h
    · exact .error rfl
    · exact .summed _ (by simp [Instr.opcode]) ha

/-! ## The field codec -/

/-- An FX command whose conversion answers (43_field_codec.md R180, R188). -/
theorem fxRead_effect {i : Instr} (hi : i.opcode ∈ [Opcode.fxU, .fxS, .fxF32, .fxF64]) (s : State) (e : Endian) (sm : SentMode)
    (n off : Nat) (conv : Nat → DWord × Bool) : Effect s i (s.fxRead e sm n off conv) := by
  unfold State.fxRead
  split
  · exact .fieldRead hi nofun (plainOutcome_error rfl)
  · exact .fieldRead hi (fun hnan => by rw [hnan, Bool.or_true]) plainOutcome_ok

/-! ## The epoch buffer -/

/-- A record read (44_epoch_buffer.md R206). -/
theorem readRecord_effect {i : Instr} (hi : i.opcode ∈ [Opcode.ckFin, .obsRd, .stgRd, .lkRd]) (s : State) (arr : List Rec)
    (n fld slot idx : Nat) : Effect s i (s.readRecord arr n fld slot idx) := by
  unfold State.readRecord
  split
  · exact .answered hi (plainOutcome_error rfl)
  · split
    · exact .answered hi (plainOutcome_error rfl)
    · exact .answered hi plainOutcome_ok

theorem execObsRd_effect {fld slot : BitVec 4} {idx : Byte} {s t : State} (h : execObsRd fld slot idx s = .next t) :
    Effect s (.obsRd fld slot idx) t :=
  Effect.of_ite rfl (fun _ h => by cases h; exact readRecord_effect (by simp [Instr.opcode]) ..) h

theorem execStgRd_effect {fld slot : BitVec 4} {idx : Byte} {s t : State} (h : execStgRd fld slot idx s = .next t) :
    Effect s (.stgRd fld slot idx) t :=
  Effect.of_ite rfl (fun _ h => by cases h; exact readRecord_effect (by simp [Instr.opcode]) ..) h

theorem execObsDwr_effect {src : Source} {m : Bool} {fld slot : BitVec 4} {sat : Byte} {s t : State}
    (h : execObsDwr src m fld slot sat s = .next t) : Effect s (.obsDwr src m fld slot sat) t := by
  refine Effect.of_ite rfl (fun _ h => Effect.of_ite rfl (fun _ h => ?_) h) h
  split at h
  · cases h; exact .error rfl
  · next hsat =>
    split at h <;> cases h
    · exact .error rfl
    · rcases s.directWrite_cases s.epochCount slot.toNat fld.toNat sat (s.writeValue src m).1 (s.writeValue src m).2 with
        ⟨_, _, hfull⟩ | ⟨_, hroom, hadd⟩ | ⟨n, free, hlive, _, hset⟩
      · rw [hfull]; exact .error rfl
      · rw [hadd]; exact .recordAdded _ _ _ hsat hroom
      · rw [hset]; exact .recordWritten _ _ _ n free hlive

theorem execStgCnt_effect {n : Byte} {s t : State} (h : execStgCnt n s = .next t) : Effect s (.stgCnt n) t := by
  refine Effect.of_ite rfl (fun _ h => ?_) h
  split at h <;> cases h
  · exact .error rfl
  · next hn => exact .stagedCleared (by omega)

theorem execStgSat_effect {idx sat : Byte} {s t : State} (h : execStgSat idx sat s = .next t) : Effect s (.stgSat idx sat) t := by
  refine Effect.of_ite rfl (fun _ h => ?_) h
  split at h <;> cases h
  · exact .error rfl
  · next hidx => exact .stagedWritten (by simp [Instr.opcode]) (by omega) rfl

theorem execStgChk_effect {n : Byte} {s t : State} (h : execStgChk n s = .next t) : Effect s (.stgChk n) t := by
  refine Effect.of_ite rfl (fun _ h => ?_) h
  split at h <;> cases h
  · exact .error rfl
  · exact .ok

theorem execStgWr_effect {src : Source} {m : Bool} {fld slot : BitVec 4} {idx : Byte} {s t : State}
    (h : execStgWr src m fld slot idx s = .next t) : Effect s (.stgWr src m fld slot idx) t := by
  refine Effect.of_ite rfl (fun _ h => Effect.of_ite rfl (fun _ h => ?_) h) h
  split at h
  · cases h; exact .error rfl
  · next hidx =>
    split at h <;> cases h
    · exact .error rfl
    · exact .stagedWritten (by simp [Instr.opcode]) (by omega) (Rec.writeField_slots_length ..)

/-! ## The lock table -/

theorem State.lkError_isError {s : State} {sat slot : Nat} {k : Cause} (h : s.lkError sat slot = some k) : k.isError = true := by
  unfold State.lkError at h
  split at h
  · cases h; rfl
  · split at h
    · cases h; rfl
    · split at h <;> cases h; rfl

theorem execLkUpd_effect {c h hc : Bool} {slot : BitVec 4} {sat : Byte} {s t : State}
    (hx : execLkUpd c h hc slot sat s = .next t) : Effect s (.lkUpd c h hc slot sat) t := by
  refine Effect.of_ite rfl (fun _ hx => ?_) hx
  split at hx
  · next k hk => cases hx; exact .error (State.lkError_isError hk)
  · cases hx; exact .locked _ _

theorem execLkRd_effect {item slot : BitVec 4} {sat : Byte} {s t : State} (h : execLkRd item slot sat s = .next t) :
    Effect s (.lkRd item slot sat) t := by
  refine Effect.of_ite rfl (fun _ h => ?_) h
  split at h
  · next k hk => cases h; exact .answered (by simp [Instr.opcode]) (plainOutcome_error (State.lkError_isError hk))
  · cases h; exact .answered (by simp [Instr.opcode]) plainOutcome_ok

/-! ## Every command -/

/-- What a command answers is one of the effects. -/
theorem exec_effect {i : Instr} {s t : State} (h : exec i s = .next t) : Effect s i t := by
  cases i with
  | nop => cases h; exact .ok
  | openSession => exact execOpenSession_effect h
  | eoi => exact execEoi_effect h
  | feed b => exact execFeed_effect h
  | feedn cnt => exact execFeedn_effect h
  | release => exact execRelease_effect h
  | ckInit rotf alg => exact execCkInit_effect h
  | ckUpd cnt => exact execCkUpd_effect h
  | ckFin => exact execCkFin_effect h
  | ckFrm off => exact execCkFrm_effect h
  | fxU e sm w off => cases h; exact fxRead_effect (by simp [Instr.opcode]) ..
  | fxS e sm w off => cases h; exact fxRead_effect (by simp [Instr.opcode]) ..
  | fxF32 e sm off => cases h; exact fxRead_effect (by simp [Instr.opcode]) ..
  | fxF64 e sm off => cases h; exact fxRead_effect (by simp [Instr.opcode]) ..
  | obsDwr src m fld slot sat => exact execObsDwr_effect h
  | obsRd fld slot idx => exact execObsRd_effect h
  | stgCnt n => exact execStgCnt_effect h
  | stgSat idx sat => exact execStgSat_effect h
  | stgChk n => exact execStgChk_effect h
  | stgWr src m fld slot idx => exact execStgWr_effect h
  | stgRd fld slot idx => exact execStgRd_effect h
  | flush => exact execFlush_effect h
  | lkUpd c h' hc slot sat => exact execLkUpd_effect h
  | lkRd item slot sat => exact execLkRd_effect h

end Sys2Proof.Machine
end

section
/-! The rules about every command (10_state.md R22 to R36), each a case split over what a command can do. -/

namespace Sys2Proof.Machine

/-! ## Outcomes (10_state.md R28, R29) -/

/-- A fed byte ends with OK, FRAME_READY or ERROR, and a cause of the class (41_synchronizer.md R124 to R130). -/
theorem feedByte_outcome (b : Byte) {s : State} (hfree : s.sstate ≠ .complete) :
    outcomeOk (feedByte b s).code (feedByte b s).cause = true ∧ (feedByte b s).code ≠ .obsUpdate := by
  rcases feedByte_outcomes b hfree with ⟨hcode, hcause, _⟩ | ⟨hcode, hcause, _⟩ | ⟨k, hk, heq⟩
  · rw [hcode, hcause]; exact ⟨rfl, nofun⟩
  · rw [hcode, hcause]; exact ⟨rfl, nofun⟩
  · rw [heq]; exact ⟨hk, nofun⟩

/-- What FEEDN leaves of at least one byte is what some fed byte leaves (41_synchronizer.md R132). -/
theorem feedLoop_last (left : Nat) : ∀ (j : Nat) (s : State), s.sstate ≠ .complete →
    ∃ b u, u.sstate ≠ .complete ∧ (feedLoop (left + 1) j s).1 = feedByte b u := by
  induction left with
  | zero => intro j s hfree; exact ⟨s.argByte j, s, hfree, by rw [feedLoop_succ]; split <;> rfl⟩
  | succ left ih =>
    intro j s hfree
    rw [feedLoop_succ]
    split
    · next hok =>
      refine ih (j + 1) _ ?_
      rcases feedByte_outcomes (s.argByte j) hfree with ⟨_, _, hfree'⟩ | ⟨hcode, _, _⟩ | ⟨k, _, heq⟩
      · exact hfree'
      · rw [hcode] at hok; cases hok
      · rw [heq] at hok; cases hok
    · exact ⟨s.argByte j, s, hfree, rfl⟩

theorem feedLoop_outcome {n j : Nat} {s : State} (hn : 0 < n) (hfree : s.sstate ≠ .complete) :
    outcomeOk (feedLoop n j s).1.code (feedLoop n j s).1.cause = true ∧ (feedLoop n j s).1.code ≠ .obsUpdate := by
  obtain ⟨m, rfl⟩ := Nat.exists_eq_succ_of_ne_zero hn.ne'
  obtain ⟨b, u, hu, heq⟩ := feedLoop_last m j s hfree
  rw [heq]; exact feedByte_outcome b hu

/-- The flush ends with one of two successes (44_epoch_buffer.md R213). -/
theorem State.flushCode_cases (s : State) : s.flushCode = .ok ∨ s.flushCode = .obsUpdate := by
  unfold State.flushCode; split
  · exact .inl rfl
  · exact .inr rfl

theorem State.flushCode_outcome (s : State) : outcomeOk s.flushCode .none = true ∧ s.flushCode ≠ .frameReady := by
  rcases s.flushCode_cases with h | h <;> rw [h] <;> exact ⟨rfl, nofun⟩

/-- An outcome is of its class; OBS_UPDATE comes of the flush alone and FRAME_READY of a fed byte alone. -/
def OutcomeOf (i : Instr) (t : State) : Prop :=
  outcomeOk t.code t.cause = true ∧ (t.code = .obsUpdate → i = .flush ∨ i = .eoi) ∧
    (t.code = .frameReady → (∃ b, i = .feed b) ∨ ∃ n, i = .feedn n)

theorem PlainOutcome.outcomeOf {t : State} (h : PlainOutcome t.code t.cause) (i : Instr) : OutcomeOf i t :=
  ⟨h.1, fun hc => absurd hc h.2.1, fun hc => absurd hc h.2.2⟩

theorem Effect.outcomeOf {s t : State} {i : Instr} (h : Effect s i t) : OutcomeOf i t := by
  cases h with
  | status hck | answered _ hck | fieldRead _ _ hck => exact PlainOutcome.outcomeOf hck i
  | ended => exact ⟨s.syncReset.flushCode_outcome.1, fun _ => .inr rfl, fun hc => absurd hc s.syncReset.flushCode_outcome.2⟩
  | flushed => exact ⟨s.flushCode_outcome.1, fun _ => .inl rfl, fun hc => absurd hc s.flushCode_outcome.2⟩
  | fed _ hfree =>
    obtain ⟨hok, hno⟩ := feedByte_outcome _ hfree
    exact ⟨hok, fun hc => absurd hc hno, fun _ => .inl ⟨_, rfl⟩⟩
  | fedMany _ hfree hcnt =>
    obtain ⟨hok, hno⟩ := feedLoop_outcome (j := 0) hcnt hfree
    exact ⟨hok, fun hc => absurd hc hno, fun _ => .inr ⟨_, rfl⟩⟩
  | opened | released | sumStarted | summed | recordAdded | recordWritten | stagedCleared | stagedWritten | locked =>
    refine PlainOutcome.outcomeOf ?_ _
    exact plainOutcome_ok

/-- Settles O16: by the kinds of effect, each of which ends with a plain outcome, the flush's or a fed byte's. -/
theorem everyOutcomeIsOfItsClass : Obligations.EveryOutcomeIsOfItsClass :=
  fun _ _ _ h => (exec_effect h).outcomeOf

/-! ## The host's registers (10_state.md R22, R25, R33, R36) -/

/-- The parameters and the registers that only the host writes are equal. -/
def SameHost (s t : State) : Prop :=
  t.params = s.params ∧ t.arg0 = s.arg0 ∧ t.arg1 = s.arg1 ∧ t.timeLo = s.timeLo ∧ t.timeHi = s.timeHi ∧ t.cfg = s.cfg

theorem SyncOnly.sameHost {s t : State} (h : SyncOnly s t) : SameHost s t := by rw [h]; exact ⟨rfl, rfl, rfl, rfl, rfl, rfl⟩
theorem SyncOnly.werr {s t : State} (h : SyncOnly s t) : t.werr = s.werr := by rw [h]

/-- What OPEN writes (40_session.md R112), all at once. -/
theorem State.openEffects_eq (s : State) : s.openEffects = { s with
    isOpen := true, werr := false, sstate := .seeking, nbyte := 0, flen := 0, wcnt := 0, win := zeroWin
    ftype := 0, fdecIdx := 0, fdecHit := false, obs := zeroRecords s.params, obsN := 0
    obuf := zeroRecords s.params, stgN := 0, lk := zeroLk s.params } := rfl

/-- The flush writes OBS and clears OBUF, and nothing else (44_epoch_buffer.md R213). -/
theorem State.flushEpoch_eq (s : State) : ∃ arr n, s.flushEpoch = (s.setObs arr n).clearStaged 0 :=
  ⟨s.flushEpoch.obs, s.flushEpoch.obsN, s.flushEpoch_frame⟩

theorem Effect.sameHost {s t : State} {i : Instr} (h : Effect s i t) : SameHost s t := by
  cases h with
  | opened => rw [State.openEffects_eq]; exact ⟨rfl, rfl, rfl, rfl, rfl, rfl⟩
  | ended => obtain ⟨arr, n, heq⟩ := s.syncReset.flushEpoch_eq; rw [heq]; exact ⟨rfl, rfl, rfl, rfl, rfl, rfl⟩
  | flushed => obtain ⟨arr, n, heq⟩ := s.flushEpoch_eq; rw [heq]; exact ⟨rfl, rfl, rfl, rfl, rfl, rfl⟩
  | fed => exact (feedByte_syncOnly _ s).sameHost
  | fedMany => exact (feedLoop_syncOnly _ 0 s).sameHost
  | _ => exact ⟨rfl, rfl, rfl, rfl, rfl, rfl⟩

/-- Only OPEN opens the session and only EOI closes it (10_state.md R55). -/
theorem Effect.isOpen {s t : State} {i : Instr} (h : Effect s i t) :
    t.isOpen = s.isOpen ∨ (i = .openSession ∧ t.isOpen = true ∧ t.code = .ok) ∨ (i = .eoi ∧ t.isOpen = false) := by
  cases h with
  | opened => rw [State.openEffects_eq]; exact .inr (.inl ⟨rfl, rfl, rfl⟩)
  | ended => exact .inr (.inr ⟨rfl, rfl⟩)
  | flushed => obtain ⟨arr, n, heq⟩ := s.flushEpoch_eq; rw [heq]; exact .inl rfl
  | fed => exact .inl (feedByte_syncOnly _ s).isOpen
  | fedMany => exact .inl (feedLoop_syncOnly _ 0 s).isOpen
  | _ => exact .inl rfl

/-- Only OPEN clears WERR (10_state.md R36). -/
theorem Effect.werr {s t : State} {i : Instr} (h : Effect s i t) :
    t.werr = s.werr ∨ (i = .openSession ∧ t.werr = false ∧ t.code = .ok) := by
  cases h with
  | opened => rw [State.openEffects_eq]; exact .inr ⟨rfl, rfl, rfl⟩
  | ended => obtain ⟨arr, n, heq⟩ := s.syncReset.flushEpoch_eq; rw [heq]; exact .inl rfl
  | flushed => obtain ⟨arr, n, heq⟩ := s.flushEpoch_eq; rw [heq]; exact .inl rfl
  | fed => exact .inl (feedByte_syncOnly _ s).werr
  | fedMany => exact .inl (feedLoop_syncOnly _ 0 s).werr
  | _ => exact .inl rfl

/-- Settles O20: no effect touches the host's registers, and OPEN and EOI alone touch the session flag and WERR. -/
theorem commandsLeaveTheHostsRegisters : Obligations.CommandsLeaveTheHostsRegisters := by
  intro i s t h
  have heff := exec_effect h
  obtain ⟨hparams, harg0, harg1, hlo, hhi, hcfg⟩ := heff.sameHost
  exact ⟨hparams, harg0, harg1, hlo, hhi, hcfg, fun hne => heff.isOpen.resolve_left hne, fun hne => heff.werr.resolve_left hne⟩

/-! ## The registers of results, checksum and SYNC (10_state.md R23, R30, R31, R35) -/

/-- A command of one list of opcodes is one of every list that holds those. -/
theorem opcode_mem_mono {o : Opcode} {short long : List Opcode} (ho : o ∈ short) (hsub : short ⊆ long) : o ∈ long := hsub ho

/-- RES (10_state.md R23). -/
theorem Effect.res {s t : State} {i : Instr} (h : Effect s i t) :
    i.opcode ∈ [Opcode.feedn, .ckFin, .fxU, .fxS, .fxF32, .fxF64, .obsRd, .stgRd, .lkRd, .lkUpd] ∨
      (t.res0 = s.res0 ∧ t.res1 = s.res1) := by
  cases h with
  | fedMany | locked => exact .inl (by simp [Instr.opcode])
  | answered hi | fieldRead hi => exact .inl (opcode_mem_mono hi (by decide))
  | opened => rw [State.openEffects_eq]; exact .inr ⟨rfl, rfl⟩
  | ended => obtain ⟨arr, n, heq⟩ := s.syncReset.flushEpoch_eq; rw [heq]; exact .inr ⟨rfl, rfl⟩
  | flushed => obtain ⟨arr, n, heq⟩ := s.flushEpoch_eq; rw [heq]; exact .inr ⟨rfl, rfl⟩
  | fed => rw [feedByte_syncOnly _ s]; exact .inr ⟨rfl, rfl⟩
  | _ => exact .inr ⟨rfl, rfl⟩

/-- FXF (10_state.md R30). -/
theorem Effect.fxf {s t : State} {i : Instr} (h : Effect s i t) :
    i.opcode ∈ [Opcode.fxU, .fxS, .fxF32, .fxF64] ∨ (t.fxMissing = s.fxMissing ∧ t.fxNan = s.fxNan) := by
  cases h with
  | fieldRead hi => exact .inl hi
  | opened => rw [State.openEffects_eq]; exact .inr ⟨rfl, rfl⟩
  | ended => obtain ⟨arr, n, heq⟩ := s.syncReset.flushEpoch_eq; rw [heq]; exact .inr ⟨rfl, rfl⟩
  | flushed => obtain ⟨arr, n, heq⟩ := s.flushEpoch_eq; rw [heq]; exact .inr ⟨rfl, rfl⟩
  | fed => rw [feedByte_syncOnly _ s]; exact .inr ⟨rfl, rfl⟩
  | fedMany => rw [feedLoop_syncOnly _ 0 s]; exact .inr ⟨rfl, rfl⟩
  | _ => exact .inr ⟨rfl, rfl⟩

/-- CKSTAT and CKACC (10_state.md R35). -/
theorem Effect.hostSum {s t : State} {i : Instr} (h : Effect s i t) :
    i.opcode ∈ [Opcode.ckInit, .ckUpd, .ckFrm] ∨ (t.cka = s.cka ∧ t.ckf = s.ckf ∧ t.acc = s.acc) := by
  cases h with
  | sumStarted => exact .inl (by simp [Instr.opcode])
  | summed _ hi => exact .inl (opcode_mem_mono hi (by decide))
  | opened => rw [State.openEffects_eq]; exact .inr ⟨rfl, rfl, rfl⟩
  | ended => obtain ⟨arr, n, heq⟩ := s.syncReset.flushEpoch_eq; rw [heq]; exact .inr ⟨rfl, rfl, rfl⟩
  | flushed => obtain ⟨arr, n, heq⟩ := s.flushEpoch_eq; rw [heq]; exact .inr ⟨rfl, rfl, rfl⟩
  | fed => rw [feedByte_syncOnly _ s]; exact .inr ⟨rfl, rfl, rfl⟩
  | fedMany => rw [feedLoop_syncOnly _ 0 s]; exact .inr ⟨rfl, rfl, rfl⟩
  | _ => exact .inr ⟨rfl, rfl, rfl⟩

/-- SSTATE, NBYTE, FLEN and the window (10_state.md R31, R48). -/
theorem Effect.sync {s t : State} {i : Instr} (h : Effect s i t) :
    i.opcode ∈ [Opcode.feed, .feedn, .release, .eoi, .openSession] ∨
      (t.sstate = s.sstate ∧ t.nbyte = s.nbyte ∧ t.flen = s.flen ∧ t.win = s.win ∧ t.wcnt = s.wcnt) := by
  cases h with
  | opened | ended | fed | fedMany | released => exact .inl (by simp [Instr.opcode])
  | flushed => obtain ⟨arr, n, heq⟩ := s.flushEpoch_eq; rw [heq]; exact .inr ⟨rfl, rfl, rfl, rfl, rfl⟩
  | _ => exact .inr ⟨rfl, rfl, rfl, rfl, rfl⟩

/-- FTYPE and FDEC (10_state.md R32). -/
theorem Effect.frameType {s t : State} {i : Instr} (h : Effect s i t) :
    i.opcode ∈ [Opcode.feed, .feedn, .openSession] ∨
      (t.ftype = s.ftype ∧ t.fdecIdx = s.fdecIdx ∧ t.fdecHit = s.fdecHit) := by
  cases h with
  | opened | fed | fedMany => exact .inl (by simp [Instr.opcode])
  | ended => obtain ⟨arr, n, heq⟩ := s.syncReset.flushEpoch_eq; rw [heq]; exact .inr ⟨rfl, rfl, rfl⟩
  | flushed => obtain ⟨arr, n, heq⟩ := s.flushEpoch_eq; rw [heq]; exact .inr ⟨rfl, rfl, rfl⟩
  | _ => exact .inr ⟨rfl, rfl, rfl⟩

/-- Settles O22: register by register, an effect that changes it is that of a listed command. -/
theorem onlyListedCommandsWriteTheResultRegisters : Obligations.OnlyListedCommandsWriteTheResultRegisters := by
  intro i s t h
  have heff := exec_effect h
  refine ⟨fun hne => heff.res.resolve_right ?_, fun hne => heff.fxf.resolve_right ?_, fun hne => heff.hostSum.resolve_right ?_,
    fun hne => heff.sync.resolve_right ?_, fun hne => heff.frameType.resolve_right ?_⟩ <;> tauto

end Sys2Proof.Machine
end

section
/-! The register window (10_state.md section 2; 20_memory.md R70 to R75): which register an offset holds, and what a read and a write of
each register do. -/

namespace Sys2Proof.Machine

/-! ## Bits of a word as a number -/

/-- The fields of a register word, the upper above the lower (00_scope.md R7). -/
theorem append_toNat {n m : Nat} (x : BitVec n) (y : BitVec m) : (x ++ y).toNat = x.toNat * 2 ^ m + y.toNat := by
  rw [BitVec.toNat_append, Nat.shiftLeft_eq, Nat.mul_comm, Nat.two_pow_add_eq_or_of_lt y.isLt]

theorem slice_toNat (x : Word) (lo n : Nat) : (x.extractLsb' lo n).toNat = x.toNat / 2 ^ lo % 2 ^ n := by
  rw [BitVec.extractLsb'_toNat, Nat.shiftRight_eq_div_pow]

theorem lowSlice_toNat (x : Word) (n : Nat) : (x.extractLsb' 0 n).toNat = x.toNat % 2 ^ n := by
  rw [slice_toNat, Nat.pow_zero, Nat.div_one]

theorem topSlice_toNat (x : Word) {lo n : Nat} (h : lo + n = 32) : (x.extractLsb' lo n).toNat = x.toNat / 2 ^ lo := by
  rw [slice_toNat]
  refine Nat.mod_eq_of_lt (Nat.div_lt_of_lt_mul ?_)
  rw [← pow_add, h]
  exact x.isLt

theorem getLsbD_toNat (x : Word) (i : Nat) : (x.getLsbD i).toNat = x.toNat / 2 ^ i % 2 := Nat.toNat_testBit ..

@[simp] theorem bit_toNat (b : Bool) : (bit b).toNat = b.toNat := by cases b <;> rfl

/-! ## The register at an offset -/

/-- The register of an occupied offset: TF_TYPEj, or the one that the register map lists. -/
theorem Reg.ofOffset_eq_some {off : Nat} {r : Reg} (h : Reg.ofOffset off = some r) :
    (∃ j, j < 16 ∧ off = 0x100 + 4 * j ∧ r = .tfType j) ∨ (off, r) ∈ regMap := by
  unfold Reg.ofOffset at h
  split at h
  · cases h
    exact .inl ⟨(off - 0x100) / 4, by omega, by omega, rfl⟩
  · right
    obtain ⟨⟨off', r'⟩, hfind, rfl⟩ := Option.map_eq_some_iff.mp h
    have heq : off' = off := by simpa using List.find?_some hfind
    exact heq ▸ List.mem_of_find?_eq_some hfind

theorem Reg.ofOffset_tfType {j : Nat} (hj : j < 16) : Reg.ofOffset (0x100 + 4 * j) = some (.tfType j) := by
  unfold Reg.ofOffset
  rw [if_pos (by omega), Nat.add_sub_cancel_left, Nat.mul_div_cancel_left j (by decide)]

theorem regMap_aligned : ∀ e ∈ regMap, e.1 % 4 = 0 := by decide
theorem regMap_injective : ∀ e ∈ regMap, ∀ e' ∈ regMap, e.2 = e'.2 → e.1 = e'.1 := by decide
theorem regMap_ne_tfType {off j : Nat} : (off, Reg.tfType j) ∉ regMap := by simp [regMap]

theorem Reg.ofOffset_aligned {off : Nat} {r : Reg} (h : Reg.ofOffset off = some r) : off % 4 = 0 := by
  rcases Reg.ofOffset_eq_some h with ⟨j, _, rfl, _⟩ | hmem
  · omega
  · exact regMap_aligned _ hmem

/-- No register stands at two offsets. -/
theorem Reg.ofOffset_injective {off off' : Nat} {r : Reg} (h : Reg.ofOffset off = some r) (h' : Reg.ofOffset off' = some r) :
    off = off' := by
  rcases Reg.ofOffset_eq_some h with ⟨j, _, hoff, rfl⟩ | hmem
  · rcases Reg.ofOffset_eq_some h' with ⟨j', _, hoff', hj⟩ | hmem'
    · cases hj; exact hoff.trans hoff'.symm
    · exact absurd hmem' regMap_ne_tfType
  · rcases Reg.ofOffset_eq_some h' with ⟨j', _, hoff', rfl⟩ | hmem'
    · exact absurd hmem regMap_ne_tfType
    · exact regMap_injective _ hmem _ hmem' rfl

/-- The offsets of the window that no register occupies (20_memory.md R72). -/
def Unoccupied (off : Nat) : Prop :=
  off = 0x00C ∨ (0x054 ≤ off ∧ off < 0x080) ∨ (0x0C4 ≤ off ∧ off < 0x100) ∨ 0x140 ≤ off

theorem regMap_occupied : ∀ e ∈ regMap, ¬ Unoccupied e.1 := by unfold Unoccupied; decide

theorem Reg.ofOffset_unoccupied {off : Nat} (h : Unoccupied off) : Reg.ofOffset off = none := by
  refine Option.eq_none_iff_forall_ne_some.mpr fun r hr => ?_
  rcases Reg.ofOffset_eq_some hr with ⟨j, _, rfl, _⟩ | hmem
  · unfold Unoccupied at h; omega
  · exact regMap_occupied _ hmem h

/-! ## Reads (20_memory.md R72, R73) -/

/-- An access with no effect: of another width, misaligned, or where no register is (20_memory.md R72, R73). -/
def NoAccess (off width : Nat) : Prop := width ≠ 32 ∨ off % 4 ≠ 0 ∨ Reg.ofOffset off = none

theorem accessValid_iff (off width : Nat) : accessValid off width = true ↔ width = 32 ∧ off % 4 = 0 := by
  simp [accessValid]

theorem accessValid_of_ofOffset {off : Nat} {r : Reg} (h : Reg.ofOffset off = some r) : accessValid off 32 = true :=
  (accessValid_iff off 32).mpr ⟨rfl, Reg.ofOffset_aligned h⟩

theorem State.busRead_reg (s : State) {off : Nat} {r : Reg} (h : Reg.ofOffset off = some r) : s.busRead off 32 = s.regRead r := by
  unfold State.busRead
  rw [if_pos (accessValid_of_ofOffset h), h]

theorem State.busRead_none (s : State) {off width : Nat} (h : NoAccess off width) : s.busRead off width = 0 := by
  unfold State.busRead
  split
  · next hv =>
    obtain ⟨hw, ha⟩ := (accessValid_iff off width).mp hv
    rw [(h.resolve_left (not_not_intro hw)).resolve_left (not_not_intro ha)]
  · rfl

/-- Two states in which the register at an offset reads the same answer a read of that offset alike. -/
theorem State.busRead_congr {s t : State} {off : Nat} (h : ∀ r, Reg.ofOffset off = some r → t.regRead r = s.regRead r) (width : Nat) :
    t.busRead off width = s.busRead off width := by
  unfold State.busRead
  cases hoff : Reg.ofOffset off with
  | none => rfl
  | some r => simp only [h r hoff]

/-! ## Writes (20_memory.md R72, R73) -/

theorem State.busWrite_cmd (s : State) (w : Word) : s.busWrite 0x010 32 w = s.issue w := rfl

theorem State.busWrite_reg (s : State) {off : Nat} {r : Reg} (h : Reg.ofOffset off = some r) (hr : r ≠ .cmd) (v : Word) :
    s.busWrite off 32 v = .next (s.regWrite r v) := by
  unfold State.busWrite
  rw [if_pos (accessValid_of_ofOffset h), h]
  cases r with
  | cmd => exact absurd rfl hr
  | _ => rfl

theorem State.busWrite_none (s : State) {off width : Nat} (h : NoAccess off width) (v : Word) : s.busWrite off width v = .next s := by
  unfold State.busWrite
  split
  · next hv =>
    obtain ⟨hw, ha⟩ := (accessValid_iff off width).mp hv
    rw [(h.resolve_left (not_not_intro hw)).resolve_left (not_not_intro ha)]
  · rfl

/-- The registers that the host only reads (10_state.md section 2, access column). -/
def readOnlyRegs : List Reg :=
  [.id, .param0, .param1, .res0, .res1, .status, .fxf, .nbyte, .flen, .ftype, .fdec, .obsN, .stgN, .ckstat, .ckacc]

theorem State.regWrite_readOnly (s : State) {r : Reg} (h : r ∈ readOnlyRegs) (v : Word) : r ≠ .cmd ∧ s.regWrite r v = s := by
  simp only [readOnlyRegs, List.mem_cons, List.not_mem_nil, or_false] at h
  rcases h with rfl | rfl | rfl | rfl | rfl | rfl | rfl | rfl | rfl | rfl | rfl | rfl | rfl | rfl | rfl <;> exact ⟨nofun, rfl⟩

/-- The offsets below 0x080 that no register or a read-only one occupies (10_state.md section 2). -/
theorem regMap_readOnly : ∀ e ∈ regMap, e.1 < 0x010 ∨ (0x01C ≤ e.1 ∧ e.1 < 0x044) ∨ (0x04C ≤ e.1 ∧ e.1 < 0x080) →
    e.2 ∈ readOnlyRegs := by decide

theorem State.busWrite_readOnly (s : State) {off : Nat}
    (h : off < 0x010 ∨ (0x01C ≤ off ∧ off < 0x044) ∨ (0x04C ≤ off ∧ off < 0x080)) (v : Word) : s.busWrite off 32 v = .next s := by
  cases hoff : Reg.ofOffset off with
  | none => exact s.busWrite_none (.inr (.inr hoff)) v
  | some r =>
    have hro : r ∈ readOnlyRegs := by
      rcases Reg.ofOffset_eq_some hoff with ⟨j, _, rfl, _⟩ | hmem
      · omega
      · exact regMap_readOnly _ hmem h
    obtain ⟨hcmd, hsame⟩ := s.regWrite_readOnly hro v
    rw [s.busWrite_reg hoff hcmd, hsame]

/-! ## CFG registers (10_state.md R36, R57) -/

/-- The bits of a CFG register that are stored (10_state.md R37 to R46), none for any other register. -/
def Reg.cfgMask : Reg → Option Word
  | .syncCfg | .lenCfg => some 0x00000007#32
  | .syncPat1 => some 0x000000FF#32
  | .ckCfg => some 0xFFFF001F#32
  | .typeCfg => some 0x001FFFFF#32
  | .frameMax | .tfValid => some 0x0000FFFF#32
  | .lkCfg => some 0x00000001#32
  | .syncPat0 | .hdrCfg | .crc32Init | .crc32Xorout | .lkScale | .lkSlack | .lkSat | .sentLo | .sentHi | .tfType _ =>
    some 0xFFFFFFFF#32
  | .id | .param0 | .param1 | .cmd | .arg0 | .arg1 | .res0 | .res1 | .status | .fxf | .nbyte | .flen
  | .ftype | .fdec | .obsN | .stgN | .timeLo | .timeHi | .ckstat | .ckacc => none

theorem cfgMasks_cfgMask : ∀ e ∈ cfgMasks, (Reg.ofOffset e.1).bind Reg.cfgMask = some e.2 := by decide

/-- A CFG offset holds a CFG register with its mask, and one of the sixteen if a TF_TYPE. -/
theorem IsCfg.reg {off : Nat} {mask : Word} (h : IsCfg off mask) :
    ∃ r, Reg.ofOffset off = some r ∧ r.cfgMask = some mask ∧ ∀ j, r = .tfType j → j < 16 := by
  have hlt : ∀ r, Reg.ofOffset off = some r → ∀ j, r = .tfType j → j < 16 := by
    rintro r hr j rfl
    rcases Reg.ofOffset_eq_some hr with ⟨j', hj', _, heq⟩ | hmem
    · cases heq; exact hj'
    · exact absurd hmem regMap_ne_tfType
  rcases h with hmem | ⟨hlo, hhi, hal, rfl⟩
  · obtain ⟨r, hr, hm⟩ := Option.bind_eq_some_iff.mp (cfgMasks_cfgMask _ hmem)
    exact ⟨r, hr, hm, hlt r hr⟩
  · have hr : Reg.ofOffset off = some (.tfType ((off - 0x100) / 4)) := by
      have := Reg.ofOffset_tfType (j := (off - 0x100) / 4) (by omega)
      rwa [show 0x100 + 4 * ((off - 0x100) / 4) = off by omega] at this
    exact ⟨_, hr, rfl, hlt _ hr⟩

theorem State.regWrite_cfg (s : State) {r : Reg} {mask : Word} (h : r.cfgMask = some mask) (v : Word) :
    r ≠ .cmd ∧ s.regWrite r v = s.cfgWrite r v := by
  cases r <;> cases h <;> exact ⟨nofun, rfl⟩

theorem State.regRead_cfgWrite_same (s : State) {r : Reg} {mask : Word} (h : r.cfgMask = some mask)
    (hj : ∀ j, r = .tfType j → j < s.cfg.tfType.length) (v : Word) :
    State.regRead { s with cfg := s.cfg.write r v } r = v &&& mask := by
  have hall : v = v &&& 0xFFFFFFFF#32 := BitVec.and_allOnes.symm
  cases r with
  | tfType j => cases h; exact (getD_set_self v 0 (hj j rfl)).trans hall
  | syncPat0 | hdrCfg | crc32Init | crc32Xorout | lkScale | lkSlack | lkSat | sentLo | sentHi => cases h; exact hall
  | _ => cases h <;> rfl

theorem State.regRead_cfgWrite_other (s : State) {r r' : Reg} (h : r' ≠ r) (v : Word) :
    State.regRead { s with cfg := s.cfg.write r v } r' = s.regRead r' := by
  cases r with
  | tfType j =>
    cases r' with
    | tfType j' => exact getD_set_other _ _ _ fun hj => h (congrArg Reg.tfType hj)
    | _ => rfl
  | id | param0 | param1 | cmd | arg0 | arg1 | res0 | res1 | status | fxf | nbyte | flen | ftype | fdec | obsN | stgN | timeLo
  | timeHi | ckstat | ckacc => rfl
  | _ => cases r' <;> trivial

end Sys2Proof.Machine
end

section
/-! The bus window as the host sees it: the status words as numbers, the configuration as slices of its registers, and the statements
about reads, writes and the issue of a command. -/

namespace Sys2Proof.Machine

/-! ## Status words as numbers (10_state.md R25, R27, R30, R32, R35) -/

theorem State.statusWord_toNat (s : State) : s.statusWord.toNat = s.code.bits.toNat + 2 ^ 8 * s.cause.bits.toNat +
    2 ^ 16 * s.isOpen.toNat + 2 ^ 17 * s.sstate.bits.toNat + 2 ^ 19 * s.werr.toNat := by
  simp only [State.statusWord, append_toNat, bit_toNat, BitVec.toNat_ofNat]; omega

theorem State.fxfWord_toNat (s : State) : s.fxfWord.toNat = s.fxMissing.toNat + 2 * s.fxNan.toNat := by
  simp only [State.fxfWord, append_toNat, bit_toNat, BitVec.toNat_ofNat]; omega

theorem State.fdecWord_toNat (s : State) : s.fdecWord.toNat = s.fdecIdx.toNat + 2 ^ 4 * s.fdecHit.toNat := by
  simp only [State.fdecWord, append_toNat, bit_toNat, BitVec.toNat_ofNat]; omega

theorem State.ckstatWord_toNat (s : State) : s.ckstatWord.toNat = (ckaBits s.cka).toNat + 2 ^ 3 * s.ckf.toNat := by
  simp only [State.ckstatWord, append_toNat, bit_toNat, BitVec.toNat_ofNat]; omega

/-- Legal parameters fit their places (00_scope.md R5). -/
theorem Params.legal_bounds {p : Params} (h : p.legal = true) : 8 ≤ p.bufSize ∧ p.bufSize ≤ 65535 ∧
    1 ≤ p.maxObs ∧ p.maxObs ≤ 255 ∧ 1 ≤ p.nSlot ∧ p.nSlot ≤ 15 ∧ 1 ≤ p.maxSat ∧ p.maxSat ≤ 255 := of_decide_eq_true h

theorem Params.param0_toNat {p : Params} (h : p.legal = true) :
    (Params.param0 p).toNat = p.maxObs + 2 ^ 8 * p.maxSat + 2 ^ 16 * p.nSlot := by
  obtain ⟨_, _, _, hobs, _, hslot, _, hsat⟩ := Params.legal_bounds h
  simp only [Params.param0, append_toNat, BitVec.toNat_ofNat]; omega

/-- Settles O8: register by register. -/
theorem registersReadTheirState : Obligations.RegistersReadTheirState := by
  intro s codeNo causeNo sstateNo ckaNo
  have hcode : s.code.bits.toNat = codeNo := by dsimp only [codeNo]; cases s.code <;> rfl
  have hcause : s.cause.bits.toNat = causeNo := by dsimp only [causeNo]; cases s.cause <;> rfl
  have hsstate : s.sstate.bits.toNat = sstateNo := by dsimp only [sstateNo]; cases s.sstate <;> rfl
  have hcka : (ckaBits s.cka).toNat = ckaNo := by
    dsimp only [ckaNo]
    cases s.cka with
    | none => rfl
    | some a => cases a <;> rfl
  refine ⟨rfl, fun h => Params.param0_toNat h, fun h => ?_, rfl, rfl, rfl, rfl, ?_, s.fxfWord_toNat,
    BitVec.toNat_setWidth_of_le (b := s.nbyte) (by decide), BitVec.toNat_setWidth_of_le (b := s.flen) (by decide), rfl, s.fdecWord_toNat,
    BitVec.toNat_setWidth_of_le (b := s.obsN) (by decide), BitVec.toNat_setWidth_of_le (b := s.stgN) (by decide), rfl, rfl, ?_, rfl,
    fun off width h => ?_⟩
  · obtain ⟨_, hbuf, _⟩ := Params.legal_bounds h
    exact Nat.mod_eq_of_lt (by omega)
  · rw [← hcode, ← hcause, ← hsstate]; exact s.statusWord_toNat
  · rw [← hcka]; exact s.ckstatWord_toNat
  · by_cases hcmd : off = 0x010
    · subst hcmd
      unfold State.busRead
      split <;> rfl
    · refine s.busRead_none ?_
      rcases h with hw | ha | hoff | hoff | hoff
      · exact .inl hw
      · exact .inr (.inl ha)
      · exact .inr (.inr (Reg.ofOffset_unoccupied (.inl hoff)))
      · exact absurd hoff hcmd
      · exact .inr (.inr (Reg.ofOffset_unoccupied (.inr hoff)))

/-! ## Writes -/

/-- Settles O10: the four registers by evaluation, the ignored writes by what stands at the offset. -/
theorem writesStoreOrAreIgnored : Obligations.WritesStoreOrAreIgnored := by
  intro s v
  refine ⟨rfl, rfl, rfl, rfl, fun off width h => ?_⟩
  by_cases hw : width = 32
  · subst hw
    rcases h with hw | ha | hlo | hlo | hlo | hun
    · exact absurd rfl hw
    · exact s.busWrite_none (.inr (.inl ha)) v
    · exact s.busWrite_readOnly (.inl hlo) v
    · exact s.busWrite_readOnly (.inr (.inl hlo)) v
    · exact s.busWrite_readOnly (.inr (.inr hlo)) v
    · exact s.busWrite_none (.inr (.inr (Reg.ofOffset_unoccupied (.inr (.inr hun))))) v
  · exact s.busWrite_none (.inl hw) v

/-- Settles O9: the register at a CFG offset, what a write of it stores, and that no other register reads otherwise. -/
theorem configurationIsLockedWhileOpen : Obligations.ConfigurationIsLockedWhileOpen := by
  intro s off mask v hcfg hlen
  obtain ⟨r, hr, hm, hj⟩ := hcfg.reg
  obtain ⟨hcmd, hwrite⟩ := s.regWrite_cfg hm v
  rw [s.busWrite_reg hr hcmd, hwrite, State.cfgWrite]
  refine ⟨fun hopen => by rw [if_pos hopen], fun hclosed => ?_⟩
  rw [if_neg (by simp [hclosed])]
  refine ⟨_, rfl, rfl, ?_, fun off' width' hne => State.busRead_congr (fun r' hr' => ?_) width'⟩
  · rw [State.busRead_reg _ hr]
    exact s.regRead_cfgWrite_same hm (fun j hrj => hlen ▸ hj j hrj) v
  · refine s.regRead_cfgWrite_other (fun heq => hne ?_) v
    exact Reg.ofOffset_injective hr' (heq ▸ hr)

/-! ## The issue of a command (10_state.md R26) -/

theorem Params.offset_fssBase_add (p : Params) {off : Nat} (h : off < windowBytes) : Params.offset p (p.fssBase + off) = some off := by
  unfold Params.offset
  rw [if_pos (by omega), Nat.add_sub_cancel_left]

/-- The transaction that issues a word does so (20_memory.md R70). -/
theorem State.perform_issueEvent (s : State) (w : Word) : s.perform (issueEvent s.params w) = s.issue w := by
  simp only [issueEvent, State.perform, Params.offset_fssBase_add s.params (show 0x010 < windowBytes by decide), State.busWrite_cmd]

theorem State.issue_ok {w : Word} {i : Instr} (h : decode w = .ok i) (s : State) : s.issue w = exec i s := by
  simp only [State.issue, h]

theorem State.issue_error {w : Word} {k : DecodeError} (h : decode w = .error k) (s : State) :
    s.issue w = .next (s.finish .refused (refusalCause k)) := by
  simp only [State.issue, h, State.raiseRefused_eq]

/-- Settles O6: the step takes the transaction, which issues the word. -/
theorem stepPerformsTheIssuedCommand : Obligations.StepPerformsTheIssuedCommand := by
  intro s w rest hbus u
  have hstep : step s = u.issue w := (step_of_bus_cons hbus).trans (u.perform_issueEvent w)
  rw [hstep]
  exact ⟨fun i hi => State.issue_ok hi u, fun hk => State.issue_error hk u, fun hk => State.issue_error hk u, rfl⟩

/-! ## The configuration as slices (10_state.md R37 to R46) -/

/-- CK_ALG and its trailer length by number, as the table of 10_state.md R40 has them. -/
theorem Alg.ofBits_eq (b : BitVec 3) : Alg.ofBits b = match b.toNat with
    | 1 => some .rotxor | 2 => some .xor | 3 => some .add8 | 4 => some .crc32 | 5 => some .crc24q | _ => none := rfl

theorem trailerLen_ofBits (b : BitVec 3) : trailerLen (Alg.ofBits b) = match b.toNat with
    | 1 => 1 | 2 => 1 | 3 => 1 | 4 => 4 | 5 => 3 | _ => 0 := by revert b; decide

/-- Settles O60: each accessor is a slice or a bit of its register. -/
theorem configurationFieldsAreTheirBits : Obligations.ConfigurationFieldsAreTheirBits := by
  intro s w
  have hckAlg : (s.cfg.ckCfg.extractLsb' 0 3).toNat = w 0x094 % 2 ^ 3 := lowSlice_toNat ..
  have hbig : (s.cfg.typeCfg.getLsbD 19).toNat = w 0x0A0 / 2 ^ 19 % 2 := getLsbD_toNat ..
  refine ⟨lowSlice_toNat .., ?_, lowSlice_toNat .., topSlice_toNat _ rfl, lowSlice_toNat .., rfl, ?_, ?_,
    getLsbD_toNat .., getLsbD_toNat .., topSlice_toNat _ rfl, rfl, rfl, lowSlice_toNat ..,
    slice_toNat .., ?_, getLsbD_toNat .., lowSlice_toNat .., ?_, rfl, rfl, rfl, rfl, rfl,
    fun j hj => ⟨?_, ?_⟩⟩
  · simp only [State.pattern, List.map_cons, List.map_nil, lowSlice_toNat, slice_toNat _ 8, slice_toNat _ 16,
      topSlice_toNat _ (show 24 + 8 = 32 from rfl)]
    rfl
  · rw [← hckAlg]; exact Alg.ofBits_eq _
  · rw [← hckAlg]; exact trailerLen_ofBits _
  · rw [← hbig, State.typeEndian]
    cases s.cfg.typeCfg.getLsbD 19 <;> rfl
  · have := getLsbD_toNat s.cfg.lkCfg 0
    rwa [Nat.pow_zero, Nat.div_one] at this
  · have hbit : s.tfValid j = s.cfg.tfValid.getLsbD j := by
      rw [State.tfValid, BitVec.getLsbD_extractLsb', decide_eq_true hj, Bool.true_and, Nat.zero_add]
    rw [hbit]; exact getLsbD_toNat ..
  · exact (s.busRead_reg (Reg.ofOffset_tfType hj)).symm

end Sys2Proof.Machine
end

section
/-! What a step of the block can do (20_memory.md R74), and the induction that every invariant of the machine takes: a property that the
queue, the reset, the register writes and the commands keep. -/

namespace Sys2Proof.Machine

theorem State.cfgWrite_cases (s : State) (r : Reg) (v : Word) :
    (s.isOpen = true ∧ s.cfgWrite r v = { s with werr := true }) ∨
    (s.isOpen = false ∧ s.cfgWrite r v = { s with cfg := s.cfg.write r v }) := by
  unfold State.cfgWrite
  cases hopen : s.isOpen
  · exact .inr ⟨rfl, rfl⟩
  · exact .inl ⟨rfl, rfl⟩

/-- What a write of a register can do: ARG and TIME at most, or as a write of a CFG register. -/
theorem State.regWrite_cases (s : State) (r : Reg) (v : Word) :
    (∃ a0 a1 lo hi, s.regWrite r v = { s with arg0 := a0, arg1 := a1, timeLo := lo, timeHi := hi }) ∨
      s.regWrite r v = s.cfgWrite r v := by
  cases r with
  | id | param0 | param1 | cmd | arg0 | arg1 | res0 | res1 | status | fxf | nbyte | flen | ftype | fdec | obsN | stgN | timeLo
  | timeHi | ckstat | ckacc => exact .inl ⟨_, _, _, _, rfl⟩
  | _ => exact .inr rfl

/-- What a write in the window can do: nothing, a register write, or a command. -/
theorem State.busWrite_cases {s t : State} {off width : Nat} {v : Word} (h : s.busWrite off width v = .next t) :
    t = s ∨ (∃ r, t = s.regWrite r v) ∨ s.issue v = .next t := by
  unfold State.busWrite at h
  split at h
  · split at h
    · exact .inr (.inr h)
    · cases h; exact .inr (.inl ⟨_, rfl⟩)
    · cases h; exact .inl rfl
  · cases h; exact .inl rfl

/-- An issued word has an effect that some command may have: a word that does not decode is refused as any command may be. -/
theorem State.issue_effect {s t : State} {w : Word} (h : s.issue w = .next t) : ∃ i, Effect s i t := by
  unfold State.issue at h
  split at h
  · exact ⟨_, exec_effect h⟩
  · next k _ => cases h; exact ⟨.nop, .refused (by cases k <;> rfl)⟩

/-- A property that the queue, the reset, the register writes and the commands keep is kept by every step. -/
theorem step_keeps {P : State → Prop} (hqueue : ∀ s bus reply, P s → P { s with bus := bus, reply := reply })
    (hreset : ∀ s, P s → P s.hardwareReset) (hwrite : ∀ s r v, P s → P (s.regWrite r v))
    (hexec : ∀ s t i, Effect s i t → P s → P t) {s t : State} (hs : P s) (h : step s = .next t) : P t := by
  cases hbus : s.bus with
  | nil => rw [step_of_bus_nil hbus] at h; cases h; exact hs
  | cons e rest =>
    rw [step_of_bus_cons hbus] at h
    have hu := hqueue s rest none hs
    generalize ({ s with bus := rest, reply := none } : State) = u at h hu
    cases e with
    | reset => cases h; exact hreset u hu
    | read addr width =>
      simp only [State.perform] at h
      split at h <;> cases h
      exact hqueue u u.bus _ hu
    | write addr width v =>
      simp only [State.perform] at h
      split at h
      · rcases State.busWrite_cases h with rfl | ⟨r, rfl⟩ | hissue
        · exact hu
        · exact hwrite u r v hu
        · obtain ⟨i, heff⟩ := State.issue_effect hissue
          exact hexec u t i heff hu
      · cases h

end Sys2Proof.Machine
end

section
/-! What a fed byte keeps (41_synchronizer.md R124 to R130): the canonical form of BUF, and in a legal session the bounds of SYNC. -/

namespace Sys2Proof.Machine

/-! ## The canonical form of BUF -/

@[simp] theorem headerNext_buf (s : State) : (headerNext s).buf = s.buf := by rw [headerNext_eq]

@[simp] theorem completeFrame_buf (s : State) : (completeFrame s).buf = s.buf := by
  rcases completeFrame_cases s with ⟨_, h⟩ | ⟨_, _, _, h⟩ | ⟨_, _, j, _, h⟩ | ⟨_, _, h⟩ <;> rw [h] <;> rfl

/-- A fed byte leaves BUF, stores itself at NBYTE, or stores the sync bytes. -/
theorem feedByte_buf (b : Byte) (s : State) :
    (feedByte b s).buf = s.buf ∨ (feedByte b s).buf = Memory.write s.buf s.nbyte.toNat b ∨
      ∃ bs, (feedByte b s).buf = Memory.writeList s.buf 0 bs := by
  unfold feedByte
  split
  · rcases seekByte_cases b s with ⟨_, h⟩ | ⟨_, h⟩ <;> rw [h]
    · exact .inr (.inr ⟨_, rfl⟩)
    · exact .inl rfl
  · rcases headerByte_cases b s with ⟨_, h⟩ | ⟨_, k, _, h⟩ | ⟨_, n, _, h⟩ <;> rw [h]
    · exact .inr (.inl (headerNext_buf _))
    · exact .inr (.inl rfl)
    · exact .inr (.inl (headerNext_buf _))
  · rcases payloadByte_cases b s with ⟨_, h⟩ | ⟨_, h⟩ <;> rw [h]
    · exact .inr (.inl rfl)
    · exact .inr (.inl (completeFrame_buf _))
  · exact .inl rfl

theorem feedByte_bufWf (b : Byte) {s : State} (h : Memory.wf s.buf = true) : Memory.wf (feedByte b s).buf = true := by
  rcases feedByte_buf b s with heq | heq | ⟨bs, heq⟩ <;> rw [heq]
  · exact h
  · exact Memory.wf_write _ _ h
  · exact Memory.wf_writeList _ h

/-- A command stores to BUF by feeding bytes only, which keeps its form. -/
theorem Effect.bufWf {s t : State} {i : Instr} (heff : Effect s i t) (h : Memory.wf s.buf = true) : Memory.wf t.buf = true := by
  cases heff with
  | fed => exact feedByte_bufWf _ h
  | fedMany _ hfree => exact feedLoop_induction (P := fun u => Memory.wf u.buf = true) (fun b u _ hu => feedByte_bufWf b hu) _ 0 s hfree h
  | opened => rw [State.openEffects_eq]; exact h
  | ended => obtain ⟨arr, n, heq⟩ := s.syncReset.flushEpoch_eq; rw [heq]; exact h
  | flushed => obtain ⟨arr, n, heq⟩ := s.flushEpoch_eq; rw [heq]; exact h
  | _ => exact h

theorem State.regWrite_buf (s : State) (r : Reg) (v : Word) : (s.regWrite r v).buf = s.buf := by
  rcases s.regWrite_cases r v with ⟨_, _, _, _, h⟩ | h
  · rw [h]
  · rcases s.cfgWrite_cases r v with ⟨_, hc⟩ | ⟨_, hc⟩ <;> rw [h, hc]

/-- Settles O15: BUF is empty after reset, kept by a register write, and written by commands in its form. -/
theorem stepKeepsBufCanonical : Obligations.StepKeepsBufCanonical := fun _ _ hs h =>
  step_keeps (P := fun u => Memory.wf u.buf = true) (fun _ _ _ hu => hu) (fun _ _ => rfl)
    (fun u r v hu => by rw [State.regWrite_buf]; exact hu) (fun _ _ _ heff hu => heff.bufWf hu) hs h

/-! ## The bounds of a legal session (40_session.md R111) -/

theorem lenWidth_ge_two {enc : Nat} (h : enc ≤ 4) : 2 ≤ lenWidth enc := by
  unfold lenWidth
  split
  · omega
  · split
    · omega
    · rw [if_pos (by omega)]; omega

theorem State.cfgLegal_bounds {s : State} (h : s.cfgLegal = true) : 1 ≤ s.syncLen ∧ s.syncLen ≤ 5 ∧ s.syncLen ≤ s.lenOff ∧
    2 ≤ lenWidth s.lenEnc ∧ s.lenOff + lenWidth s.lenEnc ≤ s.hdrLen ∧ s.hdrLen + 1 + s.trl ≤ s.frameMax ∧
    s.frameMax ≤ s.params.bufSize := by
  simp only [State.cfgLegal, Bool.and_eq_true, decide_eq_true_eq] at h
  obtain ⟨⟨⟨⟨⟨⟨⟨⟨⟨⟨⟨hpos, hfive⟩, henc⟩, hsync⟩, hhdr⟩, _⟩, _⟩, _⟩, _⟩, _⟩, hfit⟩, hmax⟩ := h
  exact ⟨hpos, hfive, hsync, lenWidth_ge_two henc, hhdr, hfit, hmax⟩

theorem State.frameMax_lt (s : State) : s.frameMax < 2 ^ 16 := (s.cfg.frameMax.extractLsb' 0 16).isLt

/-! ## The window (41_synchronizer.md R124) -/

theorem shiftWindow_length {sl : Nat} {win : List Byte} (wcnt : Nat) (b : Byte) (hw : win.length = 5) (h1 : 1 ≤ sl) (h5 : sl ≤ 5) :
    (shiftWindow sl win wcnt b).1.length = 5 := by
  unfold shiftWindow
  split
  · simp [hw]
  · simp [hw]; omega

theorem shiftWindow_count_le {sl wcnt : Nat} (win : List Byte) (b : Byte) (h : wcnt ≤ sl) : (shiftWindow sl win wcnt b).2 ≤ sl := by
  unfold shiftWindow
  split
  · assumption
  · exact h

/-! ## What each SYNC state says, as an equivalence -/

theorem State.syncOk_seeking {s : State} (h : s.sstate = .seeking) :
    s.syncOk ↔ s.nbyte = 0 ∧ s.flen = 0 ∧ s.wcnt ≤ (if s.isOpen then s.syncLen else 0) := by
  unfold State.syncOk; rw [h]

theorem State.syncOk_header {s : State} (h : s.sstate = .header) :
    s.syncOk ↔ s.wcnt = 0 ∧ s.syncLen ≤ s.nbyte.toNat ∧ s.nbyte.toNat < s.hdrLen ∧
      (s.nbyte.toNat < s.lenOff + lenWidth s.lenEnc → s.flen = 0) ∧
      (s.lenOff + lenWidth s.lenEnc ≤ s.nbyte.toNat → s.flenOk) := by
  unfold State.syncOk; rw [h]

theorem State.syncOk_payload {s : State} (h : s.sstate = .payload) :
    s.syncOk ↔ s.wcnt = 0 ∧ s.hdrLen ≤ s.nbyte.toNat ∧ s.nbyte.toNat < s.flen.toNat ∧ s.flenOk := by
  unfold State.syncOk; rw [h]

theorem State.syncOk_complete {s : State} (h : s.sstate = .complete) : s.syncOk ↔ s.wcnt = 0 ∧ s.nbyte = s.flen ∧ s.flenOk := by
  unfold State.syncOk; rw [h]

theorem State.syncReset_syncOk (s : State) : s.syncReset.syncOk := (State.syncOk_seeking rfl).mpr ⟨rfl, rfl, Nat.zero_le _⟩

/-! ## The part of the invariant that a fed byte could break -/

/-- The bounds of BUF, of the window and of SYNC, and FDEC. -/
structure State.SyncInv (s : State) : Prop where
  bufBelow : Memory.below s.params.bufSize s.buf = true
  winLen : s.win.length = 5
  sync : s.syncOk
  fdec : s.fdecHit = false → s.fdecIdx = 0

theorem State.SyncInv.syncReset {s : State} (hbuf : Memory.below s.params.bufSize s.buf = true)
    (hfdec : s.fdecHit = false → s.fdecIdx = 0) : s.syncReset.SyncInv := ⟨hbuf, rfl, s.syncReset_syncOk, hfdec⟩

theorem State.SyncInv.finish {s : State} {c : Code} {k : Cause} (hs : s.SyncInv) : (s.finish c k).SyncInv :=
  ⟨hs.bufBelow, hs.winLen, hs.sync, hs.fdec⟩

/-- A frame begins with the sync bytes in BUF, short of the header's end and of the length field (41_synchronizer.md R124). -/
theorem beginFrame_syncInv {s : State} (win : List Byte) (hs : s.SyncInv) (hlegal : s.cfgLegal = true) : (s.beginFrame win).SyncInv := by
  obtain ⟨_, hfive, hsync, hlw, hhdr, hfit, hmax⟩ := State.cfgLegal_bounds hlegal
  have hn : (BitVec.ofNat 16 s.syncLen).toNat = s.syncLen := Nat.mod_eq_of_lt (by omega)
  have htake := List.length_take_le s.syncLen win
  have hbuf : Memory.below s.params.bufSize (s.beginFrame win).buf = true := Memory.below_writeList hs.bufBelow (by omega)
  refine ⟨hbuf, rfl, (State.syncOk_header rfl).mpr ⟨rfl, hn.ge, ?_, fun _ => rfl, fun hge => ?_⟩, hs.fdec⟩
  · exact hn.trans_lt (show s.syncLen < s.hdrLen by omega)
  · have : s.lenOff + lenWidth s.lenEnc ≤ (BitVec.ofNat 16 s.syncLen).toNat := hge
    omega

/-- While OPEN the window may hold any five bytes, and count up to the length of the pattern (41_synchronizer.md R121). -/
theorem State.SyncInv.setWindow {s : State} {win : List Byte} {wcnt : Nat} (hs : s.SyncInv) (hopen : s.isOpen = true)
    (hseek : s.sstate = .seeking) (hwin : win.length = 5) (hcnt : wcnt ≤ s.syncLen) :
    ({ s with win := win, wcnt := wcnt } : State).SyncInv := by
  obtain ⟨hnbyte, hflen, _⟩ := (State.syncOk_seeking hseek).mp hs.sync
  refine ⟨hs.bufBelow, hwin, (State.syncOk_seeking (s := { s with win := win, wcnt := wcnt }) hseek).mpr ⟨hnbyte, hflen, ?_⟩, hs.fdec⟩
  exact hcnt.trans_eq (if_pos hopen).symm

theorem seekByte_syncInv {s : State} (b : Byte) (hs : s.SyncInv) (hopen : s.isOpen = true) (hlegal : s.cfgLegal = true)
    (hseek : s.sstate = .seeking) : (seekByte b s).SyncInv := by
  obtain ⟨hpos, hfive, _⟩ := State.cfgLegal_bounds hlegal
  obtain ⟨_, _, hcnt⟩ := (State.syncOk_seeking hseek).mp hs.sync
  rw [if_pos hopen] at hcnt
  rcases seekByte_cases b s with ⟨_, h⟩ | ⟨_, h⟩ <;> rw [h]
  · exact (beginFrame_syncInv _ hs hlegal).finish
  · exact (hs.setWindow hopen hseek (shiftWindow_length s.wcnt b hs.winLen hpos hfive) (shiftWindow_count_le s.win b hcnt)).finish

/-- A byte stored below the largest NBYTE advances it by one. -/
theorem State.putByte_nbyte_toNat {s : State} (b : Byte) (h : s.nbyte.toNat + 1 < 2 ^ 16) :
    (s.putByte b).nbyte.toNat = s.nbyte.toNat + 1 := by
  rw [State.putByte_nbyte, BitVec.toNat_add]
  exact Nat.mod_eq_of_lt h

/-- The end of a header byte, when the byte count and the length are right (41_synchronizer.md R125). -/
theorem headerNext_syncOk {s : State} (hst : s.sstate = .header) (hcnt : s.wcnt = 0) (hlo : s.syncLen ≤ s.nbyte.toNat)
    (hhi : s.nbyte.toNat ≤ s.hdrLen) (hhdr : s.lenOff + lenWidth s.lenEnc ≤ s.hdrLen)
    (hbefore : s.nbyte.toNat < s.lenOff + lenWidth s.lenEnc → s.flen = 0)
    (hafter : s.lenOff + lenWidth s.lenEnc ≤ s.nbyte.toNat → s.flenOk) : (headerNext s).syncOk := by
  by_cases hend : s.nbyte.toNat = s.hdrLen
  · have hlen : s.flenOk := hafter (by omega)
    rw [headerNext, if_pos hend]
    refine (State.syncOk_payload rfl).mpr ⟨hcnt, hend.ge, ?_, hlen⟩
    have : s.nbyte.toNat < s.flen.toNat := by have := hlen.1; omega
    exact this
  · rw [headerNext, if_neg hend]
    exact (State.syncOk_header hst).mpr ⟨hcnt, hlo, lt_of_le_of_ne hhi hend, hbefore, hafter⟩

theorem headerNext_syncInv {s : State} (hbuf : Memory.below s.params.bufSize s.buf = true) (hwin : s.win.length = 5)
    (hfdec : s.fdecHit = false → s.fdecIdx = 0) (hsync : (headerNext s).syncOk) : (headerNext s).SyncInv := by
  rw [headerNext_eq] at hsync ⊢
  exact ⟨hbuf, hwin, hsync, hfdec⟩

theorem headerByte_syncInv {s : State} (b : Byte) (hs : s.SyncInv) (hlegal : s.cfgLegal = true) (hheader : s.sstate = .header) :
    (headerByte b s).SyncInv := by
  obtain ⟨_, _, hsync, hlw, hhdr, hfit, hmax⟩ := State.cfgLegal_bounds hlegal
  obtain ⟨hcnt, hlo, hhi, hbefore, hafter⟩ := (State.syncOk_header hheader).mp hs.sync
  have h16 := s.frameMax_lt
  have hn := State.putByte_nbyte_toNat b (s := s) (by omega)
  have hbuf : Memory.below s.params.bufSize (s.putByte b).buf = true := Memory.below_write b hs.bufBelow (by omega)
  rcases headerByte_cases b s with ⟨hne, h⟩ | ⟨_, k, _, h⟩ | ⟨hend, n, hlen, h⟩ <;> rw [h]
  · refine headerNext_syncInv hbuf hs.winLen hs.fdec (headerNext_syncOk hheader hcnt ?_ ?_ hhdr (fun hlt => ?_) (fun hge => ?_))
    · exact hn ▸ Nat.le_succ_of_le hlo
    · exact hn ▸ hhi
    · have : (s.putByte b).nbyte.toNat < s.lenOff + lenWidth s.lenEnc := hlt
      exact hbefore (by omega)
    · have : s.lenOff + lenWidth s.lenEnc ≤ (s.putByte b).nbyte.toNat := hge
      exact hafter (by omega)
  · exact (State.SyncInv.syncReset (s := s.putByte b) hbuf hs.fdec).finish
  · have hbounds := State.decodeLength_ok hlen
    obtain ⟨hmin, hfits⟩ : s.hdrLen + 1 + s.trl ≤ n ∧ n ≤ s.frameMax := hbounds
    have hofNat : (BitVec.ofNat 16 n).toNat = n := Nat.mod_eq_of_lt (by omega)
    refine headerNext_syncInv hbuf hs.winLen hs.fdec (headerNext_syncOk hheader hcnt ?_ ?_ hhdr (fun hlt => ?_) (fun _ => ?_))
    · exact hn ▸ Nat.le_succ_of_le hlo
    · exact hn ▸ hhi
    · have : (s.putByte b).nbyte.toNat < s.lenOff + lenWidth s.lenEnc := hlt
      omega
    · exact ⟨hmin.trans hofNat.ge, hofNat.le.trans hfits⟩

/-- A whole frame is dropped, or held with NBYTE at its length (41_synchronizer.md R129, R130). -/
theorem completeFrame_syncInv {s : State} (hbuf : Memory.below s.params.bufSize s.buf = true) (hwin : s.win.length = 5)
    (hfdec : s.fdecHit = false → s.fdecIdx = 0) (hcnt : s.wcnt = 0) (hwhole : s.nbyte = s.flen) (hlen : s.flenOk) :
    (completeFrame s).SyncInv := by
  rcases completeFrame_cases s with ⟨_, h⟩ | ⟨_, _, _, h⟩ | ⟨_, _, j, _, h⟩ | ⟨_, _, h⟩ <;> rw [h]
  · exact ⟨hbuf, rfl, s.syncReset_syncOk, hfdec⟩
  · exact ⟨hbuf, rfl, State.syncReset_syncOk _, fun _ => rfl⟩
  · exact ⟨hbuf, hwin, (State.syncOk_complete rfl).mpr ⟨hcnt, hwhole, hlen⟩, nofun⟩
  · exact ⟨hbuf, hwin, (State.syncOk_complete rfl).mpr ⟨hcnt, hwhole, hlen⟩, fun _ => rfl⟩

theorem payloadByte_syncInv {s : State} (b : Byte) (hs : s.SyncInv) (hlegal : s.cfgLegal = true) (hpayload : s.sstate = .payload) :
    (payloadByte b s).SyncInv := by
  obtain ⟨_, _, _, _, _, _, hmax⟩ := State.cfgLegal_bounds hlegal
  obtain ⟨hcnt, hlo, hhi, hmin, hfits⟩ := (State.syncOk_payload hpayload).mp hs.sync
  have h16 := s.frameMax_lt
  have hn := State.putByte_nbyte_toNat b (s := s) (by omega)
  have hbuf : Memory.below s.params.bufSize (s.putByte b).buf = true := Memory.below_write b hs.bufBelow (by omega)
  rcases payloadByte_cases b s with ⟨hlt, h⟩ | ⟨hge, h⟩ <;> rw [h]
  · refine .finish ⟨hbuf, hs.winLen, (State.syncOk_payload (s := s.putByte b) hpayload).mpr ⟨hcnt, ?_, hlt, hmin, hfits⟩, hs.fdec⟩
    exact hn ▸ Nat.le_succ_of_le hlo
  · refine completeFrame_syncInv hbuf hs.winLen hs.fdec hcnt (BitVec.eq_of_toNat_eq ?_) ⟨hmin, hfits⟩
    show (s.putByte b).nbyte.toNat = s.flen.toNat
    omega

/-- A byte fed in a session with a legal configuration keeps the bounds of SYNC, whatever the SYNC state. -/
theorem feedByte_syncInv {s : State} (b : Byte) (hs : s.SyncInv) (hopen : s.isOpen = true) (hlegal : s.cfgLegal = true) :
    (feedByte b s).SyncInv := by
  unfold feedByte
  split
  · exact seekByte_syncInv b hs hopen hlegal (by assumption)
  · exact headerByte_syncInv b hs hlegal (by assumption)
  · exact payloadByte_syncInv b hs hlegal (by assumption)
  · exact hs.finish

end Sys2Proof.Machine
end

section
/-! The invariant of the machine (Safety.lean): each shared operation keeps it under the condition that its rule gives, so every effect of
a command, every register write and the reset do, and with them every step. -/

namespace Sys2Proof.Machine

/-! ## The shared operations -/

theorem State.Inv.finish {s : State} {c : Code} {k : Cause} (hi : s.Inv) (hck : outcomeOk c k = true) : (s.finish c k).Inv :=
  { hi with outcome := hck }

theorem State.Inv.setRes {s : State} (hi : s.Inv) (v : DWord) : (s.setRes v).Inv := { hi with }

theorem State.Inv.setFxf {s : State} {missing nan : Bool} (hi : s.Inv) (hnan : nan = true → missing = true) :
    (s.setFxf missing nan).Inv := { hi with fxf := hnan }

theorem State.Inv.syncReset {s : State} (hi : s.Inv) : s.syncReset.Inv :=
  { hi with winLen := rfl, closed := fun _ => rfl, sync := s.syncReset_syncOk }

theorem State.Inv.setObs {s : State} {arr : List Rec} {n : Byte} (hi : s.Inv) (hlen : arr.length = s.params.maxObs)
    (hslots : ∀ r ∈ arr, r.slots.length = s.params.nSlot) (hn : n.toNat ≤ s.params.maxObs)
    (hlive : ∀ i, i < n.toNat → (s.recAt arr i).sat ≠ 0 ∧ (s.recAt arr i).tv = true) : (s.setObs arr n).Inv :=
  { hi with obsLen := hlen, obsSlots := hslots, obsCount := hn, obsLive := hlive }

theorem State.Inv.setStaged {s : State} {arr : List Rec} {n : Byte} (hi : s.Inv) (hlen : arr.length = s.params.maxObs)
    (hslots : ∀ r ∈ arr, r.slots.length = s.params.nSlot) (hn : n.toNat ≤ s.params.maxObs) : (s.setStaged arr n).Inv :=
  { hi with obufLen := hlen, obufSlots := hslots, stgCount := hn }

theorem zeroRecords_slots {p : Params} : ∀ r ∈ zeroRecords p, r.slots.length = p.nSlot := fun _ hr => by
  rw [eq_zero_of_mem_zeroRecords hr, Rec.zero_slots_length]

theorem State.Inv.clearStaged {s : State} {n : Byte} (hi : s.Inv) (hn : n.toNat ≤ s.params.maxObs) : (s.clearStaged n).Inv :=
  hi.setStaged (zeroRecords_length _) zeroRecords_slots hn

theorem State.Inv.setLk {s : State} {lk : List (List LkEntry)} (hi : s.Inv) (hlen : lk.length = s.params.maxSat)
    (hrows : ∀ row ∈ lk, row.length = s.params.nSlot) : (s.setLk lk).Inv := { hi with lkLen := hlen, lkRows := hrows }

theorem zeroLk_rows {p : Params} : ∀ row ∈ zeroLk p, row.length = p.nSlot := fun _ hrow => by
  rw [List.eq_of_mem_replicate hrow, List.length_replicate]

theorem State.Inv.setFreeCount {s : State} (hi : s.Inv) (n : Nat) : ({ s with freeCount := n } : State).Inv := { hi with }

/-! ## Record arrays (44_epoch_buffer.md R215) -/

/-- A count of records fits OBS_N (00_scope.md R5). -/
theorem count_toNat {p : Params} {n : Nat} (hp : p.legal = true) (hn : n ≤ p.maxObs) : (BitVec.ofNat 8 n).toNat = n := by
  obtain ⟨_, _, _, hobs, _⟩ := Params.legal_bounds hp
  exact Nat.mod_eq_of_lt (by omega)

theorem slots_of_mem_set {arr : List Rec} {n m : Nat} {r : Rec} (harr : ∀ x ∈ arr, x.slots.length = m) (hr : r.slots.length = m) :
    ∀ x ∈ arr.set n r, x.slots.length = m := fun x hx => by
  rcases List.mem_or_eq_of_mem_set hx with hmem | rfl
  · exact harr x hmem
  · exact hr

/-- One record of OBS written: it is live, and so are the others below the new count. -/
theorem State.Inv.setObsRecord {s : State} {k n : Nat} {r : Rec} (hi : s.Inv) (hn : n ≤ s.params.maxObs) (hk : k < s.params.maxObs)
    (hslots : r.slots.length = s.params.nSlot) (hr : r.sat ≠ 0 ∧ r.tv = true) (hother : ∀ i, i < n → i ≠ k → i < s.obsN.toNat) :
    (s.setObs (s.obs.set k r) (BitVec.ofNat 8 n)).Inv := by
  have hcount := count_toNat hi.params hn
  refine hi.setObs (List.length_set.trans hi.obsLen) (slots_of_mem_set hi.obsSlots hslots) (hcount.le.trans hn) (fun i hlt => ?_)
  rw [hcount] at hlt
  by_cases hik : i = k
  · subst hik
    rw [s.recAt_set_self r (hi.obsLen ▸ hk)]; exact hr
  · rw [s.recAt_set_other s.obs r hik]; exact hi.obsLive i (hother i hlt hik)

theorem State.epochCount_le (s : State) : s.epochCount ≤ s.obsN.toNat := by
  unfold State.epochCount
  split
  · exact Nat.zero_le _
  · exact le_refl _

theorem State.freshRec_slots (s : State) (sat : Byte) : (s.freshRec sat).slots.length = s.params.nSlot := Rec.zero_slots_length _

theorem Rec.qualifies_iff (r : Rec) : r.qualifies = true ↔ r.sat ≠ 0 ∧ r.tv = true := by simp [Rec.qualifies]

/-- A staged record that qualifies is one of OBUF. -/
theorem State.mem_qualifying {s : State} {r : Rec} (h : r ∈ s.qualifying) : r ∈ s.obuf ∧ r.qualifies = true := by
  obtain ⟨hmem, hq⟩ := List.mem_filter.mp h
  exact ⟨List.mem_of_mem_take hmem, hq⟩

theorem State.qualifying_length (s : State) : s.qualifying.length ≤ s.stgN.toNat :=
  (List.length_filter_le _ _).trans (List.length_take_le _ _)

/-- The flush copies live records to the front of OBS (44_epoch_buffer.md R213, R215). -/
theorem State.Inv.flushEpoch {s : State} (hi : s.Inv) : s.flushEpoch.Inv := by
  have hfit : s.qualifying.length ≤ s.params.maxObs := s.qualifying_length.trans hi.stgCount
  have hcount := count_toNat hi.params hfit
  unfold State.flushEpoch
  dsimp only
  split
  · exact hi.clearStaged (Nat.zero_le _)
  · refine (hi.setObs ?_ (fun r hr => ?_) (hcount.le.trans hfit) (fun i hlt => ?_)).clearStaged (Nat.zero_le _)
    · rw [List.length_append, List.length_drop, hi.obsLen]; omega
    · rcases List.mem_append.mp hr with hq | hold
      · exact hi.obufSlots r (State.mem_qualifying hq).1
      · exact hi.obsSlots r (List.mem_of_mem_drop hold)
    · rw [hcount] at hlt
      rw [State.recAt, List.getD_append _ _ _ _ hlt]
      exact (Rec.qualifies_iff _).mp (State.mem_qualifying (s.recAt_mem hlt)).2

/-! ## SYNC -/

theorem State.Inv.syncInv {s : State} (hi : s.Inv) : s.SyncInv := ⟨hi.bufBelow, hi.winLen, hi.sync, hi.fdec⟩

/-- While OPEN, a state that differs in SYNC and STATUS only meets the invariant if those parts of it do. -/
theorem State.Inv.of_syncOnly {s t : State} (hi : s.Inv) (hopen : s.isOpen = true) (h : SyncOnly s t)
    (hwf : Memory.wf t.buf = true) (hsync : t.SyncInv) (hck : outcomeOk t.code t.cause = true) : t.Inv := by
  obtain ⟨hbelow, hwin, hok, hfdec⟩ := hsync
  have htopen : t.isOpen = true := h.isOpen.trans hopen
  have hclosed : t.isOpen = false → t.sstate = .seeking := fun hf => by rw [htopen] at hf; cases hf
  rw [h] at hbelow hok hclosed ⊢
  exact { hi with
    bufWf := hwf, bufBelow := hbelow, winLen := hwin, closed := hclosed, sync := hok, outcome := hck, fdec := hfdec }

theorem State.Inv.feedByte {s : State} (hi : s.Inv) (hopen : s.isOpen = true) (hfree : s.sstate ≠ .complete) (b : Byte) :
    (feedByte b s).Inv :=
  hi.of_syncOnly hopen (feedByte_syncOnly b s) (feedByte_bufWf b hi.bufWf) (feedByte_syncInv b hi.syncInv hopen (hi.opened hopen))
    (feedByte_outcome b hfree).1

theorem State.Inv.feedLoop {s : State} (hi : s.Inv) (hopen : s.isOpen = true) (hfree : s.sstate ≠ .complete) (n j : Nat) :
    (feedLoop n j s).1.Inv := by
  refine (feedLoop_induction (P := fun u => u.Inv ∧ u.isOpen = true) (fun b u hu ⟨hui, huo⟩ => ?_) n j s hfree ⟨hi, hopen⟩).1
  exact ⟨hui.feedByte huo hu b, (feedByte_syncOnly b u).isOpen.trans huo⟩

/-! ## Commands -/

/-- OPEN: every array anew, and the configuration legal (40_session.md R111, R112). -/
theorem State.Inv.openEffects {s : State} (hi : s.Inv) (hlegal : s.cfgLegal = true) : s.openEffects.Inv := by
  have hopened : ({ s with isOpen := true, werr := false, sstate := .seeking, nbyte := 0, flen := 0, wcnt := 0, win := zeroWin
                           ftype := 0, fdecIdx := 0, fdecHit := false } : State).Inv :=
    { hi with
      winLen := rfl, closed := nofun, opened := fun _ => hlegal, fdec := fun _ => rfl
      sync := (State.syncOk_seeking rfl).mpr ⟨rfl, rfl, Nat.zero_le _⟩ }
  exact ((hopened.setObs (n := 0) (zeroRecords_length _) zeroRecords_slots (Nat.zero_le _)
    (fun i hlt => absurd hlt (Nat.not_lt_zero i))).clearStaged (Nat.zero_le _)).setLk
    List.length_replicate zeroLk_rows

/-- The session closes on a SYNC that waits for a frame with nothing in its window (40_session.md R114, 60_exceptions.md R263). -/
theorem State.Inv.close {s : State} (hi : s.Inv) (hseek : s.sstate = .seeking) (hcnt : s.wcnt = 0) :
    ({ s with isOpen := false } : State).Inv := by
  obtain ⟨hnbyte, hflen, _⟩ := (State.syncOk_seeking hseek).mp hi.sync
  exact { hi with
    closed := fun _ => hseek, opened := nofun
    sync := (State.syncOk_seeking (s := { s with isOpen := false }) hseek).mpr ⟨hnbyte, hflen, hcnt.le⟩ }

/-- Every effect of a command keeps the invariant. -/
theorem Effect.inv {s t : State} {i : Instr} (heff : Effect s i t) (hi : s.Inv) : t.Inv := by
  cases heff with
  | status hck => exact hi.finish hck.1
  | opened _ hlegal => exact (hi.openEffects hlegal).finish rfl
  | ended =>
    have hflush := hi.syncReset.flushEpoch
    obtain ⟨arr, n, heq⟩ := s.syncReset.flushEpoch_eq
    rw [heq] at hflush ⊢
    exact (hflush.close rfl rfl).finish s.syncReset.flushCode_outcome.1
  | flushed => exact hi.flushEpoch.finish s.flushCode_outcome.1
  | fed hopen hfree => exact hi.feedByte hopen hfree _
  | fedMany hopen hfree => exact (hi.feedLoop hopen hfree _ 0).setRes _
  | released => exact hi.syncReset.finish rfl
  | sumStarted a => exact State.Inv.finish { hi with accWidth := accOk_init a s.cfg.crc32Init } rfl
  | summed bs _ ha =>
    have hacc := hi.accWidth
    rw [ha] at hacc
    refine State.Inv.finish { hi with accWidth := ?_ } rfl
    show accOk s.cka _
    rw [ha]; exact accOk_run _ bs _ hacc
  | answered _ hck => exact (hi.setRes _).finish hck.1
  | fieldRead _ hnan hck => exact ((hi.setRes _).setFxf hnan).finish hck.1
  | recordAdded f v missing hsat hroom =>
    refine (hi.setObsRecord hroom hroom ?_ ⟨?_, ?_⟩ (fun i hlt hne => ?_)).finish rfl
    · rw [Rec.writeField_slots_length, State.freshRec_slots]
    · rw [Rec.writeField_sat]; exact hsat
    · rw [Rec.writeField_tv]; rfl
    · have := s.epochCount_le
      omega
  | recordWritten f v missing n free hlive =>
    have hle := s.epochCount_le
    have hfit := hi.obsCount
    have hold := hi.obsLive n (by omega)
    have hslots : (s.recAt s.obs n).slots.length = s.params.nSlot := hi.obsSlots _ (s.recAt_mem (by rw [hi.obsLen]; omega))
    refine ((hi.setObsRecord (by omega) (by omega) ?_ ?_ (fun i hlt _ => hlt.trans_le hle)).setFreeCount free).finish rfl
    · rw [Rec.writeField_slots_length]; exact hslots
    · rw [Rec.writeField_sat, Rec.writeField_tv]; exact hold
  | stagedCleared hn => exact (hi.clearStaged hn).finish rfl
  | stagedWritten _ hn hr =>
    have hfit := hi.stgCount
    refine (hi.setStaged (List.length_set.trans hi.obufLen) (slots_of_mem_set hi.obufSlots ?_) hfit).finish rfl
    rw [hr]; exact hi.obufSlots _ (s.recAt_mem (by rw [hi.obufLen]; omega))
  | locked e v => exact ((hi.setLk ((lkSet_length ..).trans hi.lkLen) (lkSet_rows e hi.lkRows)).setRes v).finish rfl

/-! ## Register writes (10_state.md R36, R57) -/

/-- Bits masked away are 0. -/
theorem masked_eq_zero (v : Word) {stored reserved : Word} (h : stored &&& reserved = 0) : v &&& stored &&& reserved = 0 := by
  rw [BitVec.and_assoc, h]; exact BitVec.and_zero

theorem CfgRegs.reservedZero_iff (c : CfgRegs) : c.reservedZero = true ↔
    c.syncCfg &&& 0xFFFFFFF8#32 = 0 ∧ c.syncPat1 &&& 0xFFFFFF00#32 = 0 ∧ c.lenCfg &&& 0xFFFFFFF8#32 = 0 ∧
    c.ckCfg &&& 0x0000FFE0#32 = 0 ∧ c.typeCfg &&& 0xFFE00000#32 = 0 ∧ c.frameMax &&& 0xFFFF0000#32 = 0 ∧
    c.lkCfg &&& 0xFFFFFFFE#32 = 0 ∧ c.tfValid &&& 0xFFFF0000#32 = 0 := by
  simp only [CfgRegs.reservedZero, Bool.and_eq_true, beq_iff_eq, and_assoc]

theorem CfgRegs.write_reservedZero {c : CfgRegs} (h : c.reservedZero = true) (r : Reg) (v : Word) :
    (c.write r v).reservedZero = true := by
  obtain ⟨hsync, hpat, hlen, hck, htype, hmax, hlk, htf⟩ := c.reservedZero_iff.mp h
  refine (CfgRegs.reservedZero_iff _).mpr ?_
  cases r with
  | syncCfg => exact ⟨masked_eq_zero v rfl, hpat, hlen, hck, htype, hmax, hlk, htf⟩
  | syncPat1 => exact ⟨hsync, masked_eq_zero v rfl, hlen, hck, htype, hmax, hlk, htf⟩
  | lenCfg => exact ⟨hsync, hpat, masked_eq_zero v rfl, hck, htype, hmax, hlk, htf⟩
  | ckCfg => exact ⟨hsync, hpat, hlen, masked_eq_zero v rfl, htype, hmax, hlk, htf⟩
  | typeCfg => exact ⟨hsync, hpat, hlen, hck, masked_eq_zero v rfl, hmax, hlk, htf⟩
  | frameMax => exact ⟨hsync, hpat, hlen, hck, htype, masked_eq_zero v rfl, hlk, htf⟩
  | lkCfg => exact ⟨hsync, hpat, hlen, hck, htype, hmax, masked_eq_zero v rfl, htf⟩
  | tfValid => exact ⟨hsync, hpat, hlen, hck, htype, hmax, hlk, masked_eq_zero v rfl⟩
  | _ => exact ⟨hsync, hpat, hlen, hck, htype, hmax, hlk, htf⟩

theorem CfgRegs.write_tfType_length (c : CfgRegs) (r : Reg) (v : Word) : (c.write r v).tfType.length = c.tfType.length := by
  cases r with
  | tfType j => exact List.length_set
  | _ => rfl

/-- While CLOSED no bound of SYNC reads the configuration. -/
theorem State.Inv.writeCfg {s : State} (hi : s.Inv) (hclosed : s.isOpen = false) (r : Reg) (v : Word) :
    ({ s with cfg := s.cfg.write r v } : State).Inv := by
  have hseek := hi.closed hclosed
  obtain ⟨hnbyte, hflen, hcnt⟩ := (State.syncOk_seeking hseek).mp hi.sync
  rw [if_neg (by simp [hclosed])] at hcnt
  exact { hi with
    tfLen := (s.cfg.write_tfType_length r v).trans hi.tfLen
    reserved := CfgRegs.write_reservedZero hi.reserved r v
    opened := fun hopen => by rw [show s.isOpen = true from hopen] at hclosed; cases hclosed
    sync := (State.syncOk_seeking (s := { s with cfg := s.cfg.write r v }) hseek).mpr ⟨hnbyte, hflen, hcnt.trans (Nat.zero_le _)⟩ }

theorem State.Inv.regWrite {s : State} (hi : s.Inv) (r : Reg) (v : Word) : (s.regWrite r v).Inv := by
  rcases s.regWrite_cases r v with ⟨a0, a1, lo, hi', h⟩ | h
  · rw [h]; exact { hi with }
  · rcases s.cfgWrite_cases r v with ⟨_, hc⟩ | ⟨hclosed, hc⟩ <;> rw [h, hc]
    · exact { hi with }
    · exact hi.writeCfg hclosed r v

/-! ## Reset (70_reset_and_hazards.md R290) -/

/-- The reserved bits of FRAME_MAX are 0 in any length of BUF (00_scope.md R5). -/
theorem ofNat_and_high {n : Nat} (h : n < 2 ^ 16) : BitVec.ofNat 32 n &&& 0xFFFF0000#32 = 0 := by
  have hlow : ∀ i < 16, (0xFFFF0000#32).getLsbD i = false := by decide
  have hn : (BitVec.ofNat 32 n).toNat < 2 ^ 16 := (Nat.mod_le _ _).trans_lt h
  refine BitVec.eq_of_getLsbD_eq fun i _ => ?_
  rw [BitVec.getLsbD_and]
  rcases Nat.lt_or_ge i 16 with hi | hi
  · rw [hlow i hi, Bool.and_false]; exact BitVec.getLsbD_zero.symm
  · rw [getLsbD_of_toNat_lt hn hi, Bool.false_and]; exact BitVec.getLsbD_zero.symm

/-- The reset state of legal parameters meets the invariant after reset. -/
theorem State.resetOf_inv {p : Params} (hp : p.legal = true) : (State.resetOf p).Inv where
  params := hp
  bufWf := rfl
  bufBelow := rfl
  winLen := rfl
  obsLen := zeroRecords_length p
  obsSlots := zeroRecords_slots
  obufLen := zeroRecords_length p
  obufSlots := zeroRecords_slots
  obsCount := Nat.zero_le _
  stgCount := Nat.zero_le _
  obsLive := fun i hlt => absurd hlt (Nat.not_lt_zero i)
  lkLen := List.length_replicate
  lkRows := zeroLk_rows
  tfLen := List.length_replicate
  reserved := by
    obtain ⟨_, hbuf, _⟩ := Params.legal_bounds hp
    exact (CfgRegs.reservedZero_iff _).mpr ⟨BitVec.zero_and, BitVec.zero_and, BitVec.zero_and, BitVec.zero_and, BitVec.zero_and,
      ofNat_and_high (by omega), BitVec.zero_and, BitVec.zero_and⟩
  closed := fun _ => rfl
  opened := nofun
  sync := (State.syncOk_seeking rfl).mpr ⟨rfl, rfl, Nat.zero_le _⟩
  accWidth := rfl
  outcome := rfl
  fdec := fun _ => rfl
  fxf := nofun

theorem State.Inv.hardwareReset {s : State} (hi : s.Inv) : s.hardwareReset.Inv := { State.resetOf_inv hi.params with }

/-! ## Every step -/

/-- Settles O13: the queue is no part of the invariant; the reset, the register writes and the effects of commands keep it. -/
theorem stepKeepsTheInvariant : Obligations.StepKeepsTheInvariant := fun _ _ hs h =>
  step_keeps (P := State.Inv) (fun _ _ _ hi => { hi with }) (fun _ hi => hi.hardwareReset) (fun _ r v hi => hi.regWrite r v)
    (fun _ _ _ heff hi => heff.inv hi) hs h

end Sys2Proof.Machine
end

section
/-! The internal spaces BUF, OBS, OBUF and LK (20_memory.md R71): space by space, the commands whose effect may change it. -/

namespace Sys2Proof.Machine

/-- The two commands that write a staged record (44_epoch_buffer.md R209, R211). -/
theorem Instr.stagedWriter {i : Instr} (h : i.opcode ∈ [Opcode.stgSat, .stgWr]) :
    (∃ idx sat, i = .stgSat idx sat) ∨ ∃ src m fld slot idx, i = .stgWr src m fld slot idx := by
  cases i with
  | stgSat idx sat => exact .inl ⟨idx, sat, rfl⟩
  | stgWr src m fld slot idx => exact .inr ⟨src, m, fld, slot, idx, rfl⟩
  | _ => simp [Instr.opcode] at h

/-- BUF (10_state.md R49). -/
theorem Effect.buf {s t : State} {i : Instr} (h : Effect s i t) :
    ((∃ b, i = .feed b) ∨ ∃ n, i = .feedn n) ∨ t.buf = s.buf := by
  cases h with
  | fed => exact .inl (.inl ⟨_, rfl⟩)
  | fedMany => exact .inl (.inr ⟨_, rfl⟩)
  | opened => rw [State.openEffects_eq]; exact .inr rfl
  | ended => obtain ⟨arr, n, heq⟩ := s.syncReset.flushEpoch_eq; rw [heq]; exact .inr rfl
  | flushed => obtain ⟨arr, n, heq⟩ := s.flushEpoch_eq; rw [heq]; exact .inr rfl
  | _ => exact .inr rfl

/-- OBS and OBS_N (10_state.md R52). -/
theorem Effect.obs {s t : State} {i : Instr} (h : Effect s i t) :
    ((∃ src m fld slot sat, i = .obsDwr src m fld slot sat) ∨ i = .flush ∨ i = .eoi ∨ i = .openSession) ∨
      (t.obs = s.obs ∧ t.obsN = s.obsN) := by
  cases h with
  | recordAdded | recordWritten => exact .inl (.inl ⟨_, _, _, _, _, rfl⟩)
  | flushed => exact .inl (.inr (.inl rfl))
  | ended => exact .inl (.inr (.inr (.inl rfl)))
  | opened => exact .inl (.inr (.inr (.inr rfl)))
  | fed => rw [feedByte_syncOnly _ s]; exact .inr ⟨rfl, rfl⟩
  | fedMany => rw [feedLoop_syncOnly _ 0 s]; exact .inr ⟨rfl, rfl⟩
  | _ => exact .inr ⟨rfl, rfl⟩

/-- OBUF and STG_N (10_state.md R53). -/
theorem Effect.staged {s t : State} {i : Instr} (h : Effect s i t) :
    ((∃ n, i = .stgCnt n) ∨ (∃ idx sat, i = .stgSat idx sat) ∨ (∃ src m fld slot idx, i = .stgWr src m fld slot idx) ∨
      i = .flush ∨ i = .eoi ∨ i = .openSession) ∨ (t.obuf = s.obuf ∧ t.stgN = s.stgN) := by
  cases h with
  | stagedCleared => exact .inl (.inl ⟨_, rfl⟩)
  | stagedWritten hi =>
    rcases Instr.stagedWriter hi with hsat | hwr
    · exact .inl (.inr (.inl hsat))
    · exact .inl (.inr (.inr (.inl hwr)))
  | flushed => exact .inl (.inr (.inr (.inr (.inl rfl))))
  | ended => exact .inl (.inr (.inr (.inr (.inr (.inl rfl)))))
  | opened => exact .inl (.inr (.inr (.inr (.inr (.inr rfl)))))
  | fed => rw [feedByte_syncOnly _ s]; exact .inr ⟨rfl, rfl⟩
  | fedMany => rw [feedLoop_syncOnly _ 0 s]; exact .inr ⟨rfl, rfl⟩
  | _ => exact .inr ⟨rfl, rfl⟩

/-- LK (10_state.md R54): the flush leaves it. -/
theorem Effect.lk {s t : State} {i : Instr} (h : Effect s i t) :
    ((∃ c h hc slot sat, i = .lkUpd c h hc slot sat) ∨ i = .openSession) ∨ t.lk = s.lk := by
  cases h with
  | locked => exact .inl (.inl ⟨_, _, _, _, _, rfl⟩)
  | opened => exact .inl (.inr rfl)
  | ended => obtain ⟨arr, n, heq⟩ := s.syncReset.flushEpoch_eq; rw [heq]; exact .inr rfl
  | flushed => obtain ⟨arr, n, heq⟩ := s.flushEpoch_eq; rw [heq]; exact .inr rfl
  | fed => rw [feedByte_syncOnly _ s]; exact .inr rfl
  | fedMany => rw [feedLoop_syncOnly _ 0 s]; exact .inr rfl
  | _ => exact .inr rfl

/-- Settles O21: space by space, an effect that changes it is that of a listed command. -/
theorem onlyListedCommandsWriteTheInternalSpaces : Obligations.OnlyListedCommandsWriteTheInternalSpaces := by
  intro i s t h
  have heff := exec_effect h
  refine ⟨?_, fun hne => heff.obs.resolve_right ?_, fun hne => heff.staged.resolve_right ?_, heff.lk.resolve_right⟩
  · rintro ⟨a, hne⟩
    exact heff.buf.resolve_right fun heq => hne (by rw [heq])
  · tauto
  · tauto

end Sys2Proof.Machine
end

section
/-! A transaction against the 512-byte window at FSS_BASE (20_memory.md R70; log 6). -/

namespace Sys2Proof.Machine

theorem Params.offset_inside {p : Params} {addr : Nat} (hlo : p.fssBase ≤ addr) (hhi : addr < p.fssBase + windowBytes) :
    Params.offset p addr = some (addr - p.fssBase) := if_pos ⟨hlo, hhi⟩

theorem Params.offset_outside {p : Params} {addr : Nat} (h : addr < p.fssBase ∨ p.fssBase + windowBytes ≤ addr) :
    Params.offset p addr = none := if_neg (by omega)

theorem State.perform_read {s : State} {addr off : Nat} (h : Params.offset s.params addr = some off) (width : Nat) :
    s.perform (.read addr width) = .next { s with reply := some (s.busRead off width) } := by
  simp only [State.perform, h]

theorem State.perform_write {s : State} {addr off : Nat} (h : Params.offset s.params addr = some off) (width : Nat) (v : Word) :
    s.perform (.write addr width v) = s.busWrite off width v := by
  simp only [State.perform, h]

theorem State.perform_read_outside {s : State} {addr : Nat} (h : Params.offset s.params addr = none) (width : Nat) :
    s.perform (.read addr width) = .fault .outsideWindow := by
  simp only [State.perform, h]

theorem State.perform_write_outside {s : State} {addr : Nat} (h : Params.offset s.params addr = none) (width : Nat) (v : Word) :
    s.perform (.write addr width v) = .fault .outsideWindow := by
  simp only [State.perform, h]

/-- Settles O11: the step takes the transaction, whose address has an offset exactly inside the window. -/
theorem transactionsReachTheWindowOnly : Obligations.TransactionsReachTheWindowOnly := by
  intro s addr width v rest u
  refine ⟨fun hlo hhi => ?_, fun hout hbus => ?_⟩
  · have hoff : Params.offset u.params addr = some (addr - s.params.fssBase) := Params.offset_inside hlo hhi
    exact ⟨fun hbus => (step_of_bus_cons hbus).trans (State.perform_read hoff width),
      fun hbus => (step_of_bus_cons hbus).trans (State.perform_write hoff width v)⟩
  · have hoff : Params.offset u.params addr = none := Params.offset_outside hout
    rcases hbus with hbus | hbus
    · exact (step_of_bus_cons hbus).trans (State.perform_read_outside hoff width)
    · exact (step_of_bus_cons hbus).trans (State.perform_write_outside hoff width v)

end Sys2Proof.Machine
end

section
/-! Decoding and encoding of a command word (30_encoding.md R90 to R94): both are the relation `HoldsCommand` between the bits of a word
and a command, so each is the inverse of the other on the well-formed commands. -/

namespace Sys2Proof

open Sys2Proof.Laws

/-! ### Opcode numbers (30_encoding.md R93) -/

/-- No two rows of the opcode map have one number (30_encoding.md R93). -/
theorem Opcode.ofBits_bits (o : Opcode) : Opcode.ofBits o.bits = some o := by cases o <;> rfl

theorem Opcode.ofBits_eq_some_iff {b : BitVec 6} {o : Opcode} : Opcode.ofBits b = some o ↔ o.bits = b := by
  refine ⟨fun h => ?_, fun h => h ▸ o.ofBits_bits⟩
  simpa using List.find?_some h

/-! ### Operands and the bits of their fields (30_encoding.md R92) -/

@[simp] theorem Endian.bit_ofBit (b : Bool) : (Endian.ofBit b).bit = b := by cases b <;> rfl
@[simp] theorem Endian.ofBit_bit (e : Endian) : Endian.ofBit e.bit = e := by cases e <;> rfl
@[simp] theorem Source.bit_ofBit (b : Bool) : (Source.ofBit b).bit = b := by cases b <;> rfl
@[simp] theorem Source.ofBit_bit (s : Source) : Source.ofBit s.bit = s := by cases s <;> rfl
@[simp] theorem SentMode.bits_ofBits (b : BitVec 2) : (SentMode.ofBits b).bits = b := by revert b; decide
@[simp] theorem SentMode.ofBits_bits (m : SentMode) : SentMode.ofBits m.bits = m := by cases m <;> rfl

/-- A flag is the one-bit field at its place. -/
theorem flagBit_toNat (w : Word) (i : Nat) : (flagBit w i).toNat = (field w i 1).toNat := by
  rw [field_toNat, flagBit, BitVec.getLsbD, Nat.toNat_testBit, pow_one]

theorem toNat_field_one_eq_iff {w : Word} {i : Nat} {b : Bool} : (field w i 1).toNat = b.toNat ↔ flagBit w i = b := by
  rw [← flagBit_toNat]
  cases flagBit w i <;> cases b <;> decide

/-- The operand fields of an opcode's format, highest first, each as (lowest bit, number of bits): what `Opcode.reserved` leaves of
w[25:0] (30_encoding.md R91). -/
def Opcode.layout : Opcode → List (Nat × Nat)
  | .nop | .openSession | .eoi | .release | .ckFin | .flush => []
  | .feed | .stgCnt | .stgChk => [(0, 8)]
  | .feedn | .ckUpd => [(0, 3)]
  | .ckInit => [(3, 1), (0, 3)]
  | .ckFrm => [(0, 16)]
  | .fxU | .fxS => [(25, 1), (23, 2), (16, 3), (0, 16)]
  | .fxF32 | .fxF64 => [(25, 1), (23, 2), (0, 16)]
  | .obsDwr => [(25, 1), (24, 1), (20, 4), (16, 4), (0, 8)]
  | .stgWr => [(25, 1), (24, 1), (20, 4), (16, 4), (8, 8)]
  | .obsRd | .stgRd => [(20, 4), (16, 4), (8, 8)]
  | .stgSat => [(8, 8), (0, 8)]
  | .lkUpd => [(25, 1), (24, 1), (23, 1), (16, 4), (0, 8)]
  | .lkRd => [(20, 4), (16, 4), (0, 8)]

/-- What a word holds in a list of ranges, in the form of `Instr.fields`. -/
def readFields (w : Word) (l : List (Nat × Nat)) : List (Nat × Nat) := l.map fun r => (r.1, (field w r.1 r.2).toNat)

@[simp] theorem readFields_nil (w : Word) : readFields w [] = [] := rfl
@[simp] theorem readFields_cons (w : Word) (lo n : Nat) (l : List (Nat × Nat)) :
    readFields w ((lo, n) :: l) = (lo, (field w lo n).toNat) :: readFields w l := rfl
theorem readFields_append (w : Word) (l k : List (Nat × Nat)) : readFields w (l ++ k) = readFields w l ++ readFields w k :=
  List.map_append

@[simp] theorem Opcode.opcode_operands (o : Opcode) (w : Word) : (o.operands w).opcode = o := by cases o <;> rfl

/-- Operand assembly reads the fields of the opcode's format, and nothing is lost on the way through the operands' own types. -/
theorem Opcode.fields_operands (o : Opcode) (w : Word) : (o.operands w).fields = readFields w o.layout := by
  cases o <;> simp [Opcode.operands, Instr.fields, Opcode.layout, flagBit_toNat]

/-- A command is determined by its opcode and the values of its fields. -/
theorem Opcode.operands_eq_of_fields {w : Word} {i : Instr} (h : readFields w i.opcode.layout = i.fields) :
    i.opcode.operands w = i := by
  cases i <;>
    simp_all [Instr.fields, Instr.opcode, Opcode.layout, Opcode.operands, toNat_field_one_eq_iff, BitVec.toNat_inj]

/-! ### The decoder and the encoder, each by the bits of the word -/

/-- A word is a command's word by its bits: its opcode in w[31:26], every reserved range zero, and its operands in the fields of the
format (30_encoding.md R90 to R92). -/
structure HoldsCommand (w : Word) (i : Instr) : Prop where
  opcode : field w 26 6 = i.opcode.bits
  reserved : reservedClear i.opcode w = true
  fields : readFields w i.opcode.layout = i.fields

theorem decode_eq_ok_iff {w : Word} {i : Instr} : decode w = .ok i ↔ HoldsCommand w i ∧ i.wf = true := by
  constructor
  · intro h
    simp only [decode] at h
    split at h
    · cases h
    · next o ho =>
      split at h
      · next hr =>
        split at h
        · next hwf =>
          cases h
          have hop := Opcode.ofBits_eq_some_iff.mp ho
          refine ⟨⟨?_, ?_, ?_⟩, hwf⟩
          · rw [o.opcode_operands, hop]
          · rwa [o.opcode_operands]
          · rw [o.opcode_operands, o.fields_operands]
        · cases h
      · cases h
  · rintro ⟨⟨hop, hres, hf⟩, hwf⟩
    have ho : Opcode.ofBits (field w 26 6) = some i.opcode := Opcode.ofBits_eq_some_iff.mpr hop.symm
    simp only [decode, ho, if_pos hres, Opcode.operands_eq_of_fields hf, if_pos hwf]

/-- The values `fs` stand in the ranges `ls`, which lie one below the other under `top`, and each value fits its range. -/
def FieldsFit : List (Nat × Nat) → List (Nat × Nat) → Nat → Prop
  | [], [], _ => True
  | (lo, n) :: ls, (lo', v) :: fs, top => lo' = lo ∧ lo + n ≤ top ∧ v < 2 ^ n ∧ FieldsFit ls fs lo
  | _, _, _ => False

/-- The fields of every command fit the ranges of its format. -/
theorem Instr.fieldsFit (i : Instr) : FieldsFit i.opcode.layout i.fields 26 := by
  have hflag (b : Bool) : b.toNat < 2 ^ 1 := b.toNat_lt
  cases i <;>
    simp only [Instr.opcode, Opcode.layout, Instr.fields, FieldsFit, BitVec.isLt, hflag, Nat.reduceAdd, Nat.reduceLeDiff, and_self]

/-- Fields that fit below a bit place a number below that bit. -/
theorem placeFields_lt_of_fieldsFit {ls fs : List (Nat × Nat)} {top : Nat} (h : FieldsFit ls fs top) :
    placeFields fs < 2 ^ top := by
  fun_induction FieldsFit ls fs top with
  | case1 => exact Nat.two_pow_pos _
  | case2 lo n ls lo' v fs top ih =>
    obtain ⟨rfl, htop, hv, hrest⟩ := h
    calc v * 2 ^ lo' + placeFields fs
        < v * 2 ^ lo' + 2 ^ lo' := by have := ih hrest; omega
      _ = (v + 1) * 2 ^ lo' := by ring
      _ ≤ 2 ^ n * 2 ^ lo' := Nat.mul_le_mul_right _ hv
      _ = 2 ^ (lo' + n) := by rw [pow_add, mul_comm]
      _ ≤ 2 ^ top := Nat.pow_le_pow_right (by decide) htop
  | case3 => exact h.elim

/-- Values placed in ranges that they fit are read back from those ranges, whatever stands above. -/
theorem read_placeFields {ls fs : List (Nat × Nat)} {top : Nat} (h : FieldsFit ls fs top) (c : Nat) :
    ls.map (fun r => (r.1, (c * 2 ^ top + placeFields fs) / 2 ^ r.1 % 2 ^ r.2)) = fs := by
  fun_induction FieldsFit ls fs top generalizing c with
  | case1 => rfl
  | case2 lo n ls lo' v fs top ih =>
    obtain ⟨rfl, htop, hv, hrest⟩ := h
    obtain ⟨k, rfl⟩ := Nat.exists_eq_add_of_le htop
    have hword : c * 2 ^ (lo' + n + k) + placeFields ((lo', v) :: fs) =
        (c * 2 ^ k * 2 ^ n + v) * 2 ^ lo' + placeFields fs := by
      simp only [placeFields, pow_add]; ring
    have hhead : ((c * 2 ^ k * 2 ^ n + v) * 2 ^ lo' + placeFields fs) / 2 ^ lo' % 2 ^ n = v := by
      rw [mul_comm, Nat.mul_add_div (Nat.two_pow_pos _), Nat.div_eq_of_lt (placeFields_lt_of_fieldsFit hrest), add_zero, mul_comm,
        Nat.mul_add_mod, Nat.mod_eq_of_lt hv]
    rw [hword, List.map_cons, hhead, ih hrest]
  | case3 => exact h.elim

/-- The lemmas of Laws/PerInstr, one per command, as one rule about `encode`. -/
theorem encodedOpcode_statement : ∀ i : Instr, EncodedOpcode.Statement i
  | .nop => EncodedOpcode.nop
  | .openSession => EncodedOpcode.openSession
  | .eoi => EncodedOpcode.eoi
  | .feed b => EncodedOpcode.feed b
  | .feedn c => EncodedOpcode.feedn c
  | .release => EncodedOpcode.release
  | .ckInit f a => EncodedOpcode.ckInit f a
  | .ckUpd c => EncodedOpcode.ckUpd c
  | .ckFin => EncodedOpcode.ckFin
  | .ckFrm o => EncodedOpcode.ckFrm o
  | .fxU e m w o => EncodedOpcode.fxU e m w o
  | .fxS e m w o => EncodedOpcode.fxS e m w o
  | .fxF32 e m o => EncodedOpcode.fxF32 e m o
  | .fxF64 e m o => EncodedOpcode.fxF64 e m o
  | .obsDwr s m f l a => EncodedOpcode.obsDwr s m f l a
  | .obsRd f l x => EncodedOpcode.obsRd f l x
  | .stgCnt n => EncodedOpcode.stgCnt n
  | .stgSat x a => EncodedOpcode.stgSat x a
  | .stgChk n => EncodedOpcode.stgChk n
  | .stgWr s m f l x => EncodedOpcode.stgWr s m f l x
  | .stgRd f l x => EncodedOpcode.stgRd f l x
  | .flush => EncodedOpcode.flush
  | .lkUpd c h k l a => EncodedOpcode.lkUpd c h k l a
  | .lkRd t l a => EncodedOpcode.lkRd t l a

/-- Encoding puts every bit where the decoder reads it. -/
theorem holdsCommand_encode (i : Instr) : HoldsCommand (encode i) i := by
  obtain ⟨hop, hres⟩ := encodedOpcode_statement i
  refine ⟨hop, hres, ?_⟩
  simp only [readFields, field_toNat, encode_toNat i (placeFields_lt_of_fieldsFit i.fieldsFit)]
  exact read_placeFields i.fieldsFit _

/-! ### The ranges of a format leave no bit of w[25:0] out (30_encoding.md R91) -/

/-- The ranges lie one below the other with no gap, from `top` down to bit 0. -/
def tiles : List (Nat × Nat) → Nat → Bool
  | [], top => top == 0
  | (lo, n) :: rest, top => lo + n == top && tiles rest lo

/-- The operand fields and the reserved ranges of an opcode, highest first. -/
def Opcode.ranges (o : Opcode) : List (Nat × Nat) := (o.layout ++ o.reserved).insertionSort fun a b => b.1 ≤ a.1

theorem Opcode.ranges_perm (o : Opcode) : o.ranges.Perm (o.layout ++ o.reserved) := List.perm_insertionSort _ _

theorem Opcode.tiles_ranges (o : Opcode) : tiles o.ranges 26 = true := by cases o <;> rfl

/-- Reading every range of a tiling and placing what was read gives the number below the tiling's top. -/
theorem placeFields_read_of_tiles (w : Word) {l : List (Nat × Nat)} {top : Nat} (h : tiles l top = true) :
    placeFields (readFields w l) = w.toNat % 2 ^ top := by
  fun_induction tiles l top with
  | case1 top =>
    obtain rfl : top = 0 := by simpa using h
    simp [placeFields, Nat.mod_one]
  | case2 lo n rest top ih =>
    obtain ⟨rfl, hrest⟩ : lo + n = top ∧ tiles rest lo = true := by simpa using h
    rw [readFields_cons, placeFields, ih hrest, field_toNat, pow_add, Nat.mod_mul]
    ring

theorem placeFields_eq_sum (fs : List (Nat × Nat)) : placeFields fs = (fs.map fun f => f.2 * 2 ^ f.1).sum := by
  induction fs with
  | nil => rfl
  | cons f fs ih => rw [placeFields, ih, List.map_cons, List.sum_cons]

/-- A word with no reserved bit set keeps all of w[25:0] in its operand fields. -/
theorem placeFields_layout_of_reservedClear {o : Opcode} {w : Word} (h : reservedClear o w = true) :
    placeFields (readFields w o.layout) = w.toNat % 2 ^ 26 := by
  have hzero : placeFields (readFields w o.reserved) = 0 := by
    rw [placeFields_eq_sum, List.sum_eq_zero_iff]
    simp only [reservedClear, List.all_eq_true, beq_iff_eq] at h
    simp only [readFields, List.map_map, List.mem_map, Function.comp]
    rintro _ ⟨r, hr, rfl⟩
    rw [h r hr, zero_mul]
  calc placeFields (readFields w o.layout)
      = placeFields (readFields w o.layout) + placeFields (readFields w o.reserved) := by rw [hzero, add_zero]
    _ = placeFields (readFields w (o.layout ++ o.reserved)) := by
        simp only [readFields_append, placeFields_eq_sum, List.map_append, List.sum_append]
    _ = placeFields (readFields w o.ranges) := by
        simp only [placeFields_eq_sum]
        exact (((o.ranges_perm.symm).map _).map _).sum_eq
    _ = w.toNat % 2 ^ 26 := placeFields_read_of_tiles w o.tiles_ranges

/-- `encode` gives the one word that holds the command. -/
theorem encode_eq_iff_holdsCommand {w : Word} {i : Instr} : encode i = w ↔ HoldsCommand w i := by
  constructor
  · rintro rfl
    exact holdsCommand_encode i
  · rintro ⟨hop, hres, hf⟩
    have hlow : placeFields i.fields = w.toNat % 2 ^ 26 := hf ▸ placeFields_layout_of_reservedClear hres
    have hhigh : i.opcode.bits.toNat = w.toNat / 2 ^ 26 % 2 ^ 6 := by rw [← hop, field_toNat]
    apply BitVec.eq_of_toNat_eq
    rw [encode_toNat i (placeFields_lt_of_fieldsFit i.fieldsFit), hlow, hhigh]
    have := w.isLt
    omega

/-- Decoder and encoder are inverse to each other on the well-formed commands (30_encoding.md R94). -/
theorem decode_eq_ok_iff_encode {w : Word} {i : Instr} : decode w = .ok i ↔ encode i = w ∧ i.wf = true := by
  rw [decode_eq_ok_iff, encode_eq_iff_holdsCommand]

/-- Settles O1: a well-formed command is what its own word decodes to, since that word holds it. -/
theorem decodeOfEncodeIsTheCommand : Obligations.DecodeOfEncodeIsTheCommand :=
  fun _ hwf => decode_eq_ok_iff_encode.mpr ⟨rfl, hwf⟩

/-- Settles O2: a word that decodes holds the command, and `encode` gives the one word that does. -/
theorem encodeOfDecodeIsTheWord : Obligations.EncodeOfDecodeIsTheWord :=
  fun _ _ h => decode_eq_ok_iff_encode.mp h

/-- Settles O5: the first four words are the encodings of their commands; the fifth has the opcode of FEEDN and CNT = 5. -/
theorem wordsOfTheSpecDecode : Obligations.WordsOfTheSpecDecode := by
  refine ⟨?feed, ?fxS, ?obsDwr, ?lkUpd, ?cnt⟩
  case cnt => decide
  all_goals exact decode_eq_ok_iff_encode.mpr (by decide)

end Sys2Proof
end

section
/-! What the decoder refuses, and the masks of the opcode map (30_encoding.md R93 to R95). -/

namespace Sys2Proof

open Sys2Proof.Laws Sys2Proof.Machine

theorem decode_eq_badOpcode_iff {w : Word} : decode w = .error .badOpcode ↔ Opcode.ofBits (field w 26 6) = none := by
  simp only [decode]
  split
  · next h => simp [h]
  · next o h =>
    rw [h]
    split
    · split <;> simp
    · simp

/-- The gaps of the opcode map (30_encoding.md R95). -/
theorem Opcode.ofBits_eq_none_iff : ∀ b : BitVec 6, Opcode.ofBits b = none ↔
    (b.toNat = 0x03 ∨ b.toNat = 0x07 ∨ (0x0C ≤ b.toNat ∧ b.toNat ≤ 0x0F) ∨ (0x14 ≤ b.toNat ∧ b.toNat ≤ 0x17) ∨
      0x22 ≤ b.toNat) := by
  decide

theorem opcodeField_toNat (w : Word) : (field w 26 6).toNat = w.toNat / 2 ^ 26 := by
  have := w.isLt
  rw [field_toNat]
  omega

/-- Settles O4: only check 1 of the decoder answers BAD_OPCODE. -/
theorem unassignedOpcodesAreBadOpcode : Obligations.UnassignedOpcodesAreBadOpcode := by
  intro w
  rw [decode_eq_badOpcode_iff, Opcode.ofBits_eq_none_iff, opcodeField_toNat]

/-! ### The mask and match columns -/

/-- `v` at bits lo+n-1 down to lo of a word, zeros elsewhere. -/
def wordAt (lo : Nat) {n : Nat} (v : BitVec n) : Word := v.setWidth 32 <<< lo

/-- The word with ones in the `n` bits from `lo` up. -/
def rangeMask (lo n : Nat) : Word := wordAt lo (BitVec.allOnes n)

/-- The zero mask of a list of reserved ranges (30_encoding.md R93). -/
def zeroMask (l : List (Nat × Nat)) : Word := l.foldr (fun r z => rangeMask r.1 r.2 ||| z) 0#32

@[simp] theorem zeroMask_nil : zeroMask [] = 0#32 := rfl
theorem zeroMask_cons (r : Nat × Nat) (l : List (Nat × Nat)) : zeroMask (r :: l) = rangeMask r.1 r.2 ||| zeroMask l := rfl

/-- Under the mask of a range, a word keeps what it holds there and nothing else. -/
theorem and_rangeMask (w : Word) (lo n : Nat) : w &&& rangeMask lo n = wordAt lo (field w lo n) := by
  ext i hi
  simp only [rangeMask, wordAt, field, BitVec.getElem_and, BitVec.getElem_shiftLeft, BitVec.getElem_setWidth,
    BitVec.getLsbD_allOnes, BitVec.getLsbD_extractLsb']
  by_cases hlo : i < lo
  · simp [hlo]
  · have hback : lo + (i - lo) = i := by omega
    simp [hlo, hback, BitVec.getLsbD_eq_getElem hi, Bool.and_comm]

theorem field_wordAt {lo n : Nat} (h : lo + n ≤ 32) (v : BitVec n) : field (wordAt lo v) lo n = v := by
  ext i hi
  have hword : lo + i < 32 := by omega
  simp [field, wordAt, hword, hi]

theorem wordAt_inj {lo n : Nat} (h : lo + n ≤ 32) {u v : BitVec n} : wordAt lo u = wordAt lo v ↔ u = v :=
  ⟨fun he => by rw [← field_wordAt h u, he, field_wordAt h], congrArg (wordAt lo)⟩

theorem and_zeroMask_eq_zero_iff {w : Word} {l : List (Nat × Nat)} (h : ∀ r ∈ l, r.1 + r.2 ≤ 32) :
    w &&& zeroMask l = 0#32 ↔ ∀ r ∈ l, field w r.1 r.2 = 0#r.2 := by
  induction l with
  | nil => simp
  | cons r l ih =>
    have hr : w &&& rangeMask r.1 r.2 = 0#32 ↔ field w r.1 r.2 = 0#r.2 := by
      rw [and_rangeMask, ← wordAt_inj (h r List.mem_cons_self)]
      simp [wordAt]
    rw [zeroMask_cons, BitVec.and_or_distrib_left, BitVec.or_eq_zero_iff, hr, ih fun x hx => h x (List.mem_cons_of_mem _ hx),
      List.forall_mem_cons]

theorem reservedClear_iff_zeroMask {o : Opcode} {w : Word} : reservedClear o w = true ↔ w &&& zeroMask o.reserved = 0#32 := by
  have hfits : ∀ r ∈ o.reserved, r.1 + r.2 ≤ 32 := by cases o <;> decide
  rw [and_zeroMask_eq_zero_iff hfits]
  simp [reservedClear, ← BitVec.toNat_inj]

/-- The match and mask columns are made from the opcode and the reserved ranges as 30_encoding.md R93 says. -/
theorem opcodeRows_columns : ∀ row ∈ opcodeRows,
    row.2.1 = wordAt 26 row.1.bits ∧ row.2.2 = rangeMask 26 6 ||| zeroMask row.1.reserved := by decide

/-- No reserved range reaches into the opcode. -/
theorem Opcode.rangeMask_and_zeroMask (o : Opcode) : rangeMask 26 6 &&& zeroMask o.reserved = 0#32 := by cases o <;> decide

/-- Under two masks with no bit in common, a word has a value that lies under the first exactly when it has it under the first
and is zero under the second. -/
theorem and_or_eq_iff_of_disjoint {w a b m : Word} (hab : a &&& b = 0#32) (hm : m &&& a = m) :
    w &&& (a ||| b) = m ↔ w &&& a = m ∧ w &&& b = 0#32 := by
  have hba : b &&& a = 0#32 := BitVec.and_comm b a ▸ hab
  rw [BitVec.and_or_distrib_left]
  constructor
  · rintro rfl
    have ha : w &&& a = w &&& a ||| w &&& b := by
      simpa [BitVec.and_or_distrib_right, BitVec.and_assoc, hba] using hm
    refine ⟨ha, ?_⟩
    have hb := congrArg (· &&& b) ha
    simpa [BitVec.and_or_distrib_right, BitVec.and_assoc, hab] using hb.symm
  · rintro ⟨ha, hb⟩
    rw [ha, hb, BitVec.or_zero]

/-- Settles O3: the mask is that of w[31:26] with the zero mask, so the two conditions separate. -/
theorem maskAndMatchSelectTheOpcode : Obligations.MaskAndMatchSelectTheOpcode := by
  intro o m k hrow w
  obtain ⟨hmatch, hmask⟩ : m = wordAt 26 o.bits ∧ k = rangeMask 26 6 ||| zeroMask o.reserved := opcodeRows_columns _ hrow
  have hm : wordAt 26 o.bits &&& rangeMask 26 6 = wordAt 26 o.bits := by rw [and_rangeMask, field_wordAt (by decide)]
  rw [hmatch, hmask, and_or_eq_iff_of_disjoint o.rangeMask_and_zeroMask hm, and_rangeMask, wordAt_inj (by decide),
    reservedClear_iff_zeroMask, Opcode.ofBits_eq_some_iff, eq_comm (a := field w 26 6)]

end Sys2Proof
end

section
/-! The session commands NOP, OPEN and EOI (40_session.md): what each answers in each state, the configuration check as a proposition, and
what a flush leaves of the record arrays. -/

namespace Sys2Proof.Machine

/-! ## NOP (40_session.md R110) -/

theorem exec_nop (s : State) : exec .nop s = .next (s.finish .ok .none) := rfl

/-- Settles O23: NOP's arm of `exec`, and the word that encodes it. -/
theorem nopFinishesOk : Obligations.NopFinishesOk :=
  ⟨exec_nop, decode_eq_ok_iff_encode.mpr (by decide)⟩

/-! ## The configuration check (40_session.md R111) -/

theorem State.cfgLegal_iff (s : State) : s.cfgLegal = true ↔
    1 ≤ s.syncLen ∧ s.syncLen ≤ 5 ∧ s.lenEnc ≤ 4 ∧ s.syncLen ≤ s.lenOff ∧ s.lenOff + lenWidth s.lenEnc ≤ s.hdrLen ∧
    s.ckAlgNum ≤ 5 ∧ (s.ckIncl.toNat = 0 ∨ s.ckAlgNum = 2 ∨ s.ckAlgNum = 5) ∧ s.ckStart ≤ s.hdrLen ∧ s.typeW ≤ 4 ∧
    (s.typeW = 0 ∨ s.typeOff + s.typeW ≤ s.hdrLen) ∧ s.hdrLen + 1 + s.trl ≤ s.frameMax ∧ s.frameMax ≤ s.params.bufSize := by
  simp [State.cfgLegal, and_assoc, or_assoc]

/-- LW of a legal LEN_ENC (10_state.md R39). -/
theorem lenWidth_eq {enc : Nat} (h : enc ≤ 4) : lenWidth enc = if enc ≤ 1 then 2 else if enc ≤ 3 then 4 else 3 := by
  interval_cases enc <;> rfl

/-- TRL of a legal CK_ALG (10_state.md R40). -/
theorem State.trl_eq {s : State} (h : s.ckAlgNum ≤ 5) :
    s.trl = if s.ckAlgNum = 0 then 0 else if s.ckAlgNum ≤ 3 then 1 else if s.ckAlgNum = 4 then 4 else 3 := by
  have htable : ∀ b : BitVec 3, b.toNat ≤ 5 → trailerLen (Alg.ofBits b) =
      if b.toNat = 0 then 0 else if b.toNat ≤ 3 then 1 else if b.toNat = 4 then 4 else 3 := by decide
  exact htable _ h

/-! ## OPEN (40_session.md R111, R112) -/

theorem exec_openSession_of_open {s : State} (hopen : s.isOpen = true) : exec .openSession s = .next (s.finish .refused .wrongState) :=
  if_pos hopen

theorem exec_openSession_of_closed {s : State} (hclosed : s.isOpen = false) : exec .openSession s =
    if s.cfgLegal then .next (s.openEffects.finish .ok .none) else .next (s.finish .refused .cfgIllegal) :=
  if_neg (by simp [hclosed])

/-- Settles O24: the configuration check reads the fields that the statement slices from the registers, and the tables of LW and TRL
are asked only for legal encodings. -/
theorem openStartsASessionOnALegalConfiguration : Obligations.OpenStartsASessionOnALegalConfiguration := by
  intro s w syncLen hdrLen lenOff lenEnc lw ckAlg ckIncl ckStart trl typeOff typeW frameMax legal
  obtain ⟨hsyncLen, -, hhdrLen, hlenOff, hlenEnc, -, -, -, hckIncl, -, hckStart, -, -, htypeOff, htypeW, -, -, hframeMax, -⟩ :=
    configurationFieldsAreTheirBits s
  have hckAlg : s.ckAlgNum = ckAlg := lowSlice_toNat ..
  have hlegal : s.cfgLegal = true ↔ legal := by
    rw [State.cfgLegal_iff, hsyncLen, hhdrLen, hlenOff, hlenEnc, hckIncl, hckStart, htypeOff, htypeW, hframeMax, hckAlg]
    by_cases henc : lenEnc ≤ 4
    · by_cases halg : ckAlg ≤ 5
      · rw [lenWidth_eq henc, State.trl_eq (hckAlg.trans_le halg), hckAlg]
      · exact iff_of_false (fun ⟨_, _, _, _, _, h, _⟩ => halg h) (fun ⟨_, _, _, _, _, h, _⟩ => halg h)
    · exact iff_of_false (fun ⟨_, _, h, _⟩ => henc h) (fun ⟨_, _, h, _⟩ => henc h)
  refine ⟨exec_openSession_of_open, fun hclosed hno => ?_, fun hclosed hyes => ?_, decode_eq_ok_iff_encode.mpr (by decide)⟩
  · rw [exec_openSession_of_closed hclosed, if_neg (mt hlegal.mp hno)]; rfl
  · rw [exec_openSession_of_closed hclosed, if_pos (hlegal.mpr hyes)]; rfl

/-! ## The flush (44_epoch_buffer.md R213) -/

/-- Q as the rule writes it. -/
theorem State.qualifying_eq (s : State) : s.qualifying = (s.obuf.take s.stgN.toNat).filter fun r => r.sat ≠ 0 ∧ r.tv = true :=
  List.filter_congr fun r _ => by rw [Bool.eq_iff_iff, r.qualifies_iff, decide_eq_true_iff]

theorem State.qualifying_length_lt (s : State) : s.qualifying.length < 2 ^ 8 := s.qualifying_length.trans_lt s.stgN.isLt

theorem State.flushCode_eq (s : State) : s.flushCode = if s.qualifying = [] then .ok else .obsUpdate := by
  simp only [State.flushCode, List.isEmpty_iff]

theorem State.flushEpoch_of_none {s : State} (h : s.qualifying = []) : s.flushEpoch = s.clearStaged 0 :=
  if_pos (List.isEmpty_iff.mpr h)

theorem State.flushEpoch_of_some {s : State} (h : s.qualifying ≠ []) : s.flushEpoch =
    (s.setObs (s.qualifying ++ s.obs.drop s.qualifying.length) (BitVec.ofNat 8 s.qualifying.length)).clearStaged 0 :=
  if_neg (mt List.isEmpty_iff.mp h)

/-- What a flush leaves of OBS: the qualifying records in front and the rest of the array as it was, or the array as it was. -/
theorem State.flushEpoch_obs (s : State) :
    (s.qualifying = [] → s.flushEpoch.obs = s.obs ∧ s.flushEpoch.obsN = s.obsN) ∧
    (s.qualifying ≠ [] → s.flushEpoch.obs.take s.qualifying.length = s.qualifying ∧
      s.flushEpoch.obs.drop s.qualifying.length = s.obs.drop s.qualifying.length ∧
      s.flushEpoch.obsN.toNat = s.qualifying.length) := by
  refine ⟨fun h => ?_, fun h => ?_⟩
  · rw [State.flushEpoch_of_none h]; exact ⟨rfl, rfl⟩
  · rw [State.flushEpoch_of_some h]
    exact ⟨List.take_left, List.drop_left, Nat.mod_eq_of_lt s.qualifying_length_lt⟩

/-! ## EOI (40_session.md R114, R115) -/

theorem exec_eoi_of_closed {s : State} (hclosed : s.isOpen = false) : exec .eoi s = .next (s.finish .refused .wrongState) :=
  if_neg (by simp [hclosed])

theorem exec_eoi_of_open {s : State} (hopen : s.isOpen = true) : exec .eoi s =
    .next (({ s.syncReset.flushEpoch with isOpen := false } : State).finish s.syncReset.flushCode .none) :=
  if_pos hopen

/-- Settles O25: EOI is the flush of the state after `syncReset`, which leaves the record arrays alone. -/
theorem eoiFlushesAndCloses : Obligations.EoiFlushesAndCloses := by
  intro s
  refine ⟨exec_eoi_of_closed, decode_eq_ok_iff_encode.mpr (by decide), ?_⟩
  rw [← s.qualifying_eq]
  intro q hopen
  refine ⟨_, exec_eoi_of_open hopen, ?_, s.syncReset.flushEpoch_obs⟩
  rw [State.flushCode_eq, State.flushEpoch_frame]
  rfl

end Sys2Proof.Machine
end

section
/-! The commands FEED, FEEDN and RELEASE by the state of SYNC (41_synchronizer.md R123, R131 to R133): what each answers, FEEDN as the
FEEDs of the bytes it consumes, and what a held frame is safe from. -/

namespace Sys2Proof.Machine

/-! ## FEED (41_synchronizer.md R123) -/

theorem exec_feed_of_free {s : State} (hopen : s.isOpen = true) (hfree : s.sstate ≠ .complete) (b : Byte) :
    exec (.feed b) s = .next (feedByte b s) :=
  if_pos (s.mayFeed_iff.mpr ⟨hopen, hfree⟩)

theorem feedByte_of_seeking {s : State} (h : s.sstate = .seeking) (b : Byte) : feedByte b s = seekByte b s := by
  rw [feedByte, h]

theorem feedByte_of_header {s : State} (h : s.sstate = .header) (b : Byte) : feedByte b s = headerByte b s := by
  rw [feedByte, h]

theorem feedByte_of_payload {s : State} (h : s.sstate = .payload) (b : Byte) : feedByte b s = payloadByte b s := by
  rw [feedByte, h]

/-- A fed byte whose outcome is OK leaves a state that may be fed again (41_synchronizer.md R130). -/
theorem feedByte_free_of_ok {b : Byte} {s : State} (hfree : s.sstate ≠ .complete) (hok : (feedByte b s).code = .ok) :
    (feedByte b s).sstate ≠ .complete := by
  rcases feedByte_outcomes b hfree with ⟨_, _, hfree'⟩ | ⟨hcode, _, _⟩ | ⟨k, _, heq⟩
  · exact hfree'
  · rw [hcode] at hok; cases hok
  · rw [heq] at hok; cases hok

/-! ## Bytes fed one after another -/

@[simp] theorem feedAll_nil (s : State) : feedAll [] s = .next s := rfl

theorem feedAll_cons_of_free {s : State} (hopen : s.isOpen = true) (hfree : s.sstate ≠ .complete) (b : Byte) (bs : List Byte) :
    feedAll (b :: bs) s = feedAll bs (feedByte b s) := by
  rw [feedAll, List.map_cons, runAll, exec_feed_of_free hopen hfree]
  rfl

theorem runAll_append {xs : List Instr} (ys : List Instr) : ∀ {s t : State}, runAll xs s = .next t → runAll (xs ++ ys) s = runAll ys t := by
  induction xs with
  | nil => intro s t h; cases h; rfl
  | cons i xs ih =>
    intro s t h
    rw [List.cons_append]
    rw [runAll] at h ⊢
    split at h
    · exact ih h
    · cases h
    · cases h

theorem feedAll_append {xs : List Byte} (ys : List Byte) {s t : State} (h : feedAll xs s = .next t) :
    feedAll (xs ++ ys) s = feedAll ys t := by
  rw [feedAll, List.map_append]
  exact runAll_append _ h

theorem feedAll_append_byte {xs : List Byte} {s t : State} (h : feedAll xs s = .next t) (hopen : t.isOpen = true)
    (hfree : t.sstate ≠ .complete) (b : Byte) : feedAll (xs ++ [b]) s = .next (feedByte b t) :=
  (feedAll_append [b] h).trans (feedAll_cons_of_free hopen hfree b [])

/-! ## FEEDN (41_synchronizer.md R132) -/

theorem exec_feedn_of_free {cnt : BitVec 3} {s : State} (hcnt : cntLegal cnt = true) (hopen : s.isOpen = true)
    (hfree : s.sstate ≠ .complete) :
    exec (.feedn cnt) s = .next ((feedLoop cnt.toNat 0 s).1.setRes (BitVec.ofNat 64 (feedLoop cnt.toNat 0 s).2)) :=
  (if_pos hcnt).trans (if_pos (s.mayFeed_iff.mpr ⟨hopen, hfree⟩))

/-- The bytes of ARG0 from byte `j` on, `left` of them. -/
def State.argBytesFrom (s : State) (j left : Nat) : List Byte := (List.range' j left).map s.argByte

theorem State.argBytesFrom_succ (s : State) (j left : Nat) :
    s.argBytesFrom j (left + 1) = s.argByte j :: s.argBytesFrom (j + 1) left := by
  rw [argBytesFrom, List.range'_succ, List.map_cons]; rfl

theorem State.argBytesFrom_zero (s : State) (n : Nat) : s.argBytesFrom 0 n = (List.range n).map fun j => (s.arg0 >>> (8 * j)).setWidth 8 := by
  rw [argBytesFrom, ← List.range_eq_range']
  refine List.map_congr_left fun j _ => BitVec.eq_of_toNat_eq ?_
  rw [State.argByte, BitVec.extractLsb'_toNat, BitVec.toNat_setWidth, BitVec.toNat_ushiftRight]

theorem SyncOnly.argBytesFrom {s t : State} (h : SyncOnly s t) (j left : Nat) : t.argBytesFrom j left = s.argBytesFrom j left :=
  List.map_congr_left fun k _ => h.argByte k

/-- FEEDN's loop: it leaves what FEED of the bytes it consumed leaves, of which only the last may have an outcome that is not OK, and has
one if bytes are left over. -/
theorem feedLoop_eq_feedAll (left : Nat) : ∀ (j : Nat) (s : State), s.isOpen = true → s.sstate ≠ .complete →
    feedAll ((s.argBytesFrom j left).take ((feedLoop left j s).2 - j)) s = .next (feedLoop left j s).1 ∧
    ((feedLoop left j s).2 < j + left → (feedLoop left j s).1.code ≠ .ok) ∧
    ∀ n, 0 < n → n < (feedLoop left j s).2 - j → ∃ v, feedAll ((s.argBytesFrom j left).take n) s = .next v ∧ v.code = .ok := by
  induction left with
  | zero =>
    intro j s _ _
    have hj : (feedLoop 0 j s).2 - j = 0 := Nat.sub_self j
    rw [hj]
    exact ⟨rfl, fun h => absurd h (Nat.lt_irrefl j), fun n _ hn => absurd hn (Nat.not_lt_zero n)⟩
  | succ left ih =>
    intro j s hopen hfree
    have hfirst := feedAll_cons_of_free hopen hfree (s.argByte j)
    rw [feedLoop_succ, State.argBytesFrom_succ]
    split
    · next hok =>
      have hsync := feedByte_syncOnly (s.argByte j) s
      obtain ⟨hall, hstop, hbefore⟩ := ih (j + 1) _ (hsync.isOpen.trans hopen) (feedByte_free_of_ok hfree hok)
      obtain ⟨hlo, _, _⟩ := feedLoop_count left (j + 1) (feedByte (s.argByte j) s)
      rw [hsync.argBytesFrom] at hall hbefore
      refine ⟨?_, fun h => hstop (by omega), fun n hpos hn => ?_⟩
      · rw [show (feedLoop left (j + 1) (feedByte (s.argByte j) s)).2 - j =
          (feedLoop left (j + 1) (feedByte (s.argByte j) s)).2 - (j + 1) + 1 by omega, List.take_succ_cons, hfirst]
        exact hall
      · obtain ⟨m, rfl⟩ := Nat.exists_eq_succ_of_ne_zero hpos.ne'
        rw [List.take_succ_cons, hfirst]
        cases m with
        | zero => exact ⟨_, rfl, hok⟩
        | succ m => exact hbefore (m + 1) m.succ_pos (by omega)
    · next hbad =>
      dsimp only
      refine ⟨?_, fun _ => hbad, fun n hpos hn => absurd hn (by omega)⟩
      rw [Nat.add_sub_cancel_left, List.take_succ_cons, hfirst]
      rfl

/-- Settles O30: FEEDN's loop as FEEDs, and its count, which fits RES0. -/
theorem feednEqualsFeeds : Obligations.FeednEqualsFeeds := by
  intro cnt s hlo hhi hopen hfree bytes
  obtain ⟨hall, hstop, hbefore⟩ := feedLoop_eq_feedAll cnt.toNat 0 s hopen hfree
  obtain ⟨_, hmost, hleast⟩ := feedLoop_count cnt.toNat 0 s
  rw [State.argBytesFrom_zero, Nat.sub_zero] at hall hbefore
  have hres0 : ((BitVec.ofNat 64 (feedLoop cnt.toNat 0 s).2).extractLsb' 0 32).toNat = (feedLoop cnt.toNat 0 s).2 := by
    rw [BitVec.extractLsb'_toNat, BitVec.toNat_ofNat, Nat.shiftRight_zero]; omega
  have hres1 : (BitVec.ofNat 64 (feedLoop cnt.toNat 0 s).2).extractLsb' 32 32 = 0 := by
    refine BitVec.eq_of_toNat_eq ?_
    rw [BitVec.extractLsb'_toNat, BitVec.toNat_ofNat, Nat.shiftRight_eq_div_pow]
    show _ = 0
    omega
  refine ⟨_, (feedLoop cnt.toNat 0 s).1, exec_feedn_of_free (decide_eq_true ⟨hlo, hhi⟩) hopen hfree, ?_, ?_, ?_⟩
  · rw [State.setRes_res0, hres0]; exact hall
  · rw [State.setRes, hres1]
  · rw [State.setRes_res0, State.setRes_code, hres0]
    refine ⟨hleast hlo, by omega, fun h => hstop (by omega), fun n v hpos hn hv => ?_⟩
    obtain ⟨u, hu, hok⟩ := hbefore n hpos hn
    cases hu.symm.trans hv
    exact hok

/-! ## RELEASE (41_synchronizer.md R133) -/

theorem exec_release_of_held {s : State} (hopen : s.isOpen = true) (hheld : s.sstate = .complete) :
    exec .release s = .next (s.syncReset.finish .ok .none) :=
  if_pos (by simp [hopen, hheld])

theorem exec_release_of_not_held {s : State} (h : s.isOpen = false ∨ s.sstate ≠ .complete) :
    exec .release s = .next (s.finish .refused .wrongState) :=
  if_neg (by rcases h with h | h <;> simp [h])

/-- Settles O31: the two answers of RELEASE, and the word that encodes it. -/
theorem releaseEndsComplete : Obligations.ReleaseEndsComplete :=
  fun _ => ⟨exec_release_of_held, exec_release_of_not_held, decode_eq_ok_iff_encode.mpr (by decide)⟩

/-! ## A held frame (41_synchronizer.md R131) -/

/-- While a frame is held FEED, FEEDN and OPEN are refused, and no other command but RELEASE and EOI has an effect on SYNC or BUF. -/
theorem Effect.held {s t : State} {i : Instr} (h : Effect s i t) (hopen : s.isOpen = true) (hheld : s.sstate = .complete)
    (hrelease : i ≠ .release) (heoi : i ≠ .eoi) :
    t.sstate = s.sstate ∧ t.nbyte = s.nbyte ∧ t.flen = s.flen ∧ t.ftype = s.ftype ∧ t.fdecIdx = s.fdecIdx ∧ t.fdecHit = s.fdecHit ∧
    t.buf = s.buf := by
  cases h with
  | opened hclosed => rw [hopen] at hclosed; cases hclosed
  | fed _ hfree | fedMany _ hfree => exact absurd hheld hfree
  | released => exact absurd rfl hrelease
  | ended => exact absurd rfl heoi
  | flushed => obtain ⟨arr, n, heq⟩ := s.flushEpoch_eq; rw [heq]; exact ⟨rfl, rfl, rfl, rfl, rfl, rfl, rfl⟩
  | _ => exact ⟨rfl, rfl, rfl, rfl, rfl, rfl, rfl⟩

/-- Settles O32: a held frame needs an open session, which refuses OPEN. -/
theorem heldFrameIsImmutable : Obligations.HeldFrameIsImmutable := by
  intro i s t hi hheld hrelease heoi h
  have hopen : s.isOpen = true := by
    by_contra hclosed
    have hseek := hi.closed (by simpa using hclosed)
    rw [hheld] at hseek
    cases hseek
  obtain ⟨hsstate, hnbyte, hflen, hftype, hidx, hhit, hbuf⟩ := (exec_effect h).held hopen hheld hrelease heoi
  exact ⟨hsstate.trans hheld, hnbyte, hflen, hftype, hidx, hhit, fun a => by rw [hbuf]⟩

end Sys2Proof.Machine
end

section
/-! What a fed byte does in each state of SYNC (41_synchronizer.md R121, R124 to R130), with the window, the length field and the frame as
byte strings. -/

namespace Sys2Proof.Machine

/-! ## Slices of BUF -/

/-- A byte written right after a slice lengthens it. -/
theorem Memory.slice_write_end {m : Memory} (hwf : Memory.wf m = true) (a n : Nat) (b : Byte) :
    Memory.slice (Memory.write m (a + n) b) a (n + 1) = Memory.slice m a n ++ [b] := by
  have hsame : Memory.slice (Memory.write m (a + n) b) a n = Memory.slice m a n :=
    Memory.slice_congr fun i hi => Memory.read_write_other m b (by omega)
  rw [← hsame]
  simp only [Memory.slice, List.range_succ, List.map_append, List.map_cons, List.map_nil, Memory.read_write_same _ b hwf]

theorem Memory.drop_slice (m : Memory) (a n k : Nat) : (Memory.slice m a n).drop k = Memory.slice m (a + k) (n - k) := by
  refine List.ext_getElem (by simp) fun i hi _ => ?_
  have hi' : k + i < n := by simp at hi; omega
  rw [List.getElem_drop, Memory.slice_getElem m a n (k + i) hi', Memory.slice_getElem m (a + k) (n - k) i (by omega), Nat.add_assoc]

theorem Memory.take_slice (m : Memory) (a n k : Nat) : (Memory.slice m a n).take k = Memory.slice m a (min k n) := by
  refine List.ext_getElem (by simp) fun i hi _ => ?_
  have hi' : i < min k n := by simpa using hi
  rw [List.getElem_take, Memory.slice_getElem m a n i (by omega), Memory.slice_getElem m a (min k n) i hi']

/-- A part of a slice that lies inside it. -/
theorem Memory.take_drop_slice (m : Memory) {off w n : Nat} (h : off + w ≤ n) :
    ((Memory.slice m 0 n).drop off).take w = Memory.slice m off w := by
  rw [Memory.drop_slice, Memory.take_slice, Nat.zero_add, Nat.min_eq_left (by omega)]

/-- A byte string written is the slice where it was written. -/
theorem Memory.slice_writeList {m : Memory} (hwf : Memory.wf m = true) (a : Nat) (bs : List Byte) :
    Memory.slice (Memory.writeList m a bs) a bs.length = bs := by
  refine List.ext_getElem (Memory.slice_length ..) fun i hi hi' => ?_
  rw [Memory.slice_getElem _ _ _ i hi', Memory.read_writeList_inside i hwf hi']

/-! ## SEEKING (41_synchronizer.md R121, R124) -/

/-- The valid bytes of the window (10_state.md R48). -/
def State.validWindow (s : State) : List Byte := s.win.take s.wcnt

/-- The shift drops the oldest valid byte when the window is full: what is valid afterwards is the end of what was, with the new byte. -/
theorem shiftWindow_valid {sl wcnt : Nat} {win : List Byte} (b : Byte) (hpos : 1 ≤ sl) (hwin : sl ≤ win.length) (hcnt : wcnt ≤ sl) :
    (shiftWindow sl win wcnt b).1.take (shiftWindow sl win wcnt b).2 = (win.take wcnt ++ [b]).rtake sl ∧
    (shiftWindow sl win wcnt b).2 = ((win.take wcnt ++ [b]).rtake sl).length := by
  have hlen : (win.take wcnt).length = wcnt := List.length_take_of_le (by omega)
  by_cases hfull : wcnt < sl
  · rw [shiftWindow, if_pos hfull, List.rtake, List.length_append, List.length_singleton, hlen,
      show wcnt + 1 - sl = 0 by omega, List.drop_zero]
    refine ⟨?_, by simp [hlen]⟩
    rw [List.take_add_one, List.take_set_of_le (le_refl wcnt), List.getElem?_set_self (by omega)]
    rfl
  · obtain rfl : wcnt = sl := by omega
    have hdrop : ((win.take wcnt).drop 1).length = wcnt - 1 := by rw [List.length_drop, hlen]
    rw [shiftWindow, if_neg hfull, List.rtake, List.length_append, List.length_singleton, hlen, Nat.add_sub_cancel_left,
      List.drop_append_of_le_length (by omega)]
    refine ⟨?_, by rw [List.length_append, hdrop, List.length_singleton]; omega⟩
    rw [List.take_append, hdrop, List.take_of_length_le (by omega), show wcnt - (wcnt - 1) = 1 by omega]
    rfl

theorem State.pattern_take_length {s : State} (h : s.syncLen ≤ 5) : (s.pattern.take s.syncLen).length = s.syncLen :=
  List.length_take_of_le h

/-- The sync predicate is that the end of the bytes seen equals the pattern: shorter than the pattern, it does not. -/
theorem syncMatch_shiftWindow {s : State} (b : Byte) (hpos : 1 ≤ s.syncLen) (hfive : s.syncLen ≤ 5) (hwin : s.win.length = 5)
    (hcnt : s.wcnt ≤ s.syncLen) :
    syncMatch s.syncLen (shiftWindow s.syncLen s.win s.wcnt b).1 (shiftWindow s.syncLen s.win s.wcnt b).2 s.pattern = true ↔
      (s.validWindow ++ [b]).rtake s.syncLen = s.pattern.take s.syncLen := by
  obtain ⟨hvalid, hcount⟩ := shiftWindow_valid b hpos (hfive.trans hwin.ge) hcnt
  rw [← State.validWindow] at hvalid hcount
  rw [syncMatch, Bool.and_eq_true, beq_iff_eq, beq_iff_eq, ← hvalid]
  constructor
  · rintro ⟨hfull, hbytes⟩
    rw [hfull]; exact hbytes
  · intro h
    have hfull : (shiftWindow s.syncLen s.win s.wcnt b).2 = s.syncLen := by
      rw [hcount, ← hvalid, h, State.pattern_take_length hfive]
    rw [hfull] at h
    exact ⟨hfull, h⟩

/-- What the invariant says while SEEKING in a session (40_session.md R111, 41_synchronizer.md R121). -/
theorem State.Inv.seeking {s : State} (hi : s.Inv) (hopen : s.isOpen = true) (hseek : s.sstate = .seeking) :
    1 ≤ s.syncLen ∧ s.syncLen ≤ 5 ∧ s.wcnt ≤ s.syncLen ∧ s.nbyte = 0 ∧ s.flen = 0 := by
  obtain ⟨hpos, hfive, _⟩ := State.cfgLegal_bounds (hi.opened hopen)
  obtain ⟨hnbyte, hflen, hcnt⟩ := (State.syncOk_seeking hseek).mp hi.sync
  rw [if_pos hopen] at hcnt
  exact ⟨hpos, hfive, hcnt, hnbyte, hflen⟩

/-- A byte that completes the pattern begins a frame with it (41_synchronizer.md R124). -/
theorem feedByte_of_match {s : State} (hi : s.Inv) (hopen : s.isOpen = true) (hseek : s.sstate = .seeking) {b : Byte}
    (h : (s.validWindow ++ [b]).rtake s.syncLen = s.pattern.take s.syncLen) :
    feedByte b s = { s with buf := Memory.writeList s.buf 0 (s.pattern.take s.syncLen), sstate := .header,
                            nbyte := BitVec.ofNat 16 s.syncLen, wcnt := 0, win := zeroWin, code := .ok, cause := .none } := by
  obtain ⟨hpos, hfive, hcnt, _, hflen⟩ := hi.seeking hopen hseek
  have hmatch := (syncMatch_shiftWindow b hpos hfive hi.winLen hcnt).mpr h
  have hbytes : (shiftWindow s.syncLen s.win s.wcnt b).1.take s.syncLen = s.pattern.take s.syncLen :=
    eq_of_beq (Bool.and_eq_true_iff.mp hmatch).2
  rw [feedByte_of_seeking hseek, seekByte]
  rw [if_pos hmatch, State.beginFrame, hbytes, ← hflen]
  rfl

/-- Any other byte enters the window (41_synchronizer.md R124). -/
theorem feedByte_of_no_match {s : State} (hi : s.Inv) (hopen : s.isOpen = true) (hseek : s.sstate = .seeking) {b : Byte}
    (h : (s.validWindow ++ [b]).rtake s.syncLen ≠ s.pattern.take s.syncLen) :
    feedByte b s = { s with win := (feedByte b s).win, wcnt := ((s.validWindow ++ [b]).rtake s.syncLen).length,
                            code := .ok, cause := .none } ∧
    (feedByte b s).validWindow = (s.validWindow ++ [b]).rtake s.syncLen := by
  obtain ⟨hpos, hfive, hcnt, _⟩ := hi.seeking hopen hseek
  obtain ⟨hvalid, hcount⟩ := shiftWindow_valid b hpos (hfive.trans hi.winLen.ge) hcnt
  rw [← State.validWindow] at hvalid hcount
  have hno := mt (syncMatch_shiftWindow b hpos hfive hi.winLen hcnt).mp h
  rw [feedByte_of_seeking hseek, seekByte]
  rw [if_neg hno, ← hcount]
  exact ⟨rfl, hvalid⟩

/-- Settles O26: the match and the shift, with the pattern read back from BUF. -/
theorem seekingMatchesThePattern : Obligations.SeekingMatchesThePattern := by
  intro b s hi hopen hseek v w
  obtain ⟨_, hfive, _⟩ := hi.seeking hopen hseek
  refine ⟨_, exec_feed_of_free hopen (by rw [hseek]; nofun) b, fun hmatch => ?_, fun hno => feedByte_of_no_match hi hopen hseek hno⟩
  have hlen : w.length = s.syncLen := by rw [hmatch, State.pattern_take_length hfive]
  rw [feedByte_of_match hi hopen hseek hmatch, ← hmatch]
  refine ⟨rfl, Nat.mod_eq_of_lt (by omega), fun i hlt => ?_, fun a hge => ?_⟩
  · have hread := Memory.read_writeList_inside (a := 0) (bs := w) i hi.bufWf (by omega)
    rw [Nat.zero_add] at hread
    rw [List.getD_eq_getElem _ _ (by omega)]
    exact hread
  · exact Memory.read_writeList_outside _ (.inr (by omega))

/-! ## Bytes stored at NBYTE (41_synchronizer.md R125, R128) -/

/-- In HEADER and PAYLOAD a byte is stored at NBYTE, whatever its outcome. -/
theorem feedByte_stores {s : State} (h : s.sstate = .header ∨ s.sstate = .payload) (b : Byte) :
    (feedByte b s).buf = Memory.write s.buf s.nbyte.toNat b := by
  rcases h with h | h
  · rw [feedByte_of_header h]
    rcases headerByte_cases b s with ⟨_, heq⟩ | ⟨_, k, _, heq⟩ | ⟨_, n, _, heq⟩ <;> rw [heq]
    · exact headerNext_buf _
    · rfl
    · exact headerNext_buf _
  · rw [feedByte_of_payload h]
    rcases payloadByte_cases b s with ⟨_, heq⟩ | ⟨_, heq⟩ <;> rw [heq]
    · rfl
    · exact completeFrame_buf _

theorem feedByte_reads {s : State} (hwf : Memory.wf s.buf = true) (h : s.sstate = .header ∨ s.sstate = .payload) (b : Byte) :
    Memory.read (feedByte b s).buf s.nbyte.toNat = b ∧
    ∀ a, a ≠ s.nbyte.toNat → Memory.read (feedByte b s).buf a = Memory.read s.buf a := by
  rw [feedByte_stores h]
  exact ⟨Memory.read_write_same _ b hwf, fun a ha => Memory.read_write_other _ b ha⟩

/-! ## HEADER (41_synchronizer.md R125 to R127) -/

/-- What the invariant says in HEADER: a byte is due, and there is room to count it. -/
theorem State.Inv.header {s : State} (hi : s.Inv) (hopen : s.isOpen = true) (hheader : s.sstate = .header) :
    s.syncLen ≤ s.nbyte.toNat ∧ s.nbyte.toNat < s.hdrLen ∧ ∀ b, (s.putByte b).nbyte.toNat = s.nbyte.toNat + 1 := by
  obtain ⟨_, _, _, _, _, hfit, _⟩ := State.cfgLegal_bounds (hi.opened hopen)
  obtain ⟨_, hlo, hhi, _, _⟩ := (State.syncOk_header hheader).mp hi.sync
  have h16 := s.frameMax_lt
  exact ⟨hlo, hhi, fun b => State.putByte_nbyte_toNat b (by omega)⟩

/-- SSTATE after a header byte with no error. -/
def State.afterHeaderByte (s : State) : SState := if s.nbyte.toNat + 1 = s.hdrLen then .payload else .header

theorem headerNext_of_header {s u : State} (hheader : u.sstate = .header) (hn : u.nbyte.toNat = s.nbyte.toNat + 1) (hcfg : u.cfg = s.cfg) :
    headerNext u = { u with sstate := s.afterHeaderByte, code := .ok, cause := .none } := by
  rw [headerNext_eq, hn, State.hdrLen_congr s u hcfg, hheader, State.afterHeaderByte]

/-- A byte short of the length field's end, or behind it. -/
theorem feedByte_inside_header {s : State} (hi : s.Inv) (hopen : s.isOpen = true) (hheader : s.sstate = .header) (b : Byte)
    (hne : s.nbyte.toNat + 1 ≠ s.lenOff + lenWidth s.lenEnc) :
    feedByte b s = { s.putByte b with sstate := s.afterHeaderByte, code := .ok, cause := .none } := by
  obtain ⟨_, _, hn⟩ := hi.header hopen hheader
  rw [feedByte_of_header hheader]
  rcases headerByte_cases b s with ⟨_, heq⟩ | ⟨hend, _⟩ | ⟨hend, _⟩
  · rw [heq, headerNext_of_header (s := s) (u := s.putByte b) hheader (hn b) rfl]
  · exact absurd hend (hn b ▸ hne)
  · exact absurd hend (hn b ▸ hne)

/-- The byte that ends the length field, when it is in error. -/
theorem feedByte_length_error {s : State} (hi : s.Inv) (hopen : s.isOpen = true) (hheader : s.sstate = .header) {b : Byte}
    (hend : s.nbyte.toNat + 1 = s.lenOff + lenWidth s.lenEnc) {k : Cause} (hk : (s.putByte b).decodeLength = .error k) :
    feedByte b s = (s.putByte b).syncReset.finish .error k := by
  obtain ⟨_, _, hn⟩ := hi.header hopen hheader
  rw [feedByte_of_header hheader]
  rcases headerByte_cases b s with ⟨hne, _⟩ | ⟨_, k', hk', heq⟩ | ⟨_, n, hok, _⟩
  · exact absurd ((hn b).trans hend) hne
  · cases hk.symm.trans hk'; exact heq
  · cases hk.symm.trans hok

/-- The byte that ends the length field, when it is legal. -/
theorem feedByte_length_ok {s : State} (hi : s.Inv) (hopen : s.isOpen = true) (hheader : s.sstate = .header) {b : Byte}
    (hend : s.nbyte.toNat + 1 = s.lenOff + lenWidth s.lenEnc) {n : Nat} (hok : (s.putByte b).decodeLength = .ok n) :
    feedByte b s = { s.putByte b with flen := BitVec.ofNat 16 n, sstate := s.afterHeaderByte, code := .ok, cause := .none } := by
  obtain ⟨_, _, hn⟩ := hi.header hopen hheader
  rw [feedByte_of_header hheader]
  rcases headerByte_cases b s with ⟨hne, _⟩ | ⟨_, k, hk, _⟩ | ⟨_, n', hok', heq⟩
  · exact absurd ((hn b).trans hend) hne
  · cases hok.symm.trans hk
  · cases hok.symm.trans hok'
    rw [heq, headerNext_of_header (s := s) (u := { s.putByte b with flen := BitVec.ofNat 16 n }) hheader (hn b) rfl]

/-- Settles O27: the header byte is stored and counted, and nothing else is decided. -/
theorem headerBytesAreStored : Obligations.HeaderBytesAreStored := by
  intro b s hi hopen hheader hne
  obtain ⟨_, _, hn⟩ := hi.header hopen hheader
  obtain ⟨hsame, hother⟩ := feedByte_reads hi.bufWf (.inl hheader) b
  refine ⟨_, exec_feed_of_free hopen (by rw [hheader]; nofun) b, ?_, ?_, hsame, hother⟩
  · rw [feedByte_inside_header hi hopen hheader b hne]; rfl
  · rw [feedByte_inside_header hi hopen hheader b hne]; exact hn b

/-! ## The length field (10_state.md R39, 41_synchronizer.md R126, R127) -/

/-- The length field's value in the table of 10_state.md R39. -/
def State.lengthField (s : State) : Option Nat := lengthTable s.lenEnc (s.bufBytes s.lenOff (lenWidth s.lenEnc))

theorem State.lenValue_eq_lengthField {s : State} (henc : s.lenEnc ≤ 4) :
    lenValue s.lenEnc (s.bufBytes s.lenOff (lenWidth s.lenEnc)) = s.lengthField :=
  lenValue_eq_table henc (Memory.slice_length ..)

theorem State.decodeLength_of_none {s : State} (henc : s.lenEnc ≤ 4) (h : s.lengthField = none) :
    s.decodeLength = .error .lenBadhex := by
  rw [decodeLength, lenValue_eq_lengthField henc, h]

theorem State.decodeLength_of_some {s : State} (henc : s.lenEnc ≤ 4) {l : Nat} (h : s.lengthField = some l) :
    s.decodeLength = if l = 0 then .error .lenZero else if s.frameMax < s.hdrLen + l + s.trl then .error .lenOversize
      else .ok (s.hdrLen + l + s.trl) := by
  rw [decodeLength, lenValue_eq_lengthField henc, h]

/-- With the byte that ends it, the length field is whole. -/
theorem State.putByte_lengthField {s : State} (hwf : Memory.wf s.buf = true) (hpos : 1 ≤ lenWidth s.lenEnc)
    (hend : s.nbyte.toNat + 1 = s.lenOff + lenWidth s.lenEnc) (b : Byte) :
    (s.putByte b).lengthField = lengthTable s.lenEnc (Memory.slice s.buf s.lenOff (lenWidth s.lenEnc - 1) ++ [b]) := by
  have hslice := Memory.slice_write_end hwf s.lenOff (lenWidth s.lenEnc - 1) b
  rw [Nat.sub_add_cancel hpos, show s.lenOff + (lenWidth s.lenEnc - 1) = s.nbyte.toNat by omega] at hslice
  rw [← hslice]
  rfl

/-- Settles O28: the value of the field, then the three tests of it in order. -/
theorem lengthFieldDecidesTheFrame : Obligations.LengthFieldDecidesTheFrame := by
  refine ⟨fun x => rfl, ?_⟩
  intro b s hi hopen hheader hend d bad
  obtain ⟨_, _, henc, _⟩ := s.cfgLegal_iff.mp (hi.opened hopen)
  obtain ⟨_, _, hn⟩ := hi.header hopen hheader
  obtain ⟨hsame, hother⟩ := feedByte_reads hi.bufWf (.inl hheader) b
  have hfield := State.putByte_lengthField hi.bufWf (Nat.le_of_succ_le (lenWidth_ge_two henc)) hend b
  have hbad : ∀ k, (s.putByte b).decodeLength = .error k → bad k (feedByte b s) := fun k hk => by
    rw [feedByte_length_error hi hopen hheader hend hk]; rfl
  refine ⟨_, exec_feed_of_free hopen (by rw [hheader]; nofun) b, hsame, hother, ?_⟩
  cases hl : lengthTable s.lenEnc d with
  | none => exact hbad _ (State.decodeLength_of_none henc (hfield.trans hl))
  | some l =>
    have hdecode := State.decodeLength_of_some (s := s.putByte b) henc (hfield.trans hl)
    dsimp only
    split
    · next hzero => exact hbad _ (hdecode.trans (if_pos hzero))
    · next hpos =>
      rw [if_neg hpos] at hdecode
      split
      · next hbig => exact hbad _ (hdecode.trans (if_pos hbig))
      · next hfit =>
        rw [feedByte_length_ok hi hopen hheader hend (hdecode.trans (if_neg hfit))]
        have h16 := s.frameMax_lt
        exact ⟨rfl, hn b, Nat.mod_eq_of_lt (show s.hdrLen + l + s.trl < 2 ^ 16 by omega)⟩

end Sys2Proof.Machine
end

section
/-! PAYLOAD and the completion of a frame (41_synchronizer.md R128 to R130): the validator and the type filter on the bytes of the whole
frame. -/

namespace Sys2Proof.Machine

/-! ## What the validator computes (42_checksum.md R150 to R157) -/

/-- The final rotate of ROTXOR on numbers (42_checksum.md R151). -/
theorem rotl8_low8_toNat (x : Word) :
    (rotl8 (low8 x) 2).setWidth 32 = BitVec.ofNat 32 (x.toNat % 2 ^ 8 * 2 ^ 2 % 2 ^ 8 + x.toNat % 2 ^ 8 / 2 ^ 6) := by
  refine BitVec.eq_of_toNat_eq ?_
  rw [BitVec.toNat_setWidth, rotl8_toNat, BitVec.toNat_ofNat, low8, BitVec.toNat_setWidth]

theorem State.ckRotf_eq (s : State) : s.ckRotf = true ↔ (s.busRead 0x094 32).toNat / 2 ^ 4 % 2 = 1 := by
  have hbit : s.ckRotf.toNat = (s.busRead 0x094 32).toNat / 2 ^ 4 % 2 := getLsbD_toNat s.cfg.ckCfg 4
  rw [← hbit]
  cases s.ckRotf <;> simp

theorem State.ckCompute_rotxor (s : State) (d : List Byte) : s.ckCompute .rotxor d =
    if (s.busRead 0x094 32).toNat / 2 ^ 4 % 2 = 1 then (rotl8 (low8 (Alg.run .rotxor 0 d)) 2).setWidth 32 else Alg.run .rotxor 0 d :=
  if_congr s.ckRotf_eq rfl rfl

/-- The trailer bytes of a value, by their places in it (42_checksum.md R156). -/
theorem Alg.serialize_toNat (a : Alg) (v : Word) : (a.serialize v).map BitVec.toNat =
    (match a with | .rotxor | .xor | .add8 => [0] | .crc32 => [0, 1, 2, 3] | .crc24q => [2, 1, 0]).map
      fun k => v.toNat / 2 ^ (8 * k) % 2 ^ 8 := by
  cases a <;> simp [Alg.serialize, BitVec.extractLsb'_toNat, Nat.shiftRight_eq_div_pow]

/-! ## The frame in BUF (41_synchronizer.md R129, R130) -/

/-- The frame held so far: FLEN bytes of BUF. -/
def State.frameBytes (s : State) : List Byte := s.bufBytes 0 s.flen.toNat

/-- The validator reads the ranges of BUF that the rule cuts out of the frame. -/
theorem State.frameValid_iff {s : State} (htrl : s.trl ≤ s.flen.toNat) : s.frameValid = true ↔ s.validFrame s.frameBytes := by
  unfold State.frameValid State.validFrame
  cases hck : s.ckAlg with
  | none => simp
  | some a =>
    have hle : a.trl ≤ s.flen.toNat := by rw [State.trl, hck] at htrl; exact htrl
    have hbody : s.bufBytes s.ckStart (s.flen.toNat - s.ckStart) = s.frameBytes.drop s.ckStart := by
      rw [frameBytes, bufBytes, bufBytes, Memory.drop_slice, Nat.zero_add]
    have hdata : s.bufBytes s.ckStart (s.flen.toNat - a.trl - s.ckStart) =
        (s.frameBytes.take (s.frameBytes.length - a.trl)).drop s.ckStart := by
      rw [frameBytes, bufBytes, bufBytes, Memory.slice_length, Memory.take_slice, Memory.drop_slice, Nat.zero_add,
        Nat.min_eq_left (Nat.sub_le ..)]
    have htail : s.bufBytes (s.flen.toNat - a.trl) a.trl = s.frameBytes.drop (s.frameBytes.length - a.trl) := by
      rw [frameBytes, bufBytes, bufBytes, Memory.slice_length, Memory.drop_slice, Nat.zero_add, Nat.sub_sub_self hle]
    dsimp only
    rw [hbody, hdata, htail]
    split <;> exact beq_iff_eq

/-- The type code is the number in the frame's type field, which fits FTYPE (10_state.md R42). -/
theorem State.typeCode_toNat {s : State} (hw : s.typeW ≤ 4) (hin : s.typeOff + s.typeW ≤ s.flen.toNat ∨ s.typeW = 0) :
    s.typeCode.toNat = s.frameType s.frameBytes := by
  have hfield : (s.frameBytes.drop s.typeOff).take s.typeW = s.bufBytes s.typeOff s.typeW := by
    rcases hin with hin | hzero
    · exact Memory.take_drop_slice s.buf hin
    · rw [hzero]; rfl
  have hlt : bytesNat s.typeEndian (s.bufBytes s.typeOff s.typeW) < 2 ^ 32 := by
    have hbytes := bytesNat_lt s.typeEndian (s.bufBytes s.typeOff s.typeW)
    rw [bufBytes, Memory.slice_length] at hbytes
    exact hbytes.trans_le ((Nat.pow_le_pow_right (by decide) hw).trans_eq (by decide))
  rw [State.frameType, hfield, ← bytesNat_eq_sum, State.typeCode, BitVec.toNat_ofNat, Nat.mod_eq_of_lt hlt]

/-- An entry of the type filter that holds a type code (10_state.md R46). -/
def State.Accepts (s : State) (t : Word) (j : Nat) : Prop := s.tfValid j = true ∧ s.tfType j = t

theorem State.accepts_iff {s : State} {t : Word} {j : Nat} : (s.tfValid j && s.tfType j == t) = true ↔ s.Accepts t j := by
  rw [Bool.and_eq_true, beq_iff_eq, Accepts]

theorem State.filterEntry_eq_some_iff {s : State} {t : Word} {j : Nat} : s.filterEntry t = some j ↔
    s.Accepts t j ∧ j < 16 ∧ ∀ i, i < j → ¬ s.Accepts t i := by
  rw [filterEntry, List.find?_range_eq_some, accepts_iff, List.mem_range]
  simp only [Bool.not_eq_true', ← Bool.not_eq_true, accepts_iff, ntype]

theorem State.filterEntry_eq_none_iff {s : State} {t : Word} : s.filterEntry t = none ↔ ¬ ∃ j, j < 16 ∧ s.Accepts t j := by
  rw [filterEntry, List.find?_eq_none]
  simp only [List.mem_range, accepts_iff, ntype, not_exists, not_and]

/-- A frame's type is accepted when the filter is off or holds its code. -/
theorem State.typeAccepted_iff {s : State} {f : List Byte} {t : Word} (ht : t.toNat = s.frameType f) :
    s.typeAccepted f ↔ s.tfEn = false ∨ ∃ j, j < 16 ∧ s.Accepts t j := by
  simp only [State.typeAccepted, State.Accepts, ← ht, BitVec.toNat_inj]

/-! ## The verdicts on a whole frame (41_synchronizer.md R129, R130) -/

theorem completeFrame_of_invalid {s : State} (h : s.frameValid = false) : completeFrame s = s.syncReset.finish .error .ckMismatch :=
  if_neg (by rw [h]; nofun)

theorem completeFrame_of_unfiltered {s : State} (hvalid : s.frameValid = true) (hen : s.tfEn = false) : completeFrame s =
    ({ s with ftype := s.typeCode, fdecIdx := 0, fdecHit := false, sstate := .complete } : State).finish .frameReady .none :=
  (if_pos hvalid).trans (if_neg (show ¬ s.tfEn = true by rw [hen]; nofun))

theorem completeFrame_of_dropped {s : State} (hvalid : s.frameValid = true) (hen : s.tfEn = true) (h : s.filterEntry s.typeCode = none) :
    completeFrame s = ({ s with ftype := s.typeCode, fdecIdx := 0, fdecHit := false } : State).syncReset.finish .ok .none := by
  rcases completeFrame_cases s with ⟨hv, _⟩ | ⟨_, _, _, heq⟩ | ⟨_, _, j, hj, _⟩ | ⟨_, hoff, _⟩
  · rw [hvalid] at hv; cases hv
  · exact heq
  · rw [h] at hj; cases hj
  · rw [hen] at hoff; cases hoff

theorem completeFrame_of_entry {s : State} {j : Nat} (hvalid : s.frameValid = true) (hen : s.tfEn = true)
    (h : s.filterEntry s.typeCode = some j) : completeFrame s =
      ({ s with ftype := s.typeCode, fdecIdx := BitVec.ofNat 4 j, fdecHit := true, sstate := .complete } : State).finish .frameReady .none := by
  rcases completeFrame_cases s with ⟨hv, _⟩ | ⟨_, _, hno, _⟩ | ⟨_, _, i, hi, heq⟩ | ⟨_, hoff, _⟩
  · rw [hvalid] at hv; cases hv
  · rw [h] at hno; cases hno
  · cases h.symm.trans hi; exact heq
  · rw [hen] at hoff; cases hoff

/-! ## PAYLOAD (41_synchronizer.md R128) -/

/-- What the invariant says in PAYLOAD: a byte is due, there is room to count it, and the header and the trailer lie in the frame. -/
theorem State.Inv.payload {s : State} (hi : s.Inv) (hpayload : s.sstate = .payload) :
    s.hdrLen ≤ s.nbyte.toNat ∧ s.nbyte.toNat < s.flen.toNat ∧ s.hdrLen + 1 + s.trl ≤ s.flen.toNat ∧
    ∀ b, (s.putByte b).nbyte.toNat = s.nbyte.toNat + 1 := by
  obtain ⟨_, hlo, hhi, hmin, hfits⟩ := (State.syncOk_payload hpayload).mp hi.sync
  have h16 := s.flen.isLt
  exact ⟨hlo, hhi, hmin, fun b => State.putByte_nbyte_toNat b (by omega)⟩

theorem feedByte_inside_payload {s : State} (hi : s.Inv) (hpayload : s.sstate = .payload) (b : Byte)
    (h : s.nbyte.toNat + 1 < s.flen.toNat) : feedByte b s = (s.putByte b).finish .ok .none := by
  obtain ⟨_, _, _, hn⟩ := hi.payload hpayload
  rw [feedByte_of_payload hpayload]
  rcases payloadByte_cases b s with ⟨_, heq⟩ | ⟨hge, _⟩
  · exact heq
  · exact absurd hge (by rw [hn b]; omega)

theorem feedByte_whole_frame {s : State} (hi : s.Inv) (hpayload : s.sstate = .payload) (b : Byte)
    (h : s.nbyte.toNat + 1 = s.flen.toNat) : feedByte b s = completeFrame (s.putByte b) := by
  obtain ⟨_, _, _, hn⟩ := hi.payload hpayload
  rw [feedByte_of_payload hpayload]
  rcases payloadByte_cases b s with ⟨hlt, _⟩ | ⟨_, heq⟩
  · exact absurd hlt (by rw [hn b]; omega)
  · exact heq

/-- The byte that makes the frame whole leaves it in BUF. -/
theorem State.putByte_frameBytes {s : State} (hwf : Memory.wf s.buf = true) (h : s.nbyte.toNat + 1 = s.flen.toNat) (b : Byte) :
    (s.putByte b).frameBytes = Memory.slice s.buf 0 s.nbyte.toNat ++ [b] := by
  have hslice := Memory.slice_write_end hwf 0 s.nbyte.toNat b
  rw [Nat.zero_add, h] at hslice
  exact hslice

/-- It also makes NBYTE the length of the frame. -/
theorem State.putByte_whole {s : State} {b : Byte} (hn : (s.putByte b).nbyte.toNat = s.nbyte.toNat + 1)
    (h : s.nbyte.toNat + 1 = s.flen.toNat) :
    s.putByte b = { s with buf := Memory.write s.buf s.nbyte.toNat b, nbyte := s.flen } :=
  congrArg (fun n => ({ s with buf := Memory.write s.buf s.nbyte.toNat b, nbyte := n } : State)) (BitVec.eq_of_toNat_eq (hn.trans h))

/-- The validator and the type filter, on the whole frame in bytes. -/
theorem State.Inv.wholeFrame {s : State} (hi : s.Inv) (hopen : s.isOpen = true) (hpayload : s.sstate = .payload) (b : Byte)
    (h : s.nbyte.toNat + 1 = s.flen.toNat) :
    ((s.putByte b).frameValid = true ↔ s.validFrame (Memory.slice s.buf 0 s.nbyte.toNat ++ [b])) ∧
    (s.putByte b).typeCode.toNat = s.frameType (Memory.slice s.buf 0 s.nbyte.toNat ++ [b]) := by
  obtain ⟨_, _, hmin, _⟩ := hi.payload hpayload
  obtain ⟨_, _, _, _, _, _, _, _, hw, htype, _⟩ := s.cfgLegal_iff.mp (hi.opened hopen)
  rw [← State.putByte_frameBytes hi.bufWf h]
  exact ⟨State.frameValid_iff (s := s.putByte b) (show s.trl ≤ s.flen.toNat by omega),
    State.typeCode_toNat (s := s.putByte b) hw (show s.typeOff + s.typeW ≤ s.flen.toNat ∨ s.typeW = 0 by omega)⟩

/-- Settles O29: the validator algorithm by algorithm, then the verdicts on the frame that the byte makes whole. -/
theorem payloadBytesCompleteTheFrame : Obligations.PayloadBytesCompleteTheFrame := by
  refine ⟨fun s d => ⟨?_, rfl, rfl, rfl, rfl⟩, fun v => ?_, rfl, ?_⟩
  · rw [← rotl8_low8_toNat]; exact s.ckCompute_rotxor d
  · exact ⟨Alg.serialize_toNat .rotxor v, Alg.serialize_toNat .xor v, Alg.serialize_toNat .add8 v, Alg.serialize_toNat .crc32 v,
      Alg.serialize_toNat .crc24q v⟩
  intro b s hi hopen hpayload f
  obtain ⟨_, _, _, hn⟩ := hi.payload hpayload
  obtain ⟨hsame, hother⟩ := feedByte_reads hi.bufWf (.inr hpayload) b
  refine ⟨_, exec_feed_of_free hopen (by rw [hpayload]; nofun) b, hsame, hother, fun hlt => ?_, fun hwhole hno => ?_,
    fun hwhole hyes hno => ?_, fun hwhole hyes hacc => ?_⟩
  · rw [feedByte_inside_payload hi hpayload b hlt]; exact ⟨rfl, hn b⟩
  · obtain ⟨hvalid, _⟩ := hi.wholeFrame hopen hpayload b hwhole
    rw [feedByte_whole_frame hi hpayload b hwhole, completeFrame_of_invalid (Bool.eq_false_iff.mpr (mt hvalid.mp hno))]
    rfl
  · obtain ⟨hvalid, hcode⟩ := hi.wholeFrame hopen hpayload b hwhole
    obtain ⟨hon, hnone⟩ := not_or.mp (mt (State.typeAccepted_iff hcode).mpr hno)
    rw [feedByte_whole_frame hi hpayload b hwhole,
      completeFrame_of_dropped (hvalid.mpr hyes) (Bool.eq_true_of_not_eq_false hon) (State.filterEntry_eq_none_iff.mpr hnone)]
    exact ⟨rfl, hcode⟩
  · obtain ⟨hvalid, hcode⟩ := hi.wholeFrame hopen hpayload b hwhole
    have hput := State.putByte_whole (hn b) hwhole
    rw [feedByte_whole_frame hi hpayload b hwhole]
    cases hen : s.tfEn with
    | false =>
      rw [completeFrame_of_unfiltered (hvalid.mpr hyes) hen, hput]
      exact ⟨rfl, hcode, fun _ => rfl, nofun⟩
    | true =>
      have hentry := ((State.typeAccepted_iff hcode).mp hacc).resolve_left (by rw [hen]; nofun)
      obtain ⟨j, hj⟩ := Option.ne_none_iff_exists'.mp (mt State.filterEntry_eq_none_iff.mp (not_not_intro hentry))
      obtain ⟨⟨hentryValid, hentryType⟩, hlt, hfirst⟩ := State.filterEntry_eq_some_iff.mp hj
      have hidx : (BitVec.ofNat 4 j).toNat = j := Nat.mod_eq_of_lt hlt
      rw [completeFrame_of_entry (hvalid.mpr hyes) hen hj, hput]
      dsimp only [State.finish]
      rw [hidx]
      exact ⟨rfl, hcode, nofun, fun _ => ⟨hentryValid, hentryType, hfirst⟩⟩

end Sys2Proof.Machine
end

section
/-! The resync bound (41_synchronizer.md R134): garbage passes through the window, the pattern begins the frame, its bytes fill BUF, and
its last byte decides. -/

namespace Sys2Proof.Machine

/-! ## States that differ in SYNC only -/

theorem SyncOnly.legalFrame {s t : State} (h : SyncOnly s t) {f : List Byte} (hf : s.legalFrame f) : t.legalFrame f := by
  rw [h]; exact hf

theorem SyncOnly.typeAccepted {s t : State} (h : SyncOnly s t) (f : List Byte) : t.typeAccepted f ↔ s.typeAccepted f := by
  rw [h]; rfl

theorem SyncOnly.syncLen {s t : State} (h : SyncOnly s t) : t.syncLen = s.syncLen := State.syncLen_congr s t h.cfg
theorem SyncOnly.pattern {s t : State} (h : SyncOnly s t) : t.pattern = s.pattern := State.pattern_congr s t h.cfg

/-! ## Ends of byte strings -/

/-- Only the last `n` of the bytes before matter for the last `n` of all. -/
theorem rtake_rtake_append (n : Nat) (l m : List Byte) : (l.rtake n ++ m).rtake n = (l ++ m).rtake n := by
  simp only [List.rtake_eq_reverse_take_reverse, List.reverse_append, List.reverse_reverse, List.take_append, List.take_take,
    Nat.min_eq_left (Nat.sub_le ..)]

theorem rtake_append_right (l m : List Byte) : (l ++ m).rtake m.length = m := by
  rw [List.rtake, List.length_append, Nat.add_sub_cancel, List.drop_left]

/-- The end of a beginning, as a piece of the whole. -/
theorem rtake_take {l : List Byte} {k n : Nat} (hk : k ≤ l.length) (hn : n ≤ k) : (l.take k).rtake n = (l.drop (k - n)).take n := by
  rw [List.rtake, List.length_take_of_le hk, List.drop_take, Nat.sub_sub_self hn]

/-! ## Garbage (41_synchronizer.md R121, R124) -/

/-- Bytes that never complete the pattern only pass through the window. -/
theorem feedAll_of_no_match {s : State} (hi : s.Inv) (hopen : s.isOpen = true) (hseek : s.sstate = .seeking) (bs : List Byte)
    (hno : ∀ m, m ≤ bs.length → 0 < m → (s.validWindow ++ bs.take m).rtake s.syncLen ≠ s.pattern.take s.syncLen) :
    ∃ u, feedAll bs s = .next u ∧ SyncOnly s u ∧ u.Inv ∧ u.sstate = .seeking ∧ (bs ≠ [] → u.code = .ok) ∧
      u.validWindow = (s.validWindow ++ bs).rtake s.syncLen := by
  induction bs using List.reverseRecOn with
  | nil =>
    obtain ⟨_, _, hcnt, _⟩ := hi.seeking hopen hseek
    refine ⟨s, rfl, .refl s, hi, hseek, fun h => absurd rfl h, ?_⟩
    have hlen : s.validWindow.length ≤ s.syncLen := (List.length_take_le ..).trans hcnt
    rw [List.append_nil, List.rtake, Nat.sub_eq_zero_of_le hlen, List.drop_zero]
  | append_singleton bs b ih =>
    obtain ⟨u, hu, hsync, hui, huseek, _, hwin⟩ := ih fun m hm hpos => by
      have := hno m (by rw [List.length_append]; omega) hpos
      rwa [List.take_append_of_le_length hm] at this
    have huopen := hsync.isOpen.trans hopen
    have hend : (u.validWindow ++ [b]).rtake u.syncLen = (s.validWindow ++ (bs ++ [b])).rtake s.syncLen := by
      rw [hwin, hsync.syncLen, rtake_rtake_append, List.append_assoc]
    have hne : (u.validWindow ++ [b]).rtake u.syncLen ≠ u.pattern.take u.syncLen := by
      have := hno (bs ++ [b]).length (le_refl _) (by simp)
      rwa [List.take_length, ← hend, ← hsync.pattern, ← hsync.syncLen] at this
    have hfree : u.sstate ≠ .complete := by rw [huseek]; nofun
    obtain ⟨hstate, hwin'⟩ := feedByte_of_no_match hui huopen huseek hne
    refine ⟨_, feedAll_append_byte hu huopen hfree b, hsync.trans (feedByte_syncOnly b u), hui.feedByte huopen hfree b, ?_, fun _ => ?_,
      hwin'.trans hend⟩
    · rw [hstate]; exact huseek
    · rw [hstate]

/-! ## The bytes of a frame (41_synchronizer.md R125 to R128) -/

theorem State.legalFrame.sync_bytes {s : State} {f : List Byte} (h : s.legalFrame f) : f.take s.syncLen = s.pattern.take s.syncLen := h.1

/-- What a legal frame's length is made of. -/
theorem State.legalFrame.length_bounds {s : State} {f : List Byte} (h : s.legalFrame f) :
    s.hdrLen + 1 + s.trl ≤ f.length ∧ f.length < 2 ^ 16 := by
  obtain ⟨_, ⟨l, _, hpos, hlen⟩, hmax, _⟩ := h
  exact ⟨by omega, hmax.trans_lt s.frameMax_lt⟩

/-- SYNC has taken the first `n` bytes of a legal frame. -/
structure Collecting (frame : List Byte) (n : Nat) (s : State) : Prop where
  inv : s.Inv
  isOpen : s.isOpen = true
  legal : s.legalFrame frame
  count : s.nbyte.toNat = n
  bytes : Memory.slice s.buf 0 n = frame.take n
  sstate : s.sstate = if n < s.hdrLen then .header else .payload
  flen : s.lenOff + lenWidth s.lenEnc ≤ n → s.flen.toNat = frame.length

theorem Collecting.sstate_cases {frame : List Byte} {n : Nat} {s : State} (h : Collecting frame n s) :
    (n < s.hdrLen ∧ s.sstate = .header) ∨ (s.hdrLen ≤ n ∧ s.sstate = .payload) := by
  by_cases hn : n < s.hdrLen
  · exact .inl ⟨hn, h.sstate.trans (if_pos hn)⟩
  · exact .inr ⟨Nat.le_of_not_lt hn, h.sstate.trans (if_neg hn)⟩

theorem Collecting.storing {frame : List Byte} {n : Nat} {s : State} (h : Collecting frame n s) : s.sstate = .header ∨ s.sstate = .payload :=
  h.sstate_cases.imp And.right And.right

theorem Collecting.free {frame : List Byte} {n : Nat} {s : State} (h : Collecting frame n s) : s.sstate ≠ .complete := by
  rcases h.storing with heq | heq <;> rw [heq] <;> nofun

/-- The next byte of the frame stands in BUF behind those before it. -/
theorem Collecting.slice_write {frame : List Byte} {n : Nat} {s : State} (h : Collecting frame n s) (hn : n < frame.length) :
    Memory.slice (Memory.write s.buf s.nbyte.toNat frame[n]) 0 (n + 1) = frame.take (n + 1) := by
  have hslice := Memory.slice_write_end h.inv.bufWf 0 n frame[n]
  rw [Nat.zero_add] at hslice
  rw [h.count, hslice, h.bytes, List.take_append_getElem]

theorem Collecting.feedByte_bytes {frame : List Byte} {n : Nat} {s : State} (h : Collecting frame n s) (hn : n < frame.length) :
    Memory.slice (feedByte frame[n] s).buf 0 (n + 1) = frame.take (n + 1) := by
  rw [feedByte_stores h.storing]; exact h.slice_write hn

/-- The next byte advances SYNC in the frame if it is counted and leaves SSTATE and FLEN as that place in the frame wants them. -/
theorem Collecting.advance {frame : List Byte} {n : Nat} {s : State} (h : Collecting frame n s) (hn : n < frame.length)
    (hcount : (feedByte frame[n] s).nbyte.toNat = n + 1)
    (hstate : (feedByte frame[n] s).sstate = if n + 1 < s.hdrLen then .header else .payload)
    (hflen : s.lenOff + lenWidth s.lenEnc ≤ n + 1 → (feedByte frame[n] s).flen.toNat = frame.length) :
    Collecting frame (n + 1) (feedByte frame[n] s) := by
  have hsync := feedByte_syncOnly frame[n] s
  refine ⟨h.inv.feedByte h.isOpen h.free _, hsync.isOpen.trans h.isOpen, hsync.legalFrame h.legal, hcount, h.feedByte_bytes hn, ?_, ?_⟩
  · rw [State.hdrLen_congr s _ hsync.cfg]; exact hstate
  · rw [State.lenOff_congr s _ hsync.cfg, State.lenEnc_congr s _ hsync.cfg]; exact hflen

/-- The length field of a legal frame gives its length (41_synchronizer.md R127). -/
theorem Collecting.decodeLength {frame : List Byte} {n : Nat} {s : State} (h : Collecting frame n s) (hn : n < frame.length)
    (hend : n + 1 = s.lenOff + lenWidth s.lenEnc) : (s.putByte frame[n]).decodeLength = .ok frame.length := by
  obtain ⟨_, _, henc, _⟩ := s.cfgLegal_iff.mp (h.inv.opened h.isOpen)
  obtain ⟨_, ⟨l, hl, hpos, hlen⟩, hmax, _⟩ := h.legal
  have hfield : (s.putByte frame[n]).lengthField = some l := by
    rw [← hl, State.lengthField]
    show lengthTable s.lenEnc (Memory.slice (Memory.write s.buf s.nbyte.toNat frame[n]) s.lenOff (lenWidth s.lenEnc)) = _
    rw [← Memory.take_drop_slice _ hend.ge, h.slice_write hn, List.drop_take, List.take_take, hend, Nat.add_sub_cancel_left, Nat.min_self]
  rw [State.decodeLength_of_some (s := s.putByte frame[n]) henc hfield, if_neg hpos.ne', if_neg, hlen]
  · rfl
  · show ¬ s.frameMax < s.hdrLen + l + s.trl
    omega

theorem State.afterHeaderByte_eq {s : State} (h : s.nbyte.toNat < s.hdrLen) :
    s.afterHeaderByte = if s.nbyte.toNat + 1 < s.hdrLen then .header else .payload := by
  by_cases hend : s.nbyte.toNat + 1 = s.hdrLen
  · rw [afterHeaderByte, if_pos hend, if_neg (by omega)]
  · rw [afterHeaderByte, if_neg hend, if_pos (by omega)]

/-- A byte of the frame before the last is taken with outcome OK. -/
theorem Collecting.next {frame : List Byte} {n : Nat} {s : State} (h : Collecting frame n s) (hn : n + 1 < frame.length) :
    Collecting frame (n + 1) (feedByte frame[n] s) ∧ (feedByte frame[n] s).code = .ok := by
  have hcount := h.count
  have hlength := h.legal.length_bounds
  rcases h.sstate_cases with ⟨hlt, hheader⟩ | ⟨hge, hpayload⟩
  · obtain ⟨_, _, hput⟩ := h.inv.header h.isOpen hheader
    have hcounted : (s.putByte frame[n]).nbyte.toNat = n + 1 := (hput _).trans (by rw [hcount])
    have hafter : s.afterHeaderByte = if n + 1 < s.hdrLen then .header else .payload := hcount ▸ State.afterHeaderByte_eq (by omega)
    by_cases hend : n + 1 = s.lenOff + lenWidth s.lenEnc
    · have heq := feedByte_length_ok h.inv h.isOpen hheader (by omega) (h.decodeLength (by omega) hend)
      refine ⟨h.advance (by omega) ?_ ?_ fun _ => ?_, ?_⟩ <;> rw [heq]
      · exact hcounted
      · exact hafter
      · exact Nat.mod_eq_of_lt hlength.2
    · have heq := feedByte_inside_header h.inv h.isOpen hheader frame[n] (by omega)
      refine ⟨h.advance (by omega) ?_ ?_ fun hle => ?_, ?_⟩ <;> rw [heq]
      · exact hcounted
      · exact hafter
      · exact h.flen (by omega)
  · obtain ⟨_, _, _, hput⟩ := h.inv.payload hpayload
    have hcounted : (s.putByte frame[n]).nbyte.toNat = n + 1 := (hput _).trans (by rw [hcount])
    obtain ⟨_, _, _, _, hhdr, _, _⟩ := State.cfgLegal_bounds (h.inv.opened h.isOpen)
    have hflen := h.flen (by omega)
    have heq := feedByte_inside_payload h.inv hpayload frame[n] (by omega)
    refine ⟨h.advance (by omega) ?_ ?_ fun _ => ?_, ?_⟩ <;> rw [heq]
    · exact hcounted
    · exact hpayload.trans (if_neg (by omega)).symm
    · exact hflen
    · rfl

/-- The last byte of the frame holds it, or drops it for its type. -/
theorem Collecting.last {frame : List Byte} {n : Nat} {s : State} (h : Collecting frame n s) (hn : n + 1 = frame.length) :
    (s.typeAccepted frame → (feedByte frame[n] s).code = .frameReady ∧ (feedByte frame[n] s).sstate = .complete ∧
      (feedByte frame[n] s).flen.toNat = frame.length ∧ Memory.slice (feedByte frame[n] s).buf 0 frame.length = frame) ∧
    (¬ s.typeAccepted frame → (feedByte frame[n] s).code = .ok ∧ (feedByte frame[n] s).sstate = .seeking) := by
  obtain ⟨hmin, _⟩ := h.legal.length_bounds
  obtain ⟨_, _, _, _, hhdr, _, _⟩ := State.cfgLegal_bounds (h.inv.opened h.isOpen)
  obtain ⟨_, _, _, hvalid⟩ := h.legal
  have hpayload : s.sstate = .payload := h.sstate.trans (if_neg (by omega))
  have hflen := h.flen (by omega)
  have hcount := h.count
  have hwhole : Memory.slice s.buf 0 s.nbyte.toNat ++ [frame[n]] = frame := by
    rw [hcount, h.bytes, List.take_append_getElem, hn, List.take_length]
  have hbytes : Memory.slice (feedByte frame[n] s).buf 0 frame.length = frame := by
    have hslice := h.feedByte_bytes (show n < frame.length by omega)
    rwa [hn, List.take_length] at hslice
  obtain ⟨_, _, _, hverdicts⟩ := payloadBytesCompleteTheFrame
  obtain ⟨t, ht, _, _, _, _, hdropped, hheld⟩ := hverdicts frame[n] s h.inv h.isOpen hpayload
  obtain rfl : feedByte frame[n] s = t := by
    rw [exec_feed_of_free h.isOpen h.free] at ht; cases ht; rfl
  rw [hwhole] at hdropped hheld
  refine ⟨fun hacc => ?_, fun hno => ?_⟩
  · obtain ⟨heq, _⟩ := hheld (by omega) hvalid hacc
    refine ⟨?_, ?_, ?_, hbytes⟩ <;> rw [heq]
    exact hflen
  · obtain ⟨heq, _⟩ := hdropped (by omega) hvalid hno
    constructor <;> rw [heq]

/-- The byte that completes the pattern has SYNC hold the beginning of the frame. -/
theorem collecting_of_match {frame : List Byte} {s : State} {b : Byte} (hi : s.Inv) (hopen : s.isOpen = true) (hseek : s.sstate = .seeking)
    (hlegal : s.legalFrame frame) (h : (s.validWindow ++ [b]).rtake s.syncLen = s.pattern.take s.syncLen) :
    Collecting frame s.syncLen (feedByte b s) ∧ (feedByte b s).code = .ok := by
  obtain ⟨_, hfive, hsync, hlw, hhdr, _, _⟩ := State.cfgLegal_bounds (hi.opened hopen)
  have hsyncOnly := feedByte_syncOnly b s
  have heq := feedByte_of_match hi hopen hseek h
  refine ⟨⟨hi.feedByte hopen (by rw [hseek]; nofun) b, hsyncOnly.isOpen.trans hopen, hsyncOnly.legalFrame hlegal, ?_, ?_, ?_, fun hle => ?_⟩,
    by rw [heq]⟩
  · rw [heq]; exact Nat.mod_eq_of_lt (by omega)
  · have hslice := Memory.slice_writeList hi.bufWf 0 (s.pattern.take s.syncLen)
    rw [State.pattern_take_length hfive] at hslice
    rw [heq, hlegal.sync_bytes]
    exact hslice
  · rw [State.hdrLen_congr s _ hsyncOnly.cfg, if_pos (by omega), heq]
  · rw [State.lenOff_congr s _ hsyncOnly.cfg, State.lenEnc_congr s _ hsyncOnly.cfg] at hle
    omega

/-! ## Garbage and a frame (41_synchronizer.md R134) -/

/-- R134's condition on the bytes seen before a frame: no occurrence of the pattern begins in them. -/
def State.NoPatternBefore (s : State) (seen frame : List Byte) : Prop :=
  ∀ k, k < seen.length → ((seen ++ frame).drop k).take s.syncLen ≠ s.pattern.take s.syncLen

/-- The pattern does not end before the frame's sync bytes do, if it does not begin before the frame. -/
theorem no_match_before {s : State} {seen frame : List Byte} (hfive : s.syncLen ≤ 5) (hlong : s.syncLen ≤ frame.length)
    (hno : s.NoPatternBefore seen frame)
    {n : Nat} (hn : n < seen.length + s.syncLen) : ((seen ++ frame).take n).rtake s.syncLen ≠ s.pattern.take s.syncLen := by
  have hall : n ≤ (seen ++ frame).length := by rw [List.length_append]; omega
  by_cases hshort : n < s.syncLen
  · intro heq
    have hlen := congrArg List.length heq
    rw [State.pattern_take_length hfive, List.rtake, List.length_drop, List.length_take_of_le hall] at hlen
    omega
  · rw [rtake_take hall (Nat.le_of_not_lt hshort)]
    exact hno _ (by omega)

/-- Until the last of the frame's sync bytes, SYNC only seeks. -/
theorem feedAll_before_frame {s : State} {garbage frame : List Byte} (hi : s.Inv) (hopen : s.isOpen = true) (hseek : s.sstate = .seeking)
    (hlong : s.syncLen ≤ frame.length) (hno : s.NoPatternBefore (s.validWindow ++ garbage) frame)
    {n : Nat} (hn : n < garbage.length + s.syncLen) : ∃ u, feedAll ((garbage ++ frame).take n) s = .next u ∧ SyncOnly s u ∧ u.Inv ∧
      u.sstate = .seeking ∧ ((garbage ++ frame).take n ≠ [] → u.code = .ok) ∧
      u.validWindow = (s.validWindow ++ (garbage ++ frame).take n).rtake s.syncLen := by
  obtain ⟨_, hfive, _⟩ := hi.seeking hopen hseek
  refine feedAll_of_no_match hi hopen hseek _ fun m hm _ => ?_
  have hle : m ≤ n := hm.trans (List.length_take_le ..)
  rw [List.take_take, Nat.min_eq_left hle, ← List.take_length_add_append, ← List.append_assoc]
  exact no_match_before hfive hlong hno (by rw [List.length_append]; omega)

/-- With the last of them, SYNC has the beginning of the frame. -/
theorem feedAll_sync_bytes {s : State} {garbage frame : List Byte} (hi : s.Inv) (hopen : s.isOpen = true) (hseek : s.sstate = .seeking)
    (hlegal : s.legalFrame frame) (hlong : s.syncLen ≤ frame.length)
    (hno : s.NoPatternBefore (s.validWindow ++ garbage) frame) :
    ∃ u, feedAll (garbage ++ frame.take s.syncLen) s = .next u ∧ SyncOnly s u ∧ Collecting frame s.syncLen u ∧ u.code = .ok := by
  obtain ⟨hpos, _⟩ := hi.seeking hopen hseek
  have hin : s.syncLen - 1 < frame.length := by omega
  have hsplit : frame.take s.syncLen = frame.take (s.syncLen - 1) ++ [frame[s.syncLen - 1]] := by
    rw [List.take_append_getElem, Nat.sub_add_cancel hpos]
  obtain ⟨u, hu, hsync, hui, huseek, _, hwin⟩ :=
    feedAll_before_frame hi hopen hseek hlong hno (show garbage.length + (s.syncLen - 1) < garbage.length + s.syncLen by omega)
  rw [List.take_length_add_append] at hu hwin
  have huopen := hsync.isOpen.trans hopen
  have hmatch : (u.validWindow ++ [frame[s.syncLen - 1]]).rtake u.syncLen = u.pattern.take u.syncLen := by
    have hend := rtake_append_right (s.validWindow ++ garbage) (frame.take s.syncLen)
    rw [List.length_take_of_le hlong] at hend
    rw [hsync.syncLen, hsync.pattern, ← hlegal.sync_bytes, hwin, rtake_rtake_append, List.append_assoc, List.append_assoc, ← hsplit,
      ← List.append_assoc, hend]
  obtain ⟨hcol, hok⟩ := collecting_of_match hui huopen huseek (hsync.legalFrame hlegal) hmatch
  rw [hsync.syncLen] at hcol
  refine ⟨_, ?_, hsync.trans (feedByte_syncOnly _ u), hcol, hok⟩
  rw [hsplit, ← List.append_assoc]
  exact feedAll_append_byte hu huopen (by rw [huseek]; nofun) _

/-- The bytes of the frame behind them are taken one by one. -/
theorem feedAll_frame {s : State} {garbage frame : List Byte} (hstart : ∃ u, feedAll (garbage ++ frame.take s.syncLen) s = .next u ∧
      SyncOnly s u ∧ Collecting frame s.syncLen u ∧ u.code = .ok) {n : Nat} (hlo : s.syncLen ≤ n) :
    n < frame.length → ∃ u, feedAll (garbage ++ frame.take n) s = .next u ∧ SyncOnly s u ∧ Collecting frame n u ∧ u.code = .ok := by
  induction n, hlo using Nat.le_induction with
  | base => exact fun _ => hstart
  | succ n _ ih =>
    intro hn
    obtain ⟨u, hu, hsync, hcol, _⟩ := ih (by omega)
    obtain ⟨hnext, hok⟩ := hcol.next hn
    refine ⟨_, ?_, hsync.trans (feedByte_syncOnly _ u), hnext, hok⟩
    rw [← List.take_append_getElem (by omega), ← List.append_assoc]
    exact feedAll_append_byte hu hcol.isOpen hcol.free _

/-- Settles O33: SYNC seeks until the frame's last sync byte, collects until its last byte, and decides on that. -/
theorem resyncWithinGarbagePlusFrame : Obligations.ResyncWithinGarbagePlusFrame := by
  intro s garbage frame hi hopen hseek hlegal hno
  obtain ⟨_, _, hcnt, _⟩ := hi.seeking hopen hseek
  obtain ⟨_, _, _, _, hhdr, _, _⟩ := State.cfgLegal_bounds (hi.opened hopen)
  obtain ⟨hmin, _⟩ := hlegal.length_bounds
  have hseen : (s.validWindow ++ garbage).length = s.wcnt + garbage.length := by
    rw [List.length_append, State.validWindow, List.length_take_of_le (by rw [hi.winLen]; omega)]
  have hnone : s.NoPatternBefore (s.validWindow ++ garbage) frame := fun k hk => hno k (hseen ▸ hk)
  have hcollecting {n : Nat} := feedAll_frame (n := n) (feedAll_sync_bytes hi hopen hseek hlegal (by omega) hnone)
  obtain ⟨v, hv, hsync, hcol, _⟩ := hcollecting (n := frame.length - 1) (by omega) (by omega)
  have hlast := feedAll_append_byte hv hcol.isOpen hcol.free frame[frame.length - 1]
  rw [List.append_assoc, List.take_append_getElem, Nat.sub_add_cancel (by omega), List.take_length] at hlast
  obtain ⟨haccepted, hdropped⟩ := hcol.last (by omega)
  rw [hsync.typeAccepted] at haccepted hdropped
  refine ⟨_, hlast, fun n hpos hn => ?_, haccepted, hdropped⟩
  by_cases hearly : n < garbage.length + s.syncLen
  · obtain ⟨u, hu, _, _, huseek, hok, _⟩ := feedAll_before_frame hi hopen hseek (by omega) hnone hearly
    refine ⟨u, hu, hok (List.ne_nil_of_length_pos ?_), fun _ => huseek, fun h => absurd h hearly.ne⟩
    rw [List.length_take, List.length_append]; omega
  · obtain ⟨m, rfl⟩ := Nat.exists_eq_add_of_le (show garbage.length ≤ n by omega)
    obtain ⟨u, hu, hsync, hcol, hok⟩ := hcollecting (n := m) (by omega) (by omega)
    rw [List.take_length_add_append]
    refine ⟨u, hu, hok, fun h => absurd h hearly, fun h => ?_⟩
    obtain rfl : m = s.syncLen := Nat.add_left_cancel h
    rw [hcol.sstate, State.hdrLen_congr s u hsync.cfg, if_pos (by omega)]
    exact ⟨rfl, hcol.count⟩

end Sys2Proof.Machine
end

section
/-! The checksum unit (42_checksum.md): the byte steps on numbers, the trailer as an input that brings the computation to 0, what one
wrong byte does to a frame, and the commands CK.INIT, CK.UPD, CK.FIN and CK.FRM. -/

namespace Sys2Proof.Machine

/-! ## The byte steps (42_checksum.md R151 to R155) -/

theorem low8_toNat (acc : Word) : (low8 acc).toNat = acc.toNat % 2 ^ 8 := BitVec.toNat_setWidth ..

theorem setWidth32_toNat (b : Byte) : (b.setWidth 32).toNat = b.toNat := by
  rw [BitVec.toNat_setWidth, Nat.mod_eq_of_lt (b.isLt.trans (by decide))]

theorem Alg.step_rotxor_toNat {acc : Word} (h : acc.toNat < 2 ^ 8) (b : Byte) :
    (Alg.step .rotxor acc b).toNat = (acc.toNat * 2 ^ 2 % 2 ^ 8 + acc.toNat / 2 ^ 6) ^^^ b.toNat := by
  rw [Alg.step, setWidth32_toNat, BitVec.toNat_xor, rotl8_toNat, low8_toNat, Nat.mod_eq_of_lt h]

theorem Alg.step_xor_toNat {acc : Word} (h : acc.toNat < 2 ^ 8) (b : Byte) : (Alg.step .xor acc b).toNat = acc.toNat ^^^ b.toNat := by
  rw [Alg.step, setWidth32_toNat, BitVec.toNat_xor, low8_toNat, Nat.mod_eq_of_lt h]

theorem Alg.step_add8_toNat {acc : Word} (h : acc.toNat < 2 ^ 8) (b : Byte) :
    (Alg.step .add8 acc b).toNat = (acc.toNat + b.toNat) % 256 := by
  rw [Alg.step, setWidth32_toNat, BitVec.toNat_add, low8_toNat, Nat.mod_eq_of_lt h]

/-- One bit of CRC-32 as a function of numbers. -/
def crc32Round (x : Nat) : Nat := if x % 2 = 1 then (x / 2) ^^^ 0xEDB88320 else x / 2

/-- One bit of CRC-24Q as a function of numbers. -/
def crc24qRound (x : Nat) : Nat := if x * 2 / 2 ^ 24 % 2 = 1 then (x * 2) ^^^ 0x1864CFB else x * 2

theorem Alg.step_crc32_toNat (acc : Word) (b : Byte) : (Alg.step .crc32 acc b).toNat = crc32Round^[8] (acc.toNat ^^^ b.toNat) := by
  have hbits := repeatN_toNat (g := crc32Round) (P := fun _ => True) (fun _ _ => trivial) (fun x _ => crc32Bit_toNat x) 8
    (acc ^^^ b.setWidth 32) trivial
  rw [Alg.step, hbits, BitVec.toNat_xor, setWidth32_toNat]

/-- The byte enters CRC-24Q's accumulator at bits 23:16. -/
theorem crc24q_entry_toNat (acc : Word) (b : Byte) : (acc ^^^ (b.setWidth 32 <<< 16)).toNat = acc.toNat ^^^ (b.toNat * 2 ^ 16) := by
  have := b.isLt
  rw [BitVec.toNat_xor, BitVec.toNat_shiftLeft, setWidth32_toNat, Nat.shiftLeft_eq, Nat.mod_eq_of_lt (by omega)]

/-- Every round keeps 24 bits, so the mask at the end has nothing to clear. -/
theorem Alg.step_crc24q_toNat {acc : Word} (h : acc.toNat < 2 ^ 24) (b : Byte) :
    (Alg.step .crc24q acc b).toNat = crc24qRound^[8] (acc.toNat ^^^ (b.toNat * 2 ^ 16)) % 2 ^ 24 := by
  have hentry := crc24q_entry_lt h b
  have hlt := repeatN_lt (fun _ => crc24qBit_lt) 8 _ hentry
  have hbits := repeatN_toNat (g := crc24qRound) (P := fun x => x.toNat < 2 ^ 24) (fun _ => crc24qBit_lt) (fun _ => crc24qBit_toNat) 8 _ hentry
  rw [crc24q_step_eq h, ← crc24q_entry_toNat, ← hbits, Nat.mod_eq_of_lt hlt]

/-- Settles O34: the byte steps on numbers; the rows of check values by running the model on their bytes. -/
theorem checkValuesOfTheAlgorithms : Obligations.CheckValuesOfTheAlgorithms := by
  refine ⟨fun acc b h => ⟨Alg.step_rotxor_toNat h b, Alg.step_xor_toNat h b, Alg.step_add8_toNat h b⟩, Alg.step_crc32_toNat,
    fun _ b h => Alg.step_crc24q_toNat h b, ?_⟩
  simp [Alg.step, Alg.final, low8, rotl8, repeatN, crc32Bit, crc24qBit]

/-! ## The residue (42_checksum.md R156, R157) -/

/-- While nothing reaches bit 24, CRC-24Q's bits only shift. -/
theorem repeatN_crc24qBit_toNat (n : Nat) : ∀ x : Word, x.toNat * 2 ^ n < 2 ^ 24 → (repeatN crc24qBit n x).toNat = x.toNat * 2 ^ n := by
  induction n with
  | zero => intro x _; exact (Nat.mul_one _).symm
  | succ n ih =>
    intro x hx
    have hpow : x.toNat * 2 ^ (n + 1) = x.toNat * 2 * 2 ^ n := by ring
    have hdouble : x.toNat * 2 < 2 ^ 24 := (Nat.le_mul_of_pos_right _ (Nat.two_pow_pos n)).trans_lt (hpow ▸ hx)
    have hbit : (crc24qBit x).toNat = x.toNat * 2 := by
      rw [crc24qBit_toNat (by omega), Nat.div_eq_of_lt hdouble]; rfl
    rw [repeatN, ih _ (by rw [hbit, ← hpow]; exact hx), hbit, hpow]

theorem xor_high_bits (x n : Nat) : x ^^^ (x / 2 ^ n * 2 ^ n) = x % 2 ^ n := by
  refine Nat.eq_of_testBit_eq fun i => ?_
  rw [Nat.testBit_xor, Nat.testBit_mul_two_pow, Nat.testBit_mod_two_pow, Nat.testBit_div_two_pow]
  rcases Nat.lt_or_ge i n with hlt | hge
  · simp [hlt, Nat.not_le.mpr hlt]
  · simp [hge, Nat.not_lt.mpr hge]

/-- The top byte of CRC-24Q's accumulator, fed as a byte, is shifted out. -/
theorem crc24q_step_top_byte {v : Word} (h : v.toNat < 2 ^ 24) :
    (Alg.step .crc24q v (v.extractLsb' 16 8)).toNat = v.toNat * 2 ^ 8 % 2 ^ 24 := by
  have hcleared : (v ^^^ ((v.extractLsb' 16 8).setWidth 32 <<< 16)).toNat = v.toNat % 2 ^ 16 := by
    rw [crc24q_entry_toNat, slice_toNat, Nat.mod_eq_of_lt (a := v.toNat / 2 ^ 16) (by omega), xor_high_bits]
  rw [crc24q_step_eq h, repeatN_crc24qBit_toNat, hcleared] <;> omega

/-- A value of XOR or CRC-24Q, fed its own trailer, becomes 0: XOR's byte cancels it, and each of CRC-24Q's is the top byte of what the
bytes before it left. -/
theorem Alg.run_serialize {a : Alg} (ha : a = .xor ∨ a = .crc24q) {v : Word} (hv : accOk (some a) v) : a.run v (a.serialize v) = 0 := by
  rcases ha with rfl | rfl
  · have hlow : low8 v = v.extractLsb' 0 8 := BitVec.eq_of_toNat_eq (by rw [low8_toNat, lowSlice_toNat])
    rw [Alg.serialize, Alg.run_cons, Alg.run_nil, Alg.step, hlow, BitVec.xor_self]; rfl
  · obtain ⟨v1, hv1⟩ : ∃ v1, v1 = Alg.step .crc24q v (v.extractLsb' 16 8) := ⟨_, rfl⟩
    obtain ⟨v2, hv2⟩ : ∃ v2, v2 = Alg.step .crc24q v1 (v1.extractLsb' 16 8) := ⟨_, rfl⟩
    have h1 : v1.toNat = v.toNat * 2 ^ 8 % 2 ^ 24 := hv1 ▸ crc24q_step_top_byte hv
    have h2 : v2.toNat = v1.toNat * 2 ^ 8 % 2 ^ 24 := hv2 ▸ crc24q_step_top_byte (by omega)
    have h3 := crc24q_step_top_byte (v := v2) (by omega)
    have hsecond : v.extractLsb' 8 8 = v1.extractLsb' 16 8 := BitVec.eq_of_toNat_eq (by rw [slice_toNat, slice_toNat]; omega)
    have hthird : v.extractLsb' 0 8 = v2.extractLsb' 16 8 := BitVec.eq_of_toNat_eq (by rw [slice_toNat, slice_toNat]; omega)
    rw [Alg.serialize, Alg.run_cons, Alg.run_cons, Alg.run_cons, Alg.run_nil, ← hv1, hsecond, ← hv2, hthird]
    exact BitVec.eq_of_toNat_eq (h3.trans (show _ = 0 by omega))

/-- The byte order in which an algorithm's trailer holds its value (42_checksum.md R156). -/
def Alg.trailerOrder : Alg → Endian
  | .rotxor | .xor | .add8 | .crc32 => .little
  | .crc24q => .big

theorem Alg.bytesNat_serialize (a : Alg) {v : Word} (hv : accOk (some a) v) : bytesNat a.trailerOrder (a.serialize v) = v.toNat := by
  have hword := v.isLt
  cases a with
  | rotxor | xor | add8 =>
    have hbyte : v.toNat < 2 ^ 8 := hv
    simp [trailerOrder, bytesNat, leNat, serialize]; omega
  | crc32 => simp [trailerOrder, bytesNat, leNat, serialize]; omega
  | crc24q =>
    have h24 : v.toNat < 2 ^ 24 := hv
    simp [trailerOrder, bytesNat, leNat, serialize]; omega

theorem Alg.serialize_injective (a : Alg) {x y : Word} (hx : accOk (some a) x) (hy : accOk (some a) y)
    (h : a.serialize x = a.serialize y) : x = y :=
  BitVec.eq_of_toNat_eq (by rw [← a.bytesNat_serialize hx, h, a.bytesNat_serialize hy])

/-- Every string of TRL bytes is the trailer of a value. -/
theorem Alg.serialize_surjective (a : Alg) {tr : List Byte} (h : tr.length = a.trl) : ∃ v, accOk (some a) v ∧ a.serialize v = tr := by
  refine ⟨BitVec.ofNat 32 (bytesNat a.trailerOrder tr), ?_, List.map_injective_iff.mpr (fun _ _ => BitVec.eq_of_toNat_eq) ?_⟩
  · have hbound := bytesNat_lt a.trailerOrder tr
    rw [h] at hbound
    cases a <;> simp only [accOk, BitVec.toNat_ofNat] <;> exact (Nat.mod_le ..).trans_lt hbound
  · rw [Alg.serialize_toNat, BitVec.toNat_ofNat]
    match a, tr, h with
    | .rotxor, [b], _ | .xor, [b], _ | .add8, [b], _ => simp [trailerOrder, bytesNat, leNat]; omega
    | .crc32, [b0, b1, b2, b3], _ => simp [trailerOrder, bytesNat, leNat]; omega
    | .crc24q, [b0, b1, b2], _ => simp [trailerOrder, bytesNat, leNat]; omega

/-- Settles O35: the trailer of a value brings it to 0, and no other value, because a byte string loses nothing of the accumulator. -/
theorem residueIsZeroExactlyForTheTrailer : Obligations.ResidueIsZeroExactlyForTheTrailer := by
  intro s a d tr ha hlen
  have hfinal : ∀ acc, a.final s.ckRotf s.cfg.crc32Xorout acc = acc := by rcases ha with rfl | rfl <;> exact fun _ => rfl
  have hacc : accOk (some a) (a.run (a.init s.cfg.crc32Init) d) := accOk_run a d _ (accOk_init a _)
  simp only [State.ckCompute, hfinal, Alg.run_append]
  constructor
  · intro hzero
    obtain ⟨v, hv, rfl⟩ := a.serialize_surjective hlen
    rw [a.run_injective_acc _ hacc hv (hzero.trans (Alg.run_serialize ha hv).symm)]
  · rintro rfl
    exact Alg.run_serialize ha hacc

/-! ## One wrong byte (42_checksum.md R162) -/

/-- The final value fits the width of its algorithm. -/
theorem Alg.accOk_final (a : Alg) (rotf : Bool) (xorout : Word) {acc : Word} (h : accOk (some a) acc) :
    accOk (some a) (a.final rotf xorout acc) := by
  cases a with
  | rotxor =>
    cases rotf
    · exact h
    · exact (setWidth32_toNat _).trans_lt (rotl8 (low8 acc) 2).isLt
  | xor | add8 | crc24q => exact h
  | crc32 => trivial

/-- The final value loses nothing of the accumulator. -/
theorem Alg.final_injective (a : Alg) (rotf : Bool) (xorout : Word) {x y : Word} (hx : accOk (some a) x) (hy : accOk (some a) y)
    (h : a.final rotf xorout x = a.final rotf xorout y) : x = y := by
  cases a with
  | rotxor =>
    cases rotf
    · exact h
    · exact low8_injective hx hy (rotl8_two_injective _ _ (setWidth32_injective h))
  | xor | add8 | crc24q => exact h
  | crc32 => exact xor_cancel_right h

theorem State.accOk_ckCompute (s : State) (a : Alg) (d : List Byte) : accOk (some a) (s.ckCompute a d) :=
  a.accOk_final _ _ (accOk_run a d _ (accOk_init a _))

/-- Byte strings that differ in one byte have different values: no byte is lost, nor the accumulator after it. -/
theorem State.ckCompute_ne_of_one_byte (s : State) (a : Alg) (p q : List Byte) {b c : Byte} (hne : b ≠ c) :
    s.ckCompute a (p ++ b :: q) ≠ s.ckCompute a (p ++ c :: q) := by
  have hacc (d : List Byte) : accOk (some a) (a.run (a.init s.cfg.crc32Init) d) := accOk_run a d _ (accOk_init a _)
  intro heq
  have hrun := a.final_injective _ _ (hacc _) (hacc _) heq
  rw [Alg.run_append, Alg.run_append, Alg.run_cons, Alg.run_cons] at hrun
  exact hne (a.step_injective_byte (hacc p) (a.run_injective_acc q (accOk_step a _ b) (accOk_step a _ c) hrun))

/-- Lists that agree but at one place are the same before it and behind it. -/
theorem split_at_difference {f g : List Byte} {k : Nat} (hlen : f.length = g.length) (hk : k < f.length)
    (hsame : ∀ i, i ≠ k → f.getD i 0 = g.getD i 0) :
    ∃ p q, p.length = k ∧ f = p ++ f.getD k 0 :: q ∧ g = p ++ g.getD k 0 :: q := by
  refine ⟨f.take k, f.drop (k + 1), List.length_take_of_le hk.le, ?_, ?_⟩
  · rw [List.getD_eq_getElem f 0 hk, ← List.drop_eq_getElem_cons, List.take_append_drop]
  · rw [← List.set_eq_take_cons_drop _ hk]
    refine List.ext_getElem (by rw [List.length_set, hlen]) fun i hg hf => ?_
    rw [List.length_set] at hf
    rcases eq_or_ne i k with rfl | hne
    · rw [List.getElem_set_self, List.getD_eq_getElem]
    · have heq := hsame i hne
      rw [List.getD_eq_getElem f 0 hf, List.getD_eq_getElem g 0 hg] at heq
      rw [List.getElem_set_ne hne.symm, heq]

/-- The checksum test under an algorithm (41_synchronizer.md R129), with the trailer inside the range or beside it. -/
theorem State.validFrame_iff {s : State} {a : Alg} (hck : s.ckAlg = some a) (f : List Byte) : s.validFrame f ↔
    if s.ckIncl then s.ckCompute a (f.drop s.ckStart) = 0
    else a.serialize (s.ckCompute a ((f.take (f.length - a.trl)).drop s.ckStart)) = f.drop (f.length - a.trl) := by
  rw [State.validFrame, hck]

/-- Settles O36: the wrong byte changes the value of the range, or the trailer beside an unchanged value. -/
theorem oneWrongByteIsRejected : Obligations.OneWrongByteIsRejected := by
  intro s f g k a _ hck _ hlen hlo hk hne hsame hf hg
  obtain ⟨p, q, rfl, hfsplit, hgsplit⟩ := split_at_difference hlen hk hsame
  rw [State.validFrame_iff hck] at hf hg
  rw [← hlen] at hg
  generalize f.length - a.trl = n at hf hg
  generalize f.getD p.length 0 = b, g.getD p.length 0 = c at hne hfsplit hgsplit
  subst hfsplit hgsplit
  by_cases hincl : s.ckIncl = true
  · rw [if_pos hincl, List.drop_append_of_le_length hlo] at hf hg
    exact s.ckCompute_ne_of_one_byte a _ q hne (hf.trans hg.symm)
  rw [if_neg hincl] at hf hg
  rcases Nat.lt_or_ge p.length n with hrange | htrailer
  · obtain ⟨m, rfl⟩ := Nat.exists_eq_add_of_lt hrange
    have htail (x : Byte) : (p ++ x :: q).drop (p.length + m + 1) = q.drop m := by
      rw [Nat.add_assoc, List.drop_length_add_append, List.drop_succ_cons]
    have hdata (x : Byte) : ((p ++ x :: q).take (p.length + m + 1)).drop s.ckStart = p.drop s.ckStart ++ x :: q.take m := by
      rw [Nat.add_assoc, List.take_length_add_append, List.take_succ_cons, List.drop_append_of_le_length hlo]
    rw [hdata, htail] at hf hg
    exact s.ckCompute_ne_of_one_byte a _ _ hne (a.serialize_injective (s.accOk_ckCompute a _) (s.accOk_ckCompute a _) (hf.trans hg.symm))
  · rw [List.take_append_of_le_length htrailer, List.drop_append_of_le_length htrailer] at hf hg
    exact hne (List.cons.inj (List.append_cancel_left (hf.symm.trans hg))).1

/-! ## CK.INIT (42_checksum.md R158) -/

theorem exec_ckInit_of_alg {alg : BitVec 3} {a : Alg} (h : Alg.ofBits alg = some a) (f : Bool) (s : State) :
    exec (.ckInit f alg) s = .next { s with cka := some a, ckf := f, acc := a.init s.cfg.crc32Init, code := .ok, cause := .none } := by
  rw [exec, execCkInit, h]; rfl

/-- Settles O37: a legal ALG is the number of one of the five algorithms. -/
theorem ckInitStartsTheAccumulator : Obligations.CkInitStartsTheAccumulator := by
  refine ⟨decode_eq_ok_iff_encode.mpr (by decide), fun f alg s hlo hhi => ?_⟩
  obtain ⟨a, ha, rfl⟩ := Alg.ofBits_isSome (decide_eq_true ⟨hlo, hhi⟩)
  rw [exec_ckInit_of_alg ha]
  cases a <;> rfl

/-! ## CK.UPD (42_checksum.md R159) -/

theorem exec_ckUpd_of_none {cnt : BitVec 3} (hcnt : cntLegal cnt = true) {s : State} (h : s.cka = none) :
    exec (.ckUpd cnt) s = .next (s.finish .refused .wrongState) := by
  rw [exec, execCkUpd, if_pos hcnt, h]; rfl

theorem exec_ckUpd_of_some {cnt : BitVec 3} (hcnt : cntLegal cnt = true) {s : State} {a : Alg} (h : s.cka = some a) :
    exec (.ckUpd cnt) s = .next ((s.setAcc (a.run s.acc (s.argBytesFrom 0 cnt.toNat))).finish .ok .none) := by
  rw [exec, execCkUpd, if_pos hcnt, h, State.argBytesFrom, ← List.range_eq_range']; rfl

/-- Settles O38: the bytes of ARG0 that CK.UPD folds are the slices of the statement. -/
theorem ckUpdFoldsTheBytes : Obligations.CkUpdFoldsTheBytes := by
  refine ⟨decode_eq_ok_iff_encode.mpr (by decide), fun cnt s hlo hhi => ?_⟩
  have hcnt : cntLegal cnt = true := decide_eq_true ⟨hlo, hhi⟩
  refine ⟨exec_ckUpd_of_none hcnt, fun a ha => ?_⟩
  rw [exec_ckUpd_of_some hcnt ha, State.argBytesFrom_zero]; rfl

/-! ## CK.FIN (42_checksum.md R160) -/

theorem exec_ckFin_of_none {s : State} (h : s.cka = none) : exec .ckFin s = .next (s.finish .refused .wrongState) := by
  rw [exec, execCkFin, h]; rfl

/-- The final value that CK.FIN reads. -/
def State.ckFinal (s : State) (a : Alg) : Word := a.final s.ckf s.cfg.crc32Xorout s.acc

theorem exec_ckFin_of_some {s : State} {a : Alg} (h : s.cka = some a) : exec .ckFin s =
    .next ((s.setRes (pair (BitVec.ofNat 32 (leNat (a.serialize (s.ckFinal a)))) (s.ckFinal a))).finish .ok .none) := by
  rw [exec, execCkFin, h]; rfl

theorem State.ckFinal_rotxor_toNat (s : State) : (s.ckFinal .rotxor).toNat =
    if s.ckf then s.acc.toNat % 2 ^ 8 * 2 ^ 2 % 2 ^ 8 + s.acc.toNat % 2 ^ 8 / 2 ^ 6 else s.acc.toNat := by
  rw [ckFinal, Alg.final, apply_ite BitVec.toNat, setWidth32_toNat, rotl8_toNat, low8_toNat]

/-- The trailer bytes of a value packed with byte 0 lowest, as the number they make. -/
theorem Alg.leNat_serialize (a : Alg) (w : Word) : leNat (a.serialize w) =
    let v := w.toNat
    match a with
    | .rotxor | .xor | .add8 => v % 2 ^ 8
    | .crc32 => v % 2 ^ 8 + 2 ^ 8 * (v / 2 ^ 8 % 2 ^ 8) + 2 ^ 16 * (v / 2 ^ 16 % 2 ^ 8) + 2 ^ 24 * (v / 2 ^ 24)
    | .crc24q => v / 2 ^ 16 % 2 ^ 8 + 2 ^ 8 * (v / 2 ^ 8 % 2 ^ 8) + 2 ^ 16 * (v % 2 ^ 8) := by
  have := w.isLt
  cases a <;> simp [leNat, serialize] <;> omega

theorem Alg.leNat_serialize_lt (a : Alg) (w : Word) : leNat (a.serialize w) < 2 ^ 32 := by
  have hbound := leNat_lt (a.serialize w)
  rw [serialize_length] at hbound
  refine hbound.trans_le ?_
  cases a <;> decide

/-- Settles O39: RES0 is the final value and RES1 the number its trailer bytes make, which fits a word. -/
theorem ckFinReadsTheValueAndTrailer : Obligations.CkFinReadsTheValueAndTrailer := by
  refine ⟨decode_eq_ok_iff_encode.mpr (by decide), fun s => ⟨exec_ckFin_of_none, fun a ha => ⟨_, exec_ckFin_of_some ha, rfl, ?_, ?_⟩⟩⟩ <;>
    simp only [State.finish_res0, State.finish_res1, State.setRes_res0, State.setRes_res1, pair_low, pair_high]
  · cases a with
    | rotxor => exact s.ckFinal_rotxor_toNat
    | xor | add8 | crc32 | crc24q => rfl
  · rw [BitVec.toNat_ofNat, Nat.mod_eq_of_lt (a.leNat_serialize_lt _)]
    cases a <;> exact Alg.leNat_serialize ..

/-! ## CK.FRM (42_checksum.md R161) -/

theorem exec_ckFrm_of_none {s : State} (h : s.cka = none) (off : BitVec 16) :
    exec (.ckFrm off) s = .next (s.finish .refused .wrongState) := by
  rw [exec, execCkFrm, h]; rfl

theorem exec_ckFrm_of_some {s : State} {a : Alg} (h : s.cka = some a) (off : BitVec 16) : exec (.ckFrm off) s =
    if s.frameBound < off.toNat + s.arg0.toNat then .next (s.finish .error .oob)
    else .next ((s.setAcc (a.run s.acc (s.bufBytes off.toNat s.arg0.toNat))).finish .ok .none) := by
  rw [exec, execCkFrm, h]; rfl

theorem State.frameBound_eq (s : State) : s.frameBound = if s.sstate = .complete then s.flen.toNat else 0 := by
  unfold State.frameBound
  cases s.sstate <;> rfl

/-- Settles O40: the bound is that of the frame view. -/
theorem ckFrmFoldsTheHeldFrame : Obligations.CkFrmFoldsTheHeldFrame := by
  refine ⟨decode_eq_ok_iff_encode.mpr (by decide), fun off s => ⟨fun h => exec_ckFrm_of_none h off, fun a ha => ?_⟩⟩
  rw [exec_ckFrm_of_some ha, ← s.frameBound_eq]
  exact ⟨fun hout => if_pos hout, fun hin => if_neg (Nat.not_lt.mpr hin)⟩

end Sys2Proof.Machine
end

section
/-! The field codec (43_field_codec.md): the two ends of an FX command, what each conversion answers on the number of its bytes, and the
commands FX.U, FX.S, FX.F32 and FX.F64. -/

namespace Sys2Proof.Machine

/-! ## The ends of an FX command (43_field_codec.md R180 to R183) -/

theorem bits_toNat {w : Nat} (x : BitVec w) (lo n : Nat) : (x.extractLsb' lo n).toNat = x.toNat / 2 ^ lo % 2 ^ n := by
  rw [BitVec.extractLsb'_toNat, Nat.shiftRight_eq_div_pow]

/-- RES1:RES0 after a result are the 64 bits of the result (10_state.md R23). -/
theorem res_append (v : DWord) : (v.extractLsb' 32 32 ++ v.extractLsb' 0 32 : BitVec 64) = v := by
  apply BitVec.eq_of_toNat_eq
  rw [append_toNat, bits_toNat, bits_toNat]
  omega

/-- RES1 and RES0 as the halves of the number they make. -/
theorem res_toNat (v : DWord) : (v.extractLsb' 32 32).toNat * 2 ^ 32 + (v.extractLsb' 0 32).toNat = v.toNat := by
  rw [← append_toNat, res_append]

@[simp] theorem State.fxFinish_res0 (s : State) (v : DWord) (m n : Bool) : (s.fxFinish v m n).res0 = v.extractLsb' 0 32 := rfl
@[simp] theorem State.fxFinish_res1 (s : State) (v : DWord) (m n : Bool) : (s.fxFinish v m n).res1 = v.extractLsb' 32 32 := rfl
@[simp] theorem State.fxFinish_fxMissing (s : State) (v : DWord) (m n : Bool) : (s.fxFinish v m n).fxMissing = m := rfl
@[simp] theorem State.fxFinish_fxNan (s : State) (v : DWord) (m n : Bool) : (s.fxFinish v m n).fxNan = n := rfl
@[simp] theorem State.fxOob_res0 (s : State) : s.fxOob.res0 = 0 := rfl
@[simp] theorem State.fxOob_res1 (s : State) : s.fxOob.res1 = 0 := rfl

section Read
variable {s : State} {n off : Nat} (e : Endian) (sm : SentMode) (conv : Nat → DWord × Bool)

theorem State.fxRead_outside (h : s.frameBound < off + n) : s.fxRead e sm n off conv = s.fxOob := if_pos h

theorem State.fxRead_inside (h : off + n ≤ s.frameBound) : s.fxRead e sm n off conv =
    s.fxFinish (conv (s.rawBytes off n e)).1 (sentinelHit sm (s.rawBytes off n e) n s.sent || (conv (s.rawBytes off n e)).2)
      (conv (s.rawBytes off n e)).2 := if_neg (Nat.not_lt.mpr h)

/-- Inside the held frame an FX command works on the number that the sums of 43_field_codec.md R182 give. -/
theorem State.fxRead_held (hheld : s.sstate = .complete) (hin : off + n ≤ s.flen.toNat) : s.fxRead e sm n off conv =
    s.fxFinish (conv (bytesSum e (Memory.slice s.buf off n))).1
      (sentinelHit sm (bytesSum e (Memory.slice s.buf off n)) n s.sent || (conv (bytesSum e (Memory.slice s.buf off n))).2)
      (conv (bytesSum e (Memory.slice s.buf off n))).2 := by
  rw [s.fxRead_inside e sm conv (by rwa [s.frameBound_eq, if_pos hheld]), rawBytes, bytesNat_eq_sum, bufBytes]

/-- An FX command reads nothing that an FX command changes (43_field_codec.md R189). -/
theorem State.fxRead_fxRead (s : State) : (s.fxRead e sm n off conv).fxRead e sm n off conv = s.fxRead e sm n off conv := by
  rcases Nat.lt_or_ge s.frameBound (off + n) with hout | hin
  · rw [s.fxRead_outside e sm conv hout]
    exact State.fxRead_outside e sm conv hout
  · rw [s.fxRead_inside e sm conv hin]
    exact State.fxRead_inside e sm conv hin

end Read

theorem bytesSum_lt (e : Endian) (m : Memory) (off n : Nat) : bytesSum e (Memory.slice m off n) < 2 ^ (8 * n) := by
  have hbound := bytesNat_lt e (Memory.slice m off n)
  rwa [Memory.slice_length, bytesNat_eq_sum, show 256 = 2 ^ 8 from rfl, ← pow_mul] at hbound

/-- The sentinel test of 43_field_codec.md R181, with SENT as its two registers. -/
theorem State.sentinelHit_iff (s : State) (sm : SentMode) (raw n : Nat) : sentinelHit sm raw n s.sent = true ↔
    (sm = .ones ∧ raw = 2 ^ (8 * n) - 1) ∨ (sm = .maxpos ∧ raw = 2 ^ (8 * n - 1) - 1) ∨
      (sm = .sent ∧ raw = (s.cfg.sentHi.toNat * 2 ^ 32 + s.cfg.sentLo.toNat) % 2 ^ (8 * n)) := by
  rw [← pair_toNat, ← State.sent]
  cases sm <;> simp [sentinelHit]

section Commands
variable (e : Endian) (sm : SentMode) (w : BitVec 3) (off : BitVec 16) (s : State)

theorem exec_fxU : exec (.fxU e sm w off) s =
    .next (s.fxRead e sm (w.toNat + 1) off.toNat fun raw => (BitVec.ofNat 64 raw, false)) := rfl
theorem exec_fxS : exec (.fxS e sm w off) s =
    .next (s.fxRead e sm (w.toNat + 1) off.toNat fun raw => (signExtend64 raw (w.toNat + 1), false)) := rfl
theorem exec_fxF32 : exec (.fxF32 e sm off) s = .next (s.fxRead e sm 4 off.toNat convF32) := rfl
theorem exec_fxF64 : exec (.fxF64 e sm off) s = .next (s.fxRead e sm 8 off.toNat convF64) := rfl

end Commands

/-- Settles O41: the four commands share the bounds check. -/
theorem codecReadsOutsideTheFrameAreOob : Obligations.CodecReadsOutsideTheFrameAreOob := by
  intro e sm w off s
  dsimp only
  rw [← s.frameBound_eq, exec_fxU, exec_fxS, exec_fxF32, exec_fxF64]
  have hoob {n : Nat} (conv : Nat → DWord × Bool) (h : s.frameBound < off.toNat + n) := congrArg
    (Host.Outcome.next (φ := Fault) (ρ := Refusal)) (s.fxRead_outside e sm conv h)
  exact ⟨fun h => ⟨hoob _ h, hoob _ h⟩, hoob _, hoob _⟩

/-! ## Integers (43_field_codec.md R183, R184) -/

/-- The bytes of an integer field make a number of 64 bits. -/
theorem two_pow_width_le (w : BitVec 3) : 2 ^ (8 * (w.toNat + 1)) ≤ 2 ^ 64 :=
  Nat.pow_le_pow_right (by decide) (by have := w.isLt; omega)

/-- Settles O42: the number of at most eight bytes is the 64-bit result. -/
theorem fxUReadsAnUnsignedInteger : Obligations.FxUReadsAnUnsignedInteger := by
  intro e sm w off s hheld hin
  refine ⟨_, (exec_fxU ..).trans (congrArg _ (s.fxRead_held e sm _ hheld hin)), rfl, ?_, ?_⟩
  · have hlt := (bytesSum_lt e s.buf off.toNat (w.toNat + 1)).trans_le (two_pow_width_le w)
    rw [State.fxFinish_res0, State.fxFinish_res1, res_toNat, BitVec.toNat_ofNat, Nat.mod_eq_of_lt hlt]
  · rw [State.fxFinish_fxMissing, Bool.or_false, s.sentinelHit_iff]

/-- Sign extension keeps the two's-complement value of n bytes (43_field_codec.md R184). -/
theorem signExtend64_toInt {raw n : Nat} (hpos : 1 ≤ n) (hle : n ≤ 8) (hraw : raw < 2 ^ (8 * n)) :
    (signExtend64 raw n).toInt = if 2 ^ (8 * n - 1) ≤ raw then (raw : Int) - 2 ^ (8 * n) else raw := by
  have hhalf : 2 ^ (8 * n) = 2 * 2 ^ (8 * n - 1) := by rw [← pow_succ', Nat.sub_add_cancel (by omega)]
  rw [signExtend64, BitVec.toInt_signExtend_of_le (by omega), BitVec.toInt_eq_toNat_cond, BitVec.toNat_ofNat, Nat.mod_eq_of_lt hraw]
  by_cases hneg : 2 ^ (8 * n - 1) ≤ raw
  · rw [if_neg (by omega), if_pos hneg]; push_cast; rfl
  · rw [if_pos (by omega), if_neg hneg]

/-- Settles O43: RES1:RES0 is the sign-extended field. -/
theorem fxSReadsASignedInteger : Obligations.FxSReadsASignedInteger := by
  intro e sm w off s hheld hin
  refine ⟨_, (exec_fxS ..).trans (congrArg _ (s.fxRead_held e sm _ hheld hin)), rfl, ?_, ?_⟩
  · rw [State.fxFinish_res0, State.fxFinish_res1, res_append]
    exact signExtend64_toInt (Nat.le_add_left ..) w.isLt (bytesSum_lt ..)
  · rw [State.fxFinish_fxMissing, Bool.or_false, s.sentinelHit_iff]

/-! ## The NaN tests over the bits (43_field_codec.md R185, R186) -/

theorem isNan32_iff (x : BitVec 32) : isNan32 x = true ↔ x.toNat / 2 ^ 23 % 2 ^ 8 = 0xFF ∧ x.toNat % 2 ^ 23 ≠ 0 := by
  rw [isNan32, Bool.and_eq_true, beq_iff_eq, bne_iff_ne, ← BitVec.toNat_inj, ne_eq, ← BitVec.toNat_inj, bits_toNat, bits_toNat,
    pow_zero, Nat.div_one]
  rfl

theorem isNan64_iff (x : BitVec 64) : isNan64 x = true ↔ x.toNat / 2 ^ 52 % 2 ^ 11 = 0x7FF ∧ x.toNat % 2 ^ 52 ≠ 0 := by
  rw [isNan64, Bool.and_eq_true, beq_iff_eq, bne_iff_ne, ← BitVec.toNat_inj, ne_eq, ← BitVec.toNat_inj, bits_toNat, bits_toNat,
    pow_zero, Nat.div_one]
  rfl

theorem convF32_of_nan {raw : Nat} (h : isNan32 (BitVec.ofNat 32 raw) = true) : convF32 raw = (0, true) := if_pos h
theorem convF32_of_value {raw : Nat} (h : ¬ isNan32 (BitVec.ofNat 32 raw) = true) :
    convF32 raw = (widen32 (BitVec.ofNat 32 raw), false) := if_neg h
theorem convF64_of_nan {raw : Nat} (h : isNan64 (BitVec.ofNat 64 raw) = true) : convF64 raw = (0, true) := if_pos h
theorem convF64_of_value {raw : Nat} (h : ¬ isNan64 (BitVec.ofNat 64 raw) = true) :
    convF64 raw = (BitVec.ofNat 64 raw, false) := if_neg h

/-- Settles O45: the number of eight bytes is the pattern itself. -/
theorem fxF64PassesTheBits : Obligations.FxF64PassesTheBits := by
  intro e sm off s hheld hin
  refine ⟨_, (exec_fxF64 ..).trans (congrArg _ (s.fxRead_held e sm _ hheld hin)), rfl, ?_⟩
  have hlt := bytesSum_lt e s.buf off.toNat 8
  generalize bytesSum e (Memory.slice s.buf off.toNat 8) = raw at hlt ⊢
  have hraw : (BitVec.ofNat 64 raw).toNat = raw := by rw [BitVec.toNat_ofNat, Nat.mod_eq_of_lt hlt]
  have hnan := isNan64_iff (BitVec.ofNat 64 raw)
  rw [hraw] at hnan
  rw [← hnan]
  refine ⟨fun h => ?_, fun h => ?_⟩
  · rw [convF64_of_nan h]
    exact ⟨rfl, rfl, rfl, Bool.or_true _⟩
  · rw [convF64_of_value h]
    refine ⟨(res_toNat _).trans hraw, rfl, ?_⟩
    have hsent := (s.sent).isLt
    rw [State.sent, pair_toNat] at hsent
    rw [State.fxFinish_fxMissing, Bool.or_false, s.sentinelHit_iff, Nat.mod_eq_of_lt hsent]

/-! ## Widening binary32 (43_field_codec.md R187) -/

/-- The magnitude of a finite binary32 pattern with exponent and fraction fields e and f. -/
def magnitude32 (e f : Nat) : ℚ := if e = 0 then f * (2 : ℚ) ^ (-149 : Int) else (2 ^ 23 + f) * (2 : ℚ) ^ ((e : Int) - 150)

/-- The magnitude of a finite binary64 pattern with exponent and fraction fields e and f. -/
def magnitude64 (e f : Nat) : ℚ := if e = 0 then f * (2 : ℚ) ^ (-1074 : Int) else (2 ^ 52 + f) * (2 : ℚ) ^ ((e : Int) - 1075)

theorem value32_eq (x : BitVec 32) : value32 x =
    (if x.toNat / 2 ^ 31 = 1 then -1 else 1) * magnitude32 (x.toNat / 2 ^ 23 % 2 ^ 8) (x.toNat % 2 ^ 23) := rfl

theorem value64_eq (x : BitVec 64) : value64 x =
    (if x.toNat / 2 ^ 63 = 1 then -1 else 1) * magnitude64 (x.toNat / 2 ^ 52 % 2 ^ 11) (x.toNat % 2 ^ 52) := rfl

/-- A normal value keeps its fraction, moved to the top of the wider one, and its exponent moves by the difference of the biases. -/
theorem magnitude64_normal {e : Nat} (he : e ≠ 0) (f : Nat) : magnitude64 (e + 896) (f * 2 ^ 29) = magnitude32 e f := by
  rw [magnitude64, magnitude32, if_neg (by omega), if_neg he,
    show ((e + 896 : Nat) : Int) - 1075 = (e : Int) - 150 + (-29 : Int) by push_cast; ring, zpow_add₀ two_ne_zero]
  push_cast; ring

/-- A subnormal value is normalised: its highest bit k becomes the hidden bit of the wider fraction. -/
theorem magnitude64_normalised {k f r : Nat} (hk : k ≤ 52) (hr : 2 ^ 52 + r = f * 2 ^ (52 - k)) :
    magnitude64 (k + 874) r = magnitude32 0 f := by
  have hsum : (2 ^ 52 + r : ℚ) = f * 2 ^ ((52 : Int) - k) := by
    rw [show (52 : Int) - k = (52 - k : Nat) by omega, zpow_natCast]
    exact_mod_cast hr
  rw [magnitude64, magnitude32, if_neg (by omega), if_pos rfl, hsum, mul_assoc, ← zpow_add₀ two_ne_zero]
  congr 2; push_cast; ring

/-- What the fields of a widened pattern are: those of an infinity for the exponent 0xFF, else finite ones of the same magnitude. -/
def Widens (e f : Nat) (ex : BitVec 11) (fr : BitVec 52) : Prop :=
  (e = 0xFF → ex = 0x7FF#11 ∧ fr = 0#52) ∧ (e ≠ 0xFF → ex ≠ 0x7FF#11 ∧ magnitude64 ex.toNat fr.toNat = magnitude32 e f)

theorem widens_infinity (f : Nat) : Widens 0xFF f 0x7FF#11 0#52 := ⟨fun _ => ⟨rfl, rfl⟩, fun h => absurd rfl h⟩

theorem widens_zero : Widens 0 0 0#11 0#52 := ⟨nofun, fun _ => ⟨by decide, by simp [magnitude32, magnitude64]⟩⟩

theorem widens_finite {e f ex : Nat} {fr : BitVec 52} (he : e ≠ 0xFF) (hex : ex < 0x7FF)
    (hmag : magnitude64 ex fr.toNat = magnitude32 e f) : Widens e f (BitVec.ofNat 11 ex) fr := by
  have hval : (BitVec.ofNat 11 ex).toNat = ex := by rw [BitVec.toNat_ofNat, Nat.mod_eq_of_lt (by omega)]
  refine ⟨fun h => absurd h he, fun _ => ⟨fun heq => ?_, by rw [hval, hmag]⟩⟩
  rw [heq] at hval
  exact hex.ne' hval

/-- A nonzero fraction shifted so that its highest bit falls out at bit 52. -/
theorem normalised_fraction {f : BitVec 23} (hf : f.toNat ≠ 0) : 2 ^ 52 + (f.setWidth 52 <<< (52 - Nat.log2 f.toNat)).toNat =
    f.toNat * 2 ^ (52 - Nat.log2 f.toNat) := by
  have hlo := Nat.log2_self_le hf
  have hhi : f.toNat < 2 ^ (Nat.log2 f.toNat + 1) := Nat.lt_log2_self
  have hk : Nat.log2 f.toNat < 23 := (Nat.log2_lt hf).mpr f.isLt
  rw [BitVec.toNat_shiftLeft, BitVec.toNat_setWidth, Nat.shiftLeft_eq, Nat.mod_eq_of_lt (f.isLt.trans (by decide))]
  generalize Nat.log2 f.toNat = k at hlo hhi hk ⊢
  have hone : 2 ^ k * 2 ^ (52 - k) = 2 ^ 52 := by rw [← pow_add, Nat.add_sub_cancel' (by omega)]
  have hge := Nat.mul_le_mul_right (2 ^ (52 - k)) hlo
  have hlt := Nat.mul_lt_mul_of_pos_right hhi (Nat.two_pow_pos (52 - k))
  rw [pow_succ, Nat.mul_right_comm] at hlt
  omega

theorem widens_subnormal {f : BitVec 23} (hf : f ≠ 0#23) :
    Widens 0 f.toNat (BitVec.ofNat 11 (Nat.log2 f.toNat + 874)) (f.setWidth 52 <<< (52 - Nat.log2 f.toNat)) := by
  have hpos : f.toNat ≠ 0 := fun h => hf (BitVec.eq_of_toNat_eq h)
  have hk : Nat.log2 f.toNat < 23 := (Nat.log2_lt hpos).mpr f.isLt
  exact widens_finite (by decide) (by omega) (magnitude64_normalised (by omega) (normalised_fraction hpos))

theorem widens_normal {e : BitVec 8} (hfin : e.toNat ≠ 0xFF) (hnorm : e.toNat ≠ 0) (f : BitVec 23) :
    Widens e.toNat f.toNat (BitVec.ofNat 11 (e.toNat + 1023 - 127)) (f ++ 0#29) := by
  rw [show e.toNat + 1023 - 127 = e.toNat + 896 by omega]
  refine widens_finite hfin (by have := e.isLt; omega) ?_
  rw [append_toNat, BitVec.toNat_ofNat, Nat.zero_mod, Nat.add_zero (_ * _), magnitude64_normal hnorm]

/-- The four branches of `widen32` as one pattern of a sign, an exponent and a fraction. -/
theorem widen32_fields (x : BitVec 32) : ∃ ex fr, widen32 x = x.extractLsb' 31 1 ++ ex ++ fr ∧
    Widens (x.toNat / 2 ^ 23 % 2 ^ 8) (x.toNat % 2 ^ 23) ex fr := by
  rw [← slice_toNat, ← lowSlice_toNat]
  dsimp only [widen32]
  split
  case isTrue hinf => rw [hinf]; exact ⟨_, _, rfl, widens_infinity _⟩
  case isFalse hfin =>
    split
    case isTrue hsub =>
      rw [hsub]
      split
      case isTrue hzero => rw [hzero]; exact ⟨_, _, rfl, widens_zero⟩
      case isFalse hpos => exact ⟨_, _, rfl, widens_subnormal hpos⟩
    case isFalse hnorm => exact ⟨_, _, BitVec.append_assoc .., widens_normal hfin hnorm _⟩

/-- The fields of a binary64 pattern read back. -/
theorem fields64_toNat (sgn : BitVec 1) (ex : BitVec 11) (fr : BitVec 52) :
    (sgn ++ ex ++ fr : BitVec 64).toNat / 2 ^ 63 = sgn.toNat ∧ (sgn ++ ex ++ fr : BitVec 64).toNat / 2 ^ 52 % 2 ^ 11 = ex.toNat ∧
      (sgn ++ ex ++ fr : BitVec 64).toNat % 2 ^ 52 = fr.toNat := by
  have := sgn.isLt; have := ex.isLt; have := fr.isLt
  rw [append_toNat, append_toNat]
  omega

/-- Widening keeps the sign and the infinities, and a finite pattern becomes a finite one of the same value. -/
theorem widen32_spec (x : BitVec 32) :
    (widen32 x).toNat / 2 ^ 63 = x.toNat / 2 ^ 31 ∧
    (x.toNat / 2 ^ 23 % 2 ^ 8 = 0xFF → (widen32 x).toNat % 2 ^ 63 = 0x7FF * 2 ^ 52) ∧
    (x.toNat / 2 ^ 23 % 2 ^ 8 ≠ 0xFF → (widen32 x).toNat / 2 ^ 52 % 2 ^ 11 ≠ 0x7FF ∧ value64 (widen32 x) = value32 x) := by
  obtain ⟨ex, fr, hx, hinf, hfin⟩ := widen32_fields x
  obtain ⟨hsgn, hexpo, hfrac⟩ := fields64_toNat (x.extractLsb' 31 1) ex fr
  rw [topSlice_toNat x rfl] at hsgn
  rw [← hx] at hsgn hexpo hfrac
  refine ⟨hsgn, fun h => ?_, fun h => ?_⟩
  · obtain ⟨rfl, rfl⟩ := hinf h
    simp only [BitVec.toNat_ofNat] at hexpo hfrac
    omega
  · obtain ⟨hne, hmag⟩ := hfin h
    rw [value64_eq, value32_eq, hsgn, hexpo, hfrac, hmag]
    exact ⟨fun heq => hne (BitVec.eq_of_toNat_eq heq), rfl⟩

/-- Settles O44: the number of four bytes is the pattern that is widened. -/
theorem fxF32WidensExactly : Obligations.FxF32WidensExactly := by
  intro e sm off s hheld hin
  refine ⟨_, (exec_fxF32 ..).trans (congrArg _ (s.fxRead_held e sm _ hheld hin)), rfl, ?_⟩
  have hlt := bytesSum_lt e s.buf off.toNat 4
  generalize bytesSum e (Memory.slice s.buf off.toNat 4) = raw at hlt ⊢
  have hraw : (BitVec.ofNat 32 raw).toNat = raw := by rw [BitVec.toNat_ofNat, Nat.mod_eq_of_lt hlt]
  have hnan := isNan32_iff (BitVec.ofNat 32 raw)
  rw [hraw] at hnan
  by_cases h : isNan32 (BitVec.ofNat 32 raw) = true
  · obtain ⟨hexpo, hfrac⟩ := hnan.mp h
    rw [convF32_of_nan h]
    exact ⟨fun _ => ⟨rfl, rfl, rfl, Bool.or_true _⟩, fun hn => absurd ⟨hexpo, hfrac⟩ hn, fun ⟨_, hz⟩ => absurd hz hfrac,
      fun hn => absurd hexpo hn⟩
  · obtain ⟨hsgn, hinf, hfin⟩ := widen32_spec (BitVec.ofNat 32 raw)
    rw [hraw] at hsgn hinf hfin
    have hres := res_toNat (widen32 (BitVec.ofNat 32 raw))
    have hlow := ((widen32 (BitVec.ofNat 32 raw)).extractLsb' 0 32).isLt
    have hsent : (s.cfg.sentHi.toNat * 2 ^ 32 + s.cfg.sentLo.toNat) % 2 ^ (8 * 4) = s.cfg.sentLo.toNat := by
      have := s.cfg.sentLo.isLt
      omega
    simp only [convF32_of_value h, State.fxFinish_res0, State.fxFinish_res1, State.fxFinish_fxMissing, State.fxFinish_fxNan,
      Bool.or_false, s.sentinelHit_iff, hsent, res_append]
    refine ⟨fun hn => absurd (hnan.mpr hn) h, fun _ => ⟨trivial, trivial, by omega⟩, fun ⟨hi, _⟩ => ?_, fun hn => ?_⟩
    · have hbits := hinf hi
      exact ⟨by omega, BitVec.eq_of_toNat_eq (by rw [show (0 : Word).toNat = 0 from rfl]; omega)⟩
    · obtain ⟨hne, hval⟩ := hfin hn
      exact ⟨by omega, hval⟩

/-! ## No NaN, and nothing kept between reads (43_field_codec.md R188, R189) -/

theorem convF32_not_nan (raw : Nat) : ¬ isNan64 (convF32 raw).1 = true := by
  by_cases h : isNan32 (BitVec.ofNat 32 raw) = true
  · rw [convF32_of_nan h]; decide
  · simp only [convF32_of_value h, isNan64_iff]
    obtain ⟨-, hinf, hfin⟩ := widen32_spec (BitVec.ofNat 32 raw)
    rintro ⟨hexpo, hfrac⟩
    by_cases hi : (BitVec.ofNat 32 raw).toNat / 2 ^ 23 % 2 ^ 8 = 0xFF
    · have := hinf hi
      omega
    · exact (hfin hi).1 hexpo

theorem convF64_not_nan (raw : Nat) : ¬ isNan64 (convF64 raw).1 = true := by
  by_cases h : isNan64 (BitVec.ofNat 64 raw) = true
  · rw [convF64_of_nan h]; decide
  · rwa [convF64_of_value h]

/-- The NaN test over RES1 and RES0. -/
theorem isNan64_append_iff (hi lo : Word) : isNan64 (hi ++ lo) = true ↔
    hi.toNat / 2 ^ 20 % 2 ^ 11 = 0x7FF ∧ (hi.toNat % 2 ^ 20 ≠ 0 ∨ lo ≠ 0) := by
  have := lo.isLt
  rw [isNan64_iff, append_toNat, ne_eq lo, ← BitVec.toNat_inj, show (0 : Word).toNat = 0 from rfl]
  omega

theorem State.fxRead_not_nan (s : State) (e : Endian) (sm : SentMode) (n off : Nat) {conv : Nat → DWord × Bool}
    (hconv : ∀ raw, ¬ isNan64 (conv raw).1 = true) :
    ¬ isNan64 ((s.fxRead e sm n off conv).res1 ++ (s.fxRead e sm n off conv).res0) = true := by
  rcases Nat.lt_or_ge s.frameBound (off + n) with hout | hin
  · rw [s.fxRead_outside e sm conv hout, fxOob_res0, fxOob_res1]
    decide
  · rw [s.fxRead_inside e sm conv hin, fxFinish_res0, fxFinish_res1, res_append]
    exact hconv _

/-- Settles O46: each command is one read of the frame view, whose conversion answers no NaN and which changes nothing it reads. -/
theorem codecNeverYieldsANaN : Obligations.CodecNeverYieldsANaN := by
  intro i e sm w off s t hexec
  refine ⟨fun hi => ?_, fun hi => ?_⟩
  · rw [← isNan64_append_iff]
    rcases hi with rfl | rfl <;> cases hexec
    · exact s.fxRead_not_nan e sm 4 off.toNat convF32_not_nan
    · exact s.fxRead_not_nan e sm 8 off.toNat convF64_not_nan
  · have hagain {n : Nat} (conv : Nat → DWord × Bool) := congrArg (Host.Outcome.next (φ := Fault) (ρ := Refusal))
      (s.fxRead_fxRead (n := n) (off := off.toNat) e sm conv)
    rcases hi with rfl | rfl | rfl | rfl <;> cases hexec
    exacts [hagain _, hagain _, hagain _, hagain _]

end Sys2Proof.Machine
end

section
/-! Direct mode of the epoch buffer (44_epoch_buffer.md R202, R203): the field that a command writes, the checks of OBS.DWR in their order,
and the one record of OBS that it then writes. -/

namespace Sys2Proof.Machine

/-! ## The value written (44_epoch_buffer.md R202) -/

theorem State.writeValue_fst (s : State) (src : Source) (m : Bool) :
    (s.writeValue src m).1 = if src = .arg then s.arg1 ++ s.arg0 else s.res1 ++ s.res0 := by cases src <;> rfl

theorem State.writeValue_snd_iff (s : State) (src : Source) (m : Bool) :
    (s.writeValue src m).2 = true ↔ m = true ∨ (src = .res ∧ s.fxMissing = true) := by cases src <;> simp [writeValue]

/-- A record with the value of a command written to one of its fields, by OBS.DWR and STG.WR alike. -/
def State.putField (s : State) (src : Source) (m : Bool) (fld slot : BitVec 4) (r : Rec) : Rec :=
  r.writeField slot.toNat fld.toNat (s.writeValue src m).1 (s.writeValue src m).2

section PutField
variable {s : State} {src : Source} {m : Bool} {fld slot : BitVec 4} (r : Rec)

@[simp] theorem State.putField_sat : (s.putField src m fld slot r).sat = r.sat := r.writeField_sat ..
@[simp] theorem State.putField_time : (s.putField src m fld slot r).time = r.time := r.writeField_time ..
@[simp] theorem State.putField_tv : (s.putField src m fld slot r).tv = r.tv := r.writeField_tv ..

theorem State.putField_of_missing (h : m = true ∨ (src = .res ∧ s.fxMissing = true)) : s.putField src m fld slot r = r := by
  rw [putField, (s.writeValue_snd_iff src m).mpr h, Rec.writeField_missing]

theorem State.putField_of_value (h : ¬ (m = true ∨ (src = .res ∧ s.fxMissing = true))) : s.putField src m fld slot r =
    { r with slots := r.slots.set slot.toNat ((r.slot slot.toNat).set fld.toNat (s.writeValue src m).1) } := by
  have hpresent : (s.writeValue src m).2 = false := Bool.eq_false_iff.mpr (mt (s.writeValue_snd_iff src m).mp h)
  rw [putField, hpresent, Rec.writeField_present]

/-- A field of ARG1:ARG0 written and read back (44_epoch_buffer.md R202, R206). -/
theorem State.putField_readField (hfld : fld.toNat ≤ 5) (hslot : slot.toNat < r.slots.length) :
    ((s.putField .arg false fld slot r).readField slot.toNat fld.toNat).toNat = (s.arg1.toNat * 2 ^ 32 + s.arg0.toNat) %
      (if fld.toNat ≤ 2 then 2 ^ 64 else if fld = 3 then 2 ^ 16 else 2 ^ 8) := by
  have hsnr : (fld.toNat = 3) = (fld = 3) := propext (BitVec.toNat_inj (y := 3#4))
  have hread : (s.putField .arg false fld slot r).readField slot.toNat fld.toNat =
      ((r.slot slot.toNat).set fld.toNat (pair s.arg1 s.arg0)).get fld.toNat := by
    rw [Rec.readField, if_neg (by omega), if_neg (by omega), if_neg (by omega)]
    exact congrArg (SlotRec.get · fld.toNat) (getD_set_self _ _ hslot)
  rw [hread, SlotRec.get_set _ _ hfld, pair_toNat]
  simp only [hsnr]

end PutField

/-! ## The count of the epoch (44_epoch_buffer.md R203) -/

/-- A set that holds a record of the epoch is a set at TIME. -/
theorem State.epochCount_of_pos {s : State} (h : 0 < s.epochCount) :
    s.epochCount = s.obsN.toNat ∧ s.time = (s.recAt s.obs 0).time := by
  unfold State.epochCount at h ⊢
  split at h
  · exact absurd h (lt_irrefl 0)
  · next hsame =>
    rw [if_neg hsame]
    exact ⟨rfl, not_not.mp fun hne => hsame ⟨h, hne⟩⟩

theorem State.epochCount_of_time {s : State} (h : s.time = (s.recAt s.obs 0).time) : s.epochCount = s.obsN.toNat :=
  if_neg fun hnew => hnew.2 h

/-! ## The checks of OBS.DWR in their order (44_epoch_buffer.md R203, 60_exceptions.md R264) -/

/-- OBS.DWR past its checks. -/
def State.obsDwr (s : State) (src : Source) (m : Bool) (fld slot : BitVec 4) (sat : Byte) : State :=
  s.directWrite s.epochCount slot.toNat fld.toNat sat (s.writeValue src m).1 (s.writeValue src m).2

section Checks
variable {src : Source} {m : Bool} {fld slot : BitVec 4} {sat : Byte} {s : State}

theorem exec_obsDwr_of_open (hfld : fld.toNat ≤ 5) (hopen : s.isOpen = true) : exec (.obsDwr src m fld slot sat) s =
    if sat = 0 then .next (s.finish .error .satZero)
    else if slot.toNat ≥ s.params.nSlot then .next (s.finish .error .slotRange)
    else .next (s.obsDwr src m fld slot sat) :=
  (if_pos (decide_eq_true hfld)).trans (if_pos hopen)

theorem exec_obsDwr_of_legal (hfld : fld.toNat ≤ 5) (hopen : s.isOpen = true) (hsat : sat ≠ 0) (hslot : slot.toNat < s.params.nSlot) :
    exec (.obsDwr src m fld slot sat) s = .next (s.obsDwr src m fld slot sat) := by
  rw [exec_obsDwr_of_open hfld hopen, if_neg hsat, if_neg (Nat.not_le.mpr hslot)]

/-- OBS.DWR fails a check and changes only STATUS, or passes them all. -/
theorem exec_obsDwr_cases {t : State} (h : exec (.obsDwr src m fld slot sat) s = .next t) :
    (∃ c k, c ≠ .ok ∧ t = s.finish c k) ∨
      (fld.toNat ≤ 5 ∧ slot.toNat < s.params.nSlot ∧ t = s.obsDwr src m fld slot sat) := by
  by_cases hfld : fld.toNat ≤ 5
  · by_cases hopen : s.isOpen = true
    · rw [exec_obsDwr_of_open hfld hopen] at h
      split at h
      · cases h; exact .inl ⟨.error, _, nofun, rfl⟩
      · split at h <;> cases h
        · exact .inl ⟨.error, _, nofun, rfl⟩
        · exact .inr ⟨hfld, by omega, rfl⟩
    · cases ((if_pos (decide_eq_true hfld)).trans (if_neg hopen)).symm.trans h
      exact .inl ⟨.refused, _, nofun, rfl⟩
  · cases (if_neg (mt of_decide_eq_true hfld)).symm.trans h
    exact .inl ⟨.refused, _, nofun, rfl⟩

end Checks

/-! ## One record of OBS written -/

/-- OBS.DWR where it answers OK: record `k` written, `n` records in the set, `c` free values drawn. -/
def State.obsWrite (s : State) (k n : Nat) (r : Rec) (c : Nat) : State :=
  ({ s.setObs (s.obs.set k r) (BitVec.ofNat 8 n) with freeCount := c } : State).finish .ok .none

/-- The write changes no parameter, so a record array reads after it as before. -/
theorem State.obsWrite_recAt (s : State) (k n : Nat) (r : Rec) (c : Nat) : (s.obsWrite k n r c).recAt = s.recAt := rfl

theorem State.obsWrite_recAt_other (s : State) {k j : Nat} (n : Nat) (r : Rec) (c : Nat) (h : j ≠ k) :
    s.recAt (s.obsWrite k n r c).obs j = s.recAt s.obs j := s.recAt_set_other s.obs r h

section Written
variable {s : State} (hi : s.Inv)
include hi

theorem State.Inv.obsWrite_recAt_self {k : Nat} (n : Nat) (r : Rec) (c : Nat) (hk : k < s.params.maxObs) :
    s.recAt (s.obsWrite k n r c).obs k = r := s.recAt_set_self r (hi.obsLen ▸ hk)

theorem State.Inv.obsWrite_obsN {n : Nat} (k : Nat) (r : Rec) (c : Nat) (hn : n ≤ s.params.maxObs) :
    (s.obsWrite k n r c).obsN.toNat = n := count_toNat hi.params hn

/-- A field written to a record leaves every record of OBS its satellite and its time. -/
theorem State.Inv.obsWrite_putField_keeps {k : Nat} {src : Source} {m : Bool} {fld slot : BitVec 4} (n c : Nat)
    (hk : k < s.params.maxObs) (i : Nat) :
    let obs := (s.obsWrite k n (s.putField src m fld slot (s.recAt s.obs k)) c).obs
    (s.recAt obs i).sat = (s.recAt s.obs i).sat ∧ (s.recAt obs i).time = (s.recAt s.obs i).time := by
  intro obs
  by_cases hik : i = k
  · rw [hik, hi.obsWrite_recAt_self _ _ _ hk]
    exact ⟨putField_sat _, putField_time _⟩
  · rw [s.obsWrite_recAt_other _ _ _ hik]
    exact ⟨rfl, rfl⟩

theorem State.Inv.epochCount_le : s.epochCount ≤ s.params.maxObs := s.epochCount_le.trans hi.obsCount

theorem State.Inv.recAt_obs_slots {k : Nat} (hk : k < s.params.maxObs) : (s.recAt s.obs k).slots.length = s.params.nSlot :=
  hi.obsSlots _ (s.recAt_mem (hi.obsLen ▸ hk))

end Written

section DirectWrite
variable {s : State} {src : Source} {m : Bool} {fld slot : BitVec 4} {sat : Byte}

/-- After its checks OBS.DWR answers EPOCH_FULL, adds a record at the end of the epoch, or writes a record of the satellite. -/
theorem State.obsDwr_outcomes (s : State) (src : Source) (m : Bool) (fld slot : BitVec 4) (sat : Byte) :
    ((∀ i, i < s.epochCount → (s.recAt s.obs i).sat ≠ sat) ∧ s.params.maxObs ≤ s.epochCount ∧
      s.obsDwr src m fld slot sat = s.finish .error .epochFull) ∨
    ((∀ i, i < s.epochCount → (s.recAt s.obs i).sat ≠ sat) ∧ s.epochCount < s.params.maxObs ∧ s.obsDwr src m fld slot sat =
      s.obsWrite s.epochCount (s.epochCount + 1) (s.putField src m fld slot (s.freshRec sat)) s.freeCount) ∨
    (∃ k c, k < s.epochCount ∧ (s.recAt s.obs k).sat = sat ∧ s.obsDwr src m fld slot sat =
      s.obsWrite k s.epochCount (s.putField src m fld slot (s.recAt s.obs k)) c) :=
  s.directWrite_cases ..

theorem State.obsDwr_of_full (hno : ∀ i, i < s.epochCount → (s.recAt s.obs i).sat ≠ sat) (hfull : s.params.maxObs ≤ s.epochCount) :
    s.obsDwr src m fld slot sat = s.finish .error .epochFull := by
  rcases s.obsDwr_outcomes src m fld slot sat with ⟨_, _, ht⟩ | ⟨_, hroom, _⟩ | ⟨k, _, hk, hsat, _⟩
  · exact ht
  · omega
  · exact absurd hsat (hno k hk)

theorem State.obsDwr_of_new (hno : ∀ i, i < s.epochCount → (s.recAt s.obs i).sat ≠ sat) (hroom : s.epochCount < s.params.maxObs) :
    s.obsDwr src m fld slot sat =
      s.obsWrite s.epochCount (s.epochCount + 1) (s.putField src m fld slot (s.freshRec sat)) s.freeCount := by
  rcases s.obsDwr_outcomes src m fld slot sat with ⟨_, hfull, _⟩ | ⟨_, _, ht⟩ | ⟨k, _, hk, hsat, _⟩
  · omega
  · exact ht
  · exact absurd hsat (hno k hk)

theorem State.obsDwr_of_present {i : Nat} (hlt : i < s.epochCount) (hsat : (s.recAt s.obs i).sat = sat) :
    ∃ k c, k < s.epochCount ∧ (s.recAt s.obs k).sat = sat ∧
      s.obsDwr src m fld slot sat = s.obsWrite k s.epochCount (s.putField src m fld slot (s.recAt s.obs k)) c := by
  rcases s.obsDwr_outcomes src m fld slot sat with ⟨hno, _⟩ | ⟨hno, _⟩ | hwritten
  · exact absurd hsat (hno i hlt)
  · exact absurd hsat (hno i hlt)
  · exact hwritten

/-- The only record of the satellite is written, and no free value is drawn. -/
theorem State.obsDwr_of_only {k : Nat} (hk : k < s.epochCount) (hsat : (s.recAt s.obs k).sat = sat)
    (honly : ∀ j, j < s.epochCount → (s.recAt s.obs j).sat = sat → j = k) :
    s.obsDwr src m fld slot sat = s.obsWrite k s.epochCount (s.putField src m fld slot (s.recAt s.obs k)) s.freeCount := by
  rw [obsDwr, directWrite, s.satOrdinals_unique hk hsat honly]; rfl

/-- A write to a live record of a set at TIME leaves OBS_N as it is. -/
theorem State.obsWrite_of_time (h : s.time = (s.recAt s.obs 0).time) (k : Nat) (r : Rec) (c : Nat) :
    s.obsWrite k s.epochCount r c = { s with obs := s.obs.set k r, freeCount := c, code := .ok, cause := .none } := by
  rw [obsWrite, epochCount_of_time h, BitVec.ofNat_toNat, BitVec.setWidth_eq]; rfl

end DirectWrite

/-! ## OBS.DWR (44_epoch_buffer.md R203) -/

/-- Settles O47: `n` is the count of the epoch. -/
theorem directWriteErrorsChangeNothing : Obligations.DirectWriteErrorsChangeNothing := by
  intro src m fld slot sat s hopen hfld n
  refine ⟨fun hzero => ?_, fun hsat hslot => ?_, fun hsat hslot hfull hno => ?_⟩
  · exact (exec_obsDwr_of_open hfld hopen).trans (if_pos hzero)
  · exact (exec_obsDwr_of_open hfld hopen).trans ((if_neg hsat).trans (if_pos hslot))
  · exact (exec_obsDwr_of_legal hfld hopen hsat hslot).trans (congrArg _ (State.obsDwr_of_full hno hfull))

/-- Settles O48: the record written is the only one of the satellite. -/
theorem directWriteOverwritesTheField : Obligations.DirectWriteOverwritesTheField := by
  intro src m fld slot sat k s hi hopen hfld hsat hslot hk htime hrec honly v missing put old
  have hroom : k < s.params.maxObs := hk.trans_le hi.obsCount
  rw [← State.epochCount_of_time htime] at hk honly
  refine ⟨_, (exec_obsDwr_of_legal hfld hopen hsat hslot).trans (congrArg _ (State.obsDwr_of_only hk hrec honly)),
    State.obsWrite_of_time htime .., List.length_set, fun j hj => s.obsWrite_recAt_other _ _ _ hj, fun hm => ?_, fun hv => ?_⟩ <;>
    rw [hi.obsWrite_recAt_self _ _ _ hroom]
  · exact State.putField_of_missing _ hm
  · rw [State.putField_of_value _ hv, SlotRec.set_eq _ _ hfld, s.writeValue_fst]

/-- Settles O49: the record written is the fresh one, at the count of the epoch. -/
theorem directWriteAllocatesAFreshRecord : Obligations.DirectWriteAllocatesAFreshRecord := by
  intro src m fld slot sat s hi hopen hfld hsat hslot n hroom hno v missing put blank
  refine ⟨_, (exec_obsDwr_of_legal hfld hopen hsat hslot).trans (congrArg _ (State.obsDwr_of_new hno hroom)), rfl,
    hi.obsWrite_obsN _ _ _ hroom, fun j hj => s.obsWrite_recAt_other _ _ _ hj, ?_⟩
  rw [show n = s.epochCount from rfl, hi.obsWrite_recAt_self (k := s.epochCount) _ _ _ hroom]
  refine ⟨State.putField_sat _, State.putField_time _, State.putField_tv _, fun hm => ?_, fun hv => ?_⟩
  · rw [State.putField_of_missing _ hm]; rfl
  · have hblank : (s.freshRec sat).slot slot.toNat = SlotRec.zero := List.getD_replicate _ hslot
    rw [State.putField_of_value _ hv, hblank, SlotRec.set_eq _ _ hfld, s.writeValue_fst]; rfl

/-- Settles O51: the free value picks a record of the satellite below the count. -/
theorem directWriteAmongDuplicatesWritesOne : Obligations.DirectWriteAmongDuplicatesWritesOne := by
  intro src m fld slot sat i j s hi hopen hfld hsat hslot htime hij hj hreci _ v missing put
  have hcount := State.epochCount_of_time htime
  obtain ⟨k, c, hk, hreck, hwrite⟩ := State.obsDwr_of_present (src := src) (m := m) (fld := fld) (slot := slot)
    (hcount.symm ▸ hij.trans hj) hreci
  rw [hcount] at hk
  refine ⟨_, k, (exec_obsDwr_of_legal hfld hopen hsat hslot).trans (congrArg _ hwrite), hk, hreck,
    State.obsWrite_of_time htime .., fun x hx => s.obsWrite_recAt_other _ _ _ hx, fun hm => ?_, fun hv => ?_⟩ <;>
    rw [hi.obsWrite_recAt_self _ _ _ (hk.trans_le hi.obsCount)]
  · exact State.putField_of_missing _ hm
  · rw [State.putField_of_value _ hv, SlotRec.set_eq _ _ hfld, s.writeValue_fst]

/-! ## One epoch (44_epoch_buffer.md R215) -/

/-- Settles O50: a record added is of a new satellite and stamped with TIME; a record written keeps its satellite and its time, which in a
set that is not replaced is TIME. -/
theorem directWritesKeepOneEpoch : Obligations.DirectWritesKeepOneEpoch := by
  intro src m fld slot sat s t hi hdistinct hepoch hexec
  have hlive : ∀ {i}, i < s.epochCount → i < s.obsN.toNat := fun h => h.trans_le s.epochCount_le
  have htime : ∀ i, i < s.epochCount → (s.recAt s.obs i).time = s.time := fun i hlt =>
    (hepoch i (hlive hlt)).trans (State.epochCount_of_pos (Nat.zero_lt_of_lt hlt)).2.symm
  rcases exec_obsDwr_cases hexec with ⟨c, k, hc, rfl⟩ | ⟨_, _, rfl⟩
  · exact ⟨hdistinct, fun hok => absurd hok hc⟩
  rcases s.obsDwr_outcomes src m fld slot sat with ⟨_, _, ht⟩ | ⟨hno, hroom, ht⟩ | ⟨k, c, hk, _, ht⟩ <;> rw [ht]
  · exact ⟨hdistinct, nofun⟩
  · have hnew := hi.obsWrite_recAt_self (s.epochCount + 1) (s.putField src m fld slot (s.freshRec sat)) s.freeCount hroom
    have hold {i : Nat} (hlt : i < s.epochCount) := s.obsWrite_recAt_other (s.epochCount + 1)
      (s.putField src m fld slot (s.freshRec sat)) s.freeCount hlt.ne
    rw [hi.obsWrite_obsN _ _ _ hroom, State.obsWrite_recAt]
    refine ⟨fun i j hlti hltj heq => ?_, fun _ i hlt => ?_⟩
    · rcases Nat.lt_succ_iff_lt_or_eq.mp hlti with hi' | rfl <;> rcases Nat.lt_succ_iff_lt_or_eq.mp hltj with hj' | rfl
      · rw [hold hi', hold hj'] at heq
        exact hdistinct i j (hlive hi') (hlive hj') heq
      · rw [hold hi', hnew, State.putField_sat] at heq
        exact absurd heq (hno i hi')
      · rw [hold hj', hnew, State.putField_sat] at heq
        exact absurd heq.symm (hno j hj')
      · rfl
    · rcases Nat.lt_succ_iff_lt_or_eq.mp hlt with hi' | rfl
      · rw [hold hi']; exact htime i hi'
      · rw [hnew, State.putField_time]; rfl
  · have hkept := hi.obsWrite_putField_keeps (src := src) (m := m) (fld := fld) (slot := slot) s.epochCount c
      (hk.trans_le hi.epochCount_le)
    rw [hi.obsWrite_obsN _ _ _ hi.epochCount_le, State.obsWrite_recAt]
    refine ⟨fun i j hlti hltj heq => hdistinct i j (hlive hlti) (hlive hltj) ?_, fun _ i hlt => (hkept i).2.trans (htime i hlt)⟩
    rwa [(hkept i).1, (hkept j).1] at heq

end Sys2Proof.Machine
end

section
/-! Reads of the record arrays, the staged mode and the flush (44_epoch_buffer.md R205 to R214). -/

namespace Sys2Proof.Machine

/-! ## Records read (44_epoch_buffer.md R205, R206, R212) -/

section Read
variable {s : State} {arr : List Rec} {n fld slot idx : Nat}

theorem State.readRecord_of_beyond (h : n ≤ idx) : s.readRecord arr n fld slot idx = (s.setRes 0).finish .error .ordRange := if_pos h

theorem State.readRecord_of_no_slot (h : idx < n) (hfld : fld ≤ 5) (hslot : s.params.nSlot ≤ slot) :
    s.readRecord arr n fld slot idx = (s.setRes 0).finish .error .slotRange :=
  (if_neg (Nat.not_le.mpr h)).trans (if_pos ⟨hfld, hslot⟩)

theorem State.readRecord_of_field (h : idx < n) (hslot : 5 < fld ∨ slot < s.params.nSlot) :
    s.readRecord arr n fld slot idx = (s.setRes ((s.recAt arr idx).readField slot fld)).finish .ok .none :=
  (if_neg (Nat.not_le.mpr h)).trans (if_neg (by omega))

end Read

/-- The fields of a record as numbers (10_state.md R51). -/
theorem Rec.readField_toNat (r : Rec) (slot : Nat) {fld : BitVec 4} (h : fld.toNat ≤ 5 ∨ (8 ≤ fld.toNat ∧ fld.toNat ≤ 10)) :
    (r.readField slot fld.toNat).toNat =
      if fld = 8 then r.sat.toNat else if fld = 9 then r.time.toNat else if fld = 10 then r.tv.toNat
      else if fld = 0 then (r.slot slot).p.toNat else if fld = 1 then (r.slot slot).l.toNat
      else if fld = 2 then (r.slot slot).d.toNat else if fld = 3 then (r.slot slot).snr.toNat
      else if fld = 4 then (r.slot slot).lli.toNat else (r.slot slot).code.toNat := by
  have hwide {w : Nat} (x : BitVec w) (hw : w ≤ 64) : (x.setWidth 64).toNat = x.toNat := BitVec.toNat_setWidth_of_le hw
  have : fld = 0#4 ∨ fld = 1#4 ∨ fld = 2#4 ∨ fld = 3#4 ∨ fld = 4#4 ∨ fld = 5#4 ∨ fld = 8#4 ∨ fld = 9#4 ∨ fld = 10#4 := by
    revert fld; decide
  rcases this with rfl | rfl | rfl | rfl | rfl | rfl | rfl | rfl | rfl
  · rfl
  · rfl
  · rfl
  · exact hwide (r.slot slot).snr (by decide)
  · exact hwide (r.slot slot).lli (by decide)
  · exact hwide (r.slot slot).code (by decide)
  · exact hwide r.sat (by decide)
  · rfl
  · exact (hwide (BitVec.ofBool r.tv) (by decide)).trans (BitVec.toNat_ofBool _)

theorem fldReadable_iff {fld slot : BitVec 4} : fldReadable fld slot = true ↔
    fld.toNat ≤ 5 ∨ (8 ≤ fld.toNat ∧ fld.toNat ≤ 10 ∧ slot = 0) := by
  rw [fldReadable, decide_eq_true_iff, ← BitVec.toNat_inj (x := slot)]; rfl

section ReadCommands
variable {fld slot : BitVec 4} {idx : Byte} {s : State} (h : fldReadable fld slot = true)
include h

theorem exec_obsRd_of_readable : exec (.obsRd fld slot idx) s =
    .next (s.readRecord s.obs s.obsN.toNat fld.toNat slot.toNat idx.toNat) := if_pos h

theorem exec_stgRd_of_readable : exec (.stgRd fld slot idx) s =
    .next (s.readRecord s.obuf s.stgN.toNat fld.toNat slot.toNat idx.toNat) := if_pos h

end ReadCommands

/-- Settles O52: both commands are one read, of OBS and of OBUF. -/
theorem recordReadsReturnTheField : Obligations.RecordReadsReturnTheField := by
  refine ⟨decode_eq_ok_iff_encode.mpr (by decide), decode_eq_ok_iff_encode.mpr (by decide), fun fld slot idx s hfld => ?_⟩
  intro val reads
  have hvalue (r : Rec) : (r.readField slot.toNat fld.toNat).toNat = val r := r.readField_toNat slot.toNat (by omega)
  have hreads (arr : List Rec) (n : Nat) : reads arr n (s.readRecord arr n fld.toNat slot.toNat idx.toNat) := by
    refine ⟨fun hout => ?_, fun hin hf hslot => ?_, fun hin hslot => ?_⟩
    · rw [State.readRecord_of_beyond hout]; rfl
    · rw [State.readRecord_of_no_slot hin hf hslot]; rfl
    · rw [State.readRecord_of_field hin hslot]
      exact ⟨rfl, (res_toNat _).trans (hvalue _)⟩
  exact ⟨⟨_, exec_obsRd_of_readable (fldReadable_iff.mpr hfld), hreads ..⟩,
    ⟨_, exec_stgRd_of_readable (fldReadable_iff.mpr hfld), hreads ..⟩⟩

/-! ## A value written and read (44_epoch_buffer.md R202, R203, R206) -/

/-- Where OBS.DWR answers OK it has written a record of the satellite, with all its slots, inside the set. -/
theorem State.Inv.exec_obsDwr_of_ok {s t : State} {src : Source} {m : Bool} {fld slot : BitVec 4} {sat : Byte} (hi : s.Inv)
    (hexec : exec (.obsDwr src m fld slot sat) s = .next t) (hok : t.code = .ok) :
    fld.toNat ≤ 5 ∧ slot.toNat < s.params.nSlot ∧ ∃ k n r c, k < n ∧ n ≤ s.params.maxObs ∧ r.sat = sat ∧
      r.slots.length = s.params.nSlot ∧ t = s.obsWrite k n (s.putField src m fld slot r) c := by
  rcases exec_obsDwr_cases hexec with ⟨c, k, hc, rfl⟩ | ⟨hfld, hslot, rfl⟩
  · exact absurd hok hc
  refine ⟨hfld, hslot, ?_⟩
  rcases s.obsDwr_outcomes src m fld slot sat with ⟨_, _, ht⟩ | ⟨_, hroom, ht⟩ | ⟨k, c, hk, hsat, ht⟩
  · rw [ht] at hok; cases hok
  · exact ⟨_, _, _, _, Nat.lt_succ_self _, hroom, rfl, s.freshRec_slots sat, ht⟩
  · exact ⟨_, _, _, _, hk, hi.epochCount_le, hsat, hi.recAt_obs_slots (hk.trans_le hi.epochCount_le), ht⟩

/-- Settles O53: the record read is the one written, as it is the only one of the satellite. -/
theorem directWriteThenReadReturnsTheValue : Obligations.DirectWriteThenReadReturnsTheValue := by
  intro fld slot sat idx s t hi hexec hok hidx _ honly
  obtain ⟨hfld, hslot, k, n, r, c, hk, hn, hsat, hslots, rfl⟩ := hi.exec_obsDwr_of_ok hexec hok
  have hrec := hi.obsWrite_recAt_self n (s.putField .arg false fld slot r) c (hk.trans_le hn)
  have hkidx : k = idx.toNat := honly k (hk.trans_eq (hi.obsWrite_obsN _ _ _ hn).symm)
    ((congrArg Rec.sat hrec).trans ((State.putField_sat r).trans hsat))
  refine ⟨_, (exec_obsRd_of_readable (fldReadable_iff.mpr (.inl hfld))).trans
    (congrArg _ (State.readRecord_of_field hidx (.inr hslot))), rfl, (res_toNat _).trans ?_⟩
  rw [State.obsWrite_recAt, ← hkidx, hrec]
  exact State.putField_readField r hfld (hslots ▸ hslot)

/-! ## The staged mode (44_epoch_buffer.md R208 to R211) -/

section Staged
variable {s : State}

theorem exec_stgCnt_of_open (hopen : s.isOpen = true) (n : Byte) : exec (.stgCnt n) s =
    if n.toNat > s.params.maxObs then .next (s.finish .error .countRange) else .next ((s.clearStaged n).finish .ok .none) :=
  if_pos hopen

theorem exec_stgSat_of_open (hopen : s.isOpen = true) (idx sat : Byte) : exec (.stgSat idx sat) s =
    if idx.toNat ≥ s.stgN.toNat then .next (s.finish .error .ordRange)
    else .next ((s.setStaged (s.obuf.set idx.toNat { s.recAt s.obuf idx.toNat with sat := sat }) s.stgN).finish .ok .none) :=
  if_pos hopen

theorem exec_stgChk_of_open (hopen : s.isOpen = true) (n : Byte) : exec (.stgChk n) s =
    if n ≠ s.stgN then .next (s.finish .error .countMismatch) else .next (s.finish .ok .none) :=
  if_pos hopen

/-- A record of OBUF stamped with TIME (44_epoch_buffer.md R211). -/
def State.stamped (s : State) (r : Rec) : Rec := { r with time := s.time, tv := true }

theorem exec_stgWr_of_open (hopen : s.isOpen = true) (src : Source) (m : Bool) {fld : BitVec 4} (hfld : fld.toNat ≤ 5) (slot : BitVec 4)
    (idx : Byte) : exec (.stgWr src m fld slot idx) s =
      if idx.toNat ≥ s.stgN.toNat then .next (s.finish .error .ordRange)
      else if slot.toNat ≥ s.params.nSlot then .next (s.finish .error .slotRange)
      else .next ((s.setStaged (s.obuf.set idx.toNat (s.putField src m fld slot (s.stamped (s.recAt s.obuf idx.toNat)))) s.stgN).finish
        .ok .none) :=
  (if_pos (decide_eq_true hfld)).trans (if_pos hopen)

theorem exec_stgWr_of_closed (hclosed : s.isOpen = false) (src : Source) (m : Bool) {fld : BitVec 4} (hfld : fld.toNat ≤ 5)
    (slot : BitVec 4) (idx : Byte) : exec (.stgWr src m fld slot idx) s = .next (s.finish .refused .wrongState) :=
  (if_pos (decide_eq_true hfld)).trans (if_neg (by simp [hclosed]))

end Staged

/-- Settles O54: each command tests the session, then its range. -/
theorem stagingAnnouncesCountsAndSatellites : Obligations.StagingAnnouncesCountsAndSatellites := by
  refine ⟨decode_eq_ok_iff_encode.mpr (by decide), decode_eq_ok_iff_encode.mpr (by decide),
    decode_eq_ok_iff_encode.mpr (by decide), fun n idx sat s => ?_⟩
  intro wrong
  refine ⟨fun hclosed => ?_, fun hopen => ?_⟩
  · have hno : ¬ s.isOpen = true := by simp [hclosed]
    exact ⟨if_neg hno, if_neg hno, if_neg hno⟩
  · rw [exec_stgCnt_of_open hopen, exec_stgSat_of_open hopen, exec_stgChk_of_open hopen]
    exact ⟨fun h => if_pos h, fun h => if_neg (Nat.not_lt.mpr h), fun h => if_pos h, fun h => if_neg (Nat.not_le.mpr h),
      fun h => if_pos h, fun h => if_neg (not_not.mpr h)⟩

/-- Settles O55: the record is stamped before the field is written. -/
theorem stagedWriteStampsTheRecord : Obligations.StagedWriteStampsTheRecord := by
  refine ⟨decode_eq_ok_iff_encode.mpr (by decide), fun src m fld slot idx s hfld => ?_⟩
  intro v missing put old
  refine ⟨fun hclosed => exec_stgWr_of_closed hclosed src m hfld slot idx, fun hopen => ?_⟩
  rw [exec_stgWr_of_open hopen src m hfld]
  refine ⟨fun hout => if_pos hout, fun hin hslot => ?_, fun hin hslot hm => ?_, fun hin hslot hv => ?_⟩ <;>
    rw [if_neg (Nat.not_le.mpr hin)]
  · exact if_pos hslot
  · rw [if_neg (Nat.not_le.mpr hslot), State.putField_of_missing _ hm]; rfl
  · rw [if_neg (Nat.not_le.mpr hslot), State.putField_of_value _ hv, SlotRec.set_eq _ _ hfld, s.writeValue_fst]; rfl

/-! ## FLUSH (44_epoch_buffer.md R213, R214) -/

/-- Settles O56: FLUSH is the flush and its outcome code. -/
theorem flushCopiesTheQualifyingRecords : Obligations.FlushCopiesTheQualifyingRecords := by
  intro s
  refine ⟨fun hclosed => if_neg (by simp [hclosed]), decode_eq_ok_iff_encode.mpr (by decide), ?_⟩
  rw [← s.qualifying_eq]
  intro q hopen
  refine ⟨s.flushEpoch.finish s.flushCode .none, if_pos hopen, ?_, s.flushEpoch_obs⟩
  rw [State.flushCode_eq, State.flushEpoch_frame]
  rfl

end Sys2Proof.Machine
end

section
/-! The signal continuity tracker (45_continuity.md): the slip test as a proposition, the words that LK.UPD and LK.RD answer, and the
checks of both in their order. -/

namespace Sys2Proof.Machine

/-! ## The slip (45_continuity.md R240) -/

section Slip
variable {ge : Bool} {scale slack sat : Word} {e : LkEntry} {n : Word} {t : DWord}

theorem growthSlip_iff (mis : Int) : growthSlip ge mis slack = true ↔
    (ge = false ∧ mis > slack.toNat) ∨ (ge = true ∧ mis ≥ slack.toNat) := by
  cases ge <;> simp [growthSlip]

theorem counterSlip_of_lower (h : n.toNat < e.cnt.toNat) : counterSlip ge scale slack sat e n t = true := if_pos (.inr h)

theorem counterSlip_iff : counterSlip ge scale slack sat e n t = true ↔
    n = 0 ∨ n.toNat < e.cnt.toNat ∨ (n.toNat < sat.toNat ∧ growthSlip ge (lockMismatch e n t scale) slack = true) := by
  have hzero : n = 0 ↔ n.toNat = 0 := BitVec.toNat_inj.symm
  unfold counterSlip
  rw [hzero, ← or_assoc]
  split
  · next hreset => exact iff_of_true rfl (.inl hreset)
  · next hreset =>
    rw [or_iff_right hreset]
    split
    · next hunsat => exact (and_iff_right hunsat).symm
    · next hsat => exact iff_of_false Bool.false_ne_true (hsat ·.1)

theorem slipOf_iff {c h hc : Bool} : slipOf ge scale slack sat e c h hc n t = true ↔
    e.v = true ∧ ((c = true ∧ counterSlip ge scale slack sat e n t = true) ∨ (h = true ∧ hc ≠ e.hc)) := by
  simp [slipOf]

end Slip

/-! ## The words answered (45_continuity.md R242, R243) -/

theorem lliBits_toNat (slip hc : Bool) : (lliBits slip hc).toNat = slip.toNat + 2 * hc.toNat := by
  cases slip <;> cases hc <;> rfl

theorem lliBits_low (slip hc : Bool) : ((lliBits slip hc).extractLsb' 0 32).toNat = slip.toNat + 2 * hc.toNat := by
  cases slip <;> cases hc <;> rfl

theorem lliBits_high (slip hc : Bool) : (lliBits slip hc).extractLsb' 32 32 = 0 := by
  cases slip <;> cases hc <;> rfl

theorem LkEntry.item_toNat (e : LkEntry) {item : BitVec 4} (h : item.toNat ≤ 2) : (e.item item.toNat).toNat =
    if item = 0 then e.cnt.toNat else if item = 1 then e.t.toNat else e.hc.toNat + 2 * e.v.toNat := by
  have : item = 0#4 ∨ item = 1#4 ∨ item = 2#4 := by revert item; decide
  rcases this with rfl | rfl | rfl
  · exact BitVec.toNat_setWidth_of_le (by decide)
  · rfl
  · exact lliBits_toNat e.hc e.v

/-! ## The checks of an entry, in their order (60_exceptions.md R264) -/

section Checks
variable {s : State} {sat slot : Nat}

theorem State.lkError_of_sat_zero : s.lkError 0 slot = some .satZero := rfl

theorem State.lkError_of_sat_beyond (h : s.params.maxSat < sat) : s.lkError sat slot = some .satRange :=
  (if_neg (by omega)).trans (if_pos h)

theorem State.lkError_of_slot_beyond (h0 : sat ≠ 0) (hsat : sat ≤ s.params.maxSat) (hslot : s.params.nSlot ≤ slot) :
    s.lkError sat slot = some .slotRange :=
  (if_neg h0).trans ((if_neg (Nat.not_lt.mpr hsat)).trans (if_pos hslot))

end Checks

/-! ## LK.UPD (45_continuity.md R241) -/

section Update
variable {s t : State} {c h hc : Bool} {slot : BitVec 4} {sat : Byte}

/-- LK.UPD of an entry after its checks. -/
def State.lockUpdate (s : State) (c h hc : Bool) (slot : BitVec 4) (sat : Byte) : State :=
  let e := lkGet s.lk sat.toNat slot.toNat
  ((s.setLk (lkSet s.lk sat.toNat slot.toNat (s.lockEntry c hc e))).setRes (lliBits (s.lockSlip c h hc e) hc)).finish .ok .none

theorem exec_lkUpd_of_closed (hclosed : s.isOpen = false) :
    exec (.lkUpd c h hc slot sat) s = .next (s.finish .refused .wrongState) := if_neg (by simp [hclosed])

theorem exec_lkUpd_of_error {k : Cause} (hopen : s.isOpen = true) (hk : s.lkError sat.toNat slot.toNat = some k) :
    exec (.lkUpd c h hc slot sat) s = .next (s.finish .error k) :=
  (if_pos hopen).trans (by rw [hk]; rfl)

theorem exec_lkUpd_of_legal (hopen : s.isOpen = true) (hlegal : s.lkError sat.toNat slot.toNat = none) :
    exec (.lkUpd c h hc slot sat) s = .next (s.lockUpdate c h hc slot sat) :=
  (if_pos hopen).trans (by rw [hlegal]; rfl)

/-- LK.UPD answers OK only for a legal entry, which it then updates. -/
theorem exec_lkUpd_of_ok (hexec : exec (.lkUpd c h hc slot sat) s = .next t) (hok : t.code = .ok) :
    s.lkError sat.toNat slot.toNat = none ∧ t = s.lockUpdate c h hc slot sat := by
  cases hopen : s.isOpen with
  | false =>
    rw [exec_lkUpd_of_closed hopen] at hexec
    cases hexec; cases hok
  | true =>
    cases hk : s.lkError sat.toNat slot.toNat with
    | some k =>
      rw [exec_lkUpd_of_error hopen hk] at hexec
      cases hexec; cases hok
    | none =>
      rw [exec_lkUpd_of_legal hopen hk] at hexec
      cases hexec; exact ⟨rfl, rfl⟩

theorem State.lockUpdate_frame (s : State) (c h hc : Bool) (slot : BitVec 4) (sat : Byte) :
    s.lockUpdate c h hc slot sat = { s with
      lk := (s.lockUpdate c h hc slot sat).lk, res0 := (s.lockUpdate c h hc slot sat).res0, res1 := 0, code := .ok, cause := .none } := by
  have hres1 : (s.lockUpdate c h hc slot sat).res1 = 0 := lliBits_high ..
  rw [← hres1]; rfl

theorem State.lockUpdate_res0 (s : State) (c h hc : Bool) (slot : BitVec 4) (sat : Byte) :
    (s.lockUpdate c h hc slot sat).res0.toNat = (s.lockSlip c h hc (lkGet s.lk sat.toNat slot.toNat)).toNat + 2 * hc.toNat :=
  lliBits_low ..

/-- The entry that an update wrote. -/
theorem State.Inv.lockUpdate_entry (hi : s.Inv) (hlegal : s.lkError sat.toNat slot.toNat = none) :
    lkGet (s.lockUpdate c h hc slot sat).lk sat.toNat slot.toNat = s.lockEntry c hc (lkGet s.lk sat.toNat slot.toNat) := by
  obtain ⟨h0, hsat, hslot⟩ := (s.lkError_eq_none ..).mp hlegal
  exact lkGet_lkSet_self _ (by rw [hi.lkLen]; omega) hi.lkRows hslot

end Update

/-- Settles O57: the checks in their order, then one update, whose slip bit is the test of R240. -/
theorem lockUpdateReportsTheSlip : Obligations.LockUpdateReportsTheSlip := by
  refine ⟨decode_eq_ok_iff_encode.mpr (by decide), fun c h hc slot sat s hi => ?_⟩
  intro e mis slip
  have hslip : s.lockSlip c h hc e = true ↔ slip := by
    unfold State.lockSlip
    rw [slipOf_iff, counterSlip_iff, growthSlip_iff]; rfl
  have hres0 := s.lockUpdate_res0 c h hc slot sat
  refine ⟨exec_lkUpd_of_closed, fun hopen => ⟨fun h0 => ?_, fun hsat => ?_, fun h0 hsat hslot => ?_, fun h0 hsat hslot => ?_⟩⟩
  · subst h0
    exact exec_lkUpd_of_error hopen State.lkError_of_sat_zero
  · exact exec_lkUpd_of_error hopen (State.lkError_of_sat_beyond hsat)
  · exact exec_lkUpd_of_error hopen (State.lkError_of_slot_beyond (BitVec.toNat_ne.mp h0) hsat hslot)
  · have hpos : sat.toNat ≠ 0 := BitVec.toNat_ne.mp h0
    have hlegal := (s.lkError_eq_none ..).mpr ⟨hpos, hsat, hslot⟩
    refine ⟨_, exec_lkUpd_of_legal hopen hlegal, s.lockUpdate_frame .., fun hs => ?_, fun hs => ?_, hi.lockUpdate_entry hlegal,
      fun _ _ h1 hne => lkGet_lkSet_other _ _ (Nat.one_le_iff_ne_zero.mpr hpos) h1 hne⟩
    · rw [hres0, hslip.mpr hs]; rfl
    · rw [hres0, Bool.eq_false_iff.mpr (mt hslip.mp hs)]; exact Nat.zero_add _

/-- Settles O59: the first update left the entry valid with its counter, and a lower counter slips before any test of time. -/
theorem lowerCounterAlwaysSlips : Obligations.LowerCounterAlwaysSlips := by
  intro h hc h' hc' slot sat s t u v hi hfirst htok hkept hlower hsecond hvok
  obtain ⟨hlegal, rfl⟩ := exec_lkUpd_of_ok hfirst htok
  obtain ⟨-, rfl⟩ := exec_lkUpd_of_ok hsecond hvok
  rw [hi.lockUpdate_entry hlegal] at hkept
  have hslip : u.lockSlip true h' hc' (lkGet u.lk sat.toNat slot.toNat) = true := by
    rw [hkept]
    exact slipOf_iff.mpr ⟨rfl, .inl ⟨rfl, counterSlip_of_lower hlower⟩⟩
  rw [u.lockUpdate_res0, hslip]
  exact Nat.add_mul_mod_self_left 1 2 hc'.toNat

/-! ## LK.RD (45_continuity.md R243) -/

section Read
variable {s : State} {item slot : BitVec 4} {sat : Byte} (hitem : item.toNat ≤ 2)
include hitem

theorem exec_lkRd_of_error {k : Cause} (hk : s.lkError sat.toNat slot.toNat = some k) :
    exec (.lkRd item slot sat) s = .next ((s.setRes 0).finish .error k) :=
  (if_pos (decide_eq_true hitem)).trans (by rw [hk]; rfl)

theorem exec_lkRd_of_legal (hlegal : s.lkError sat.toNat slot.toNat = none) : exec (.lkRd item slot sat) s =
    .next ((s.setRes ((lkGet s.lk sat.toNat slot.toNat).item item.toNat)).finish .ok .none) :=
  (if_pos (decide_eq_true hitem)).trans (by rw [hlegal]; rfl)

end Read

/-- Settles O58: the checks in their order, then the item, whose two halves are RES. -/
theorem lockReadReturnsTheItem : Obligations.LockReadReturnsTheItem := by
  refine ⟨decode_eq_ok_iff_encode.mpr (by decide), decode_eq_ok_iff_encode.mpr (by decide), fun item slot sat s hitem => ?_⟩
  intro e v
  refine ⟨fun h0 => ?_, fun hsat _ => ?_, fun h0 hsat hslot => ?_, fun h0 hsat hslot => ?_⟩
  · subst h0
    exact exec_lkRd_of_error hitem State.lkError_of_sat_zero
  · exact exec_lkRd_of_error hitem (State.lkError_of_sat_beyond hsat)
  · exact exec_lkRd_of_error hitem (State.lkError_of_slot_beyond (BitVec.toNat_ne.mp h0) hsat hslot)
  · have hlegal := (s.lkError_eq_none ..).mpr ⟨BitVec.toNat_ne.mp h0, hsat, hslot⟩
    exact ⟨_, exec_lkRd_of_legal hitem hlegal, rfl, (res_toNat _).trans (e.item_toNat hitem)⟩

end Sys2Proof.Machine
end

section
/-! How a command ends (60_exceptions.md R260 to R263): what it answers when it is not well-formed, outside its allowed states and inside
them, and what an ERROR and a REFUSED outcome leave as they were. -/

namespace Sys2Proof.Machine

/-! ## Outside the allowed states (60_exceptions.md R263) -/

theorem Alg.ofBits_of_not_legal : ∀ b : BitVec 3, ¬ algLegal b = true → Alg.ofBits b = none := by decide

/-- A command with an illegal field value is refused before its state is looked at (30_encoding.md R94, check 3). -/
theorem exec_of_not_wf {i : Instr} (hwf : ¬ i.wf = true) (s : State) : exec i s = .next (s.finish .refused .badField) := by
  cases i with
  | feedn | ckUpd | obsDwr | obsRd | stgWr | stgRd | lkRd => exact if_neg hwf
  | ckInit rotf alg =>
    rw [exec, execCkInit, Alg.ofBits_of_not_legal alg hwf]; rfl
  | _ => exact absurd rfl hwf

theorem exec_of_not_allowed {i : Instr} {s : State} (hwf : i.wf = true) (hno : ¬ Allowed i s) :
    exec i s = .next (s.finish .refused .wrongState) := by
  cases i with
  | openSession => exact exec_openSession_of_open (Bool.not_eq_false _ |>.mp hno)
  | feed b => exact if_neg (mt s.mayFeed_iff.mp hno)
  | feedn cnt => exact (if_pos hwf).trans (if_neg (mt s.mayFeed_iff.mp hno))
  | release => exact exec_release_of_not_held ((not_and_or.mp hno).imp_left (Bool.not_eq_true _ |>.mp))
  | ckUpd cnt => exact exec_ckUpd_of_none hwf (not_not.mp hno)
  | ckFin => exact exec_ckFin_of_none (not_not.mp hno)
  | ckFrm off => exact exec_ckFrm_of_none (not_not.mp hno) off
  | obsDwr | stgWr => exact (if_pos hwf).trans (if_neg hno)
  | eoi | stgCnt | stgSat | stgChk | flush | lkUpd => exact if_neg hno
  | nop | ckInit | fxU | fxS | fxF32 | fxF64 | obsRd | stgRd | lkRd => exact absurd trivial hno

/-! ## Inside the allowed states -/

/-- What an ERROR of a command leaves (60_exceptions.md R260, last column of its table). Of FEEDN, whose last byte may come after others
that changed BUF and the type registers, it says that SYNC is as `syncReset` leaves it. -/
def Fails (s : State) (i : Instr) (t : State) : Prop :=
  match i with
  | .feed b => ∃ k, t = (s.putByte b).syncReset.finish .error k
  | .feedn _ => t.syncReset = t
  | .obsRd _ _ _ | .stgRd _ _ _ | .lkRd _ _ _ => ∃ k, t = (s.setRes 0).finish .error k
  | .fxU _ _ _ _ | .fxS _ _ _ _ | .fxF32 _ _ _ | .fxF64 _ _ _ => t = s.fxOob
  | _ => ∃ k, t = s.finish .error k

/-- `Ends s i t`: the well-formed command `i`, allowed in `s`, may end in `t`. -/
inductive Ends (s : State) (i : Instr) (t : State) : Prop where
  | success (herr : t.code ≠ .error) (href : t.code ≠ .refused)
  | failure (herr : t.code = .error) (hfails : Fails s i t)
  /-- 40_session.md R111 -/
  | illegalConfig (hi : i = .openSession) (hillegal : s.cfgLegal = false) (ht : t = s.finish .refused .cfgIllegal)

theorem Ends.ok {s t : State} {i : Instr} (h : t.code = .ok) : Ends s i t := .success (by rw [h]; nofun) (by rw [h]; nofun)

/-- A flush is a success, with or without an update (44_epoch_buffer.md R213). -/
theorem Ends.flush {s t u : State} {i : Instr} (h : t.code = u.flushCode) : Ends s i t := by
  rcases u.flushCode_cases with hc | hc
  · exact .ok (h.trans hc)
  · have hcode := h.trans hc
    exact .success (by rw [hcode]; nofun) (by rw [hcode]; nofun)

theorem feedByte_ends {s : State} (hfree : s.sstate ≠ .complete) (b : Byte) : Ends s (.feed b) (feedByte b s) := by
  rcases feedByte_outcomes b hfree with ⟨hcode, _⟩ | ⟨hcode, _⟩ | ⟨k, _, heq⟩
  · exact .ok hcode
  · exact .success (by rw [hcode]; nofun) (by rw [hcode]; nofun)
  · exact .failure (by rw [heq]; rfl) ⟨k, heq⟩

/-- FEEDN ends as the last byte it fed (41_synchronizer.md R132). -/
theorem feedLoop_ends {s : State} {cnt : BitVec 3} (hcnt : 0 < cnt.toNat) (hfree : s.sstate ≠ .complete) (v : DWord) :
    Ends s (.feedn cnt) ((feedLoop cnt.toNat 0 s).1.setRes v) := by
  obtain ⟨n, hn⟩ := Nat.exists_eq_succ_of_ne_zero hcnt.ne'
  obtain ⟨b, u, hu, hlast⟩ := feedLoop_last n 0 s hfree
  rw [hn, hlast]
  cases feedByte_ends hu b with
  | success herr href => exact .success herr href
  | failure herr hfails =>
    obtain ⟨k, heq⟩ := hfails
    exact .failure herr (by rw [heq]; rfl)
  | illegalConfig hi => cases hi

/-- The common part of the FX commands (43_field_codec.md R180). -/
theorem fxRead_ends {s : State} {i : Instr} {e : Endian} {sm : SentMode} {n off : Nat} {conv : Nat → DWord × Bool}
    (hoob : Fails s i s.fxOob) : Ends s i (s.fxRead e sm n off conv) :=
  iteInduction (fun _ => .failure rfl hoob) (fun _ => .ok rfl)

/-- The common part of OBS.RD and STG.RD (44_epoch_buffer.md R206). -/
theorem readRecord_ends {s : State} {i : Instr} {arr : List Rec} {n fld slot idx : Nat}
    (hfails : ∀ k, Fails s i ((s.setRes 0).finish .error k)) : Ends s i (s.readRecord arr n fld slot idx) :=
  iteInduction (fun _ => .failure rfl (hfails _)) fun _ => iteInduction (fun _ => .failure rfl (hfails _)) (fun _ => .ok rfl)

theorem obsDwr_ends (s : State) (src : Source) (m : Bool) (fld slot : BitVec 4) (sat : Byte) :
    Ends s (.obsDwr src m fld slot sat) (s.obsDwr src m fld slot sat) := by
  rcases s.obsDwr_outcomes src m fld slot sat with ⟨_, _, h⟩ | ⟨_, _, h⟩ | ⟨_, _, _, _, h⟩ <;> rw [h]
  · exact .failure rfl (Exists.intro _ rfl)
  · exact .ok rfl
  · exact .ok rfl

/-- One execution error tested (60_exceptions.md R264), and what follows when it does not apply. -/
theorem ends_of_check {s : State} {i : Instr} {p : Prop} [Decidable p] {k : Cause} {o : Host.Outcome State Fault Refusal}
    (hfails : Fails s i (s.finish .error k)) (hpassed : ∃ t, o = .next t ∧ Ends s i t) :
    ∃ t, (if p then .next (s.finish .error k) else o) = .next t ∧ Ends s i t := by
  split
  · exact ⟨_, rfl, .failure rfl hfails⟩
  · exact hpassed

/-- The checks of a command past its state check, in their order (60_exceptions.md R264), each with the error it ends in. -/
theorem exec_of_allowed {i : Instr} {s : State} (hwf : i.wf = true) (hallowed : Allowed i s) :
    ∃ t, exec i s = .next t ∧ Ends s i t := by
  cases i with
  | nop => exact ⟨_, exec_nop s, .ok rfl⟩
  | openSession =>
    rw [exec_openSession_of_closed hallowed]
    split
    · exact ⟨_, rfl, .ok rfl⟩
    · next hillegal => exact ⟨_, rfl, .illegalConfig rfl (Bool.not_eq_true _ |>.mp hillegal) rfl⟩
  | eoi => exact ⟨_, exec_eoi_of_open hallowed, .flush rfl⟩
  | flush => exact ⟨_, if_pos hallowed, .flush rfl⟩
  | feed b =>
    obtain ⟨hopen, hfree⟩ := hallowed
    exact ⟨_, exec_feed_of_free hopen hfree b, feedByte_ends hfree b⟩
  | feedn cnt =>
    obtain ⟨hopen, hfree⟩ := hallowed
    have hpos : 1 ≤ cnt.toNat := (of_decide_eq_true hwf).1
    exact ⟨_, exec_feedn_of_free hwf hopen hfree, feedLoop_ends hpos hfree _⟩
  | release =>
    obtain ⟨hopen, hheld⟩ := hallowed
    exact ⟨_, exec_release_of_held hopen hheld, .ok rfl⟩
  | ckInit rotf alg =>
    obtain ⟨a, ha, -⟩ := Alg.ofBits_isSome hwf
    exact ⟨_, exec_ckInit_of_alg ha rotf s, .ok rfl⟩
  | ckUpd cnt =>
    obtain ⟨a, ha⟩ := Option.ne_none_iff_exists'.mp hallowed
    exact ⟨_, exec_ckUpd_of_some hwf ha, .ok rfl⟩
  | ckFin =>
    obtain ⟨a, ha⟩ := Option.ne_none_iff_exists'.mp hallowed
    exact ⟨_, exec_ckFin_of_some ha, .ok rfl⟩
  | ckFrm off =>
    obtain ⟨a, ha⟩ := Option.ne_none_iff_exists'.mp hallowed
    rw [exec_ckFrm_of_some ha]
    exact ends_of_check (Exists.intro _ rfl) ⟨_, rfl, .ok rfl⟩
  | fxU e sm w off => exact ⟨_, exec_fxU .., fxRead_ends rfl⟩
  | fxS e sm w off => exact ⟨_, exec_fxS .., fxRead_ends rfl⟩
  | fxF32 e sm off => exact ⟨_, exec_fxF32 .., fxRead_ends rfl⟩
  | fxF64 e sm off => exact ⟨_, exec_fxF64 .., fxRead_ends rfl⟩
  | obsRd fld slot idx => exact ⟨_, exec_obsRd_of_readable hwf, readRecord_ends (Exists.intro · rfl)⟩
  | stgRd fld slot idx => exact ⟨_, exec_stgRd_of_readable hwf, readRecord_ends (Exists.intro · rfl)⟩
  | obsDwr src m fld slot sat =>
    rw [exec_obsDwr_of_open (of_decide_eq_true hwf) hallowed]
    exact ends_of_check (Exists.intro _ rfl) (ends_of_check (Exists.intro _ rfl) ⟨_, rfl, obsDwr_ends ..⟩)
  | stgCnt n =>
    rw [exec_stgCnt_of_open hallowed]
    exact ends_of_check (Exists.intro _ rfl) ⟨_, rfl, .ok rfl⟩
  | stgSat idx sat =>
    rw [exec_stgSat_of_open hallowed]
    exact ends_of_check (Exists.intro _ rfl) ⟨_, rfl, .ok rfl⟩
  | stgChk n =>
    rw [exec_stgChk_of_open hallowed]
    exact ends_of_check (Exists.intro _ rfl) ⟨_, rfl, .ok rfl⟩
  | stgWr src m fld slot idx =>
    rw [exec_stgWr_of_open hallowed src m (of_decide_eq_true hwf)]
    exact ends_of_check (Exists.intro _ rfl) (ends_of_check (Exists.intro _ rfl) ⟨_, rfl, .ok rfl⟩)
  | lkUpd c h hc slot sat =>
    cases hk : s.lkError sat.toNat slot.toNat with
    | some k => exact ⟨_, exec_lkUpd_of_error hallowed hk, .failure rfl (Exists.intro k rfl)⟩
    | none => exact ⟨_, exec_lkUpd_of_legal hallowed hk, .ok rfl⟩
  | lkRd item slot sat =>
    have hitem : item.toNat ≤ 2 := of_decide_eq_true hwf
    cases hk : s.lkError sat.toNat slot.toNat with
    | some k => exact ⟨_, exec_lkRd_of_error hitem hk, .failure rfl (Exists.intro k rfl)⟩
    | none => exact ⟨_, exec_lkRd_of_legal hitem hk, .ok rfl⟩

/-! ## What ERROR and REFUSED leave -/

/-- An ERROR comes only of a command that passed decoding and its state check (60_exceptions.md R260). -/
theorem exec_fails {i : Instr} {s t : State} (h : exec i s = .next t) (herr : t.code = .error) :
    i.wf = true ∧ Allowed i s ∧ Fails s i t := by
  by_cases hwf : i.wf = true
  · by_cases hallowed : Allowed i s
    · obtain ⟨u, hu, hends⟩ := exec_of_allowed hwf hallowed
      cases hu.symm.trans h
      cases hends with
      | success hno => exact absurd herr hno
      | failure _ hfails => exact ⟨hwf, hallowed, hfails⟩
      | illegalConfig _ _ ht => rw [ht] at herr; cases herr
    · cases (exec_of_not_allowed hwf hallowed).symm.trans h; cases herr
  · cases (exec_of_not_wf hwf s).symm.trans h; cases herr

/-- The grounds of a refusal (60_exceptions.md R262), with what each leaves. -/
theorem exec_refused {i : Instr} {s t : State} (h : exec i s = .next t) (href : t.code = .refused) :
    (¬ i.wf = true ∧ t = s.finish .refused .badField) ∨ (¬ Allowed i s ∧ t = s.finish .refused .wrongState) ∨
    (i = .openSession ∧ s.isOpen = false ∧ s.cfgLegal = false ∧ t = s.finish .refused .cfgIllegal) := by
  by_cases hwf : i.wf = true
  · by_cases hallowed : Allowed i s
    · obtain ⟨u, hu, hends⟩ := exec_of_allowed hwf hallowed
      cases hu.symm.trans h
      cases hends with
      | success _ hno => exact absurd href hno
      | failure herr => rw [href] at herr; cases herr
      | illegalConfig hi hillegal ht => subst hi; exact .inr (.inr ⟨rfl, hallowed, hillegal, ht⟩)
    · exact .inr (.inl ⟨hallowed, Host.Outcome.next.inj (h.symm.trans (exec_of_not_allowed hwf hallowed))⟩)
  · exact .inl ⟨hwf, Host.Outcome.next.inj (h.symm.trans (exec_of_not_wf hwf s))⟩

/-- Settles O17: a word that decodes is a well-formed command, so what is left are its three grounds. -/
theorem refusedChangesOnlyStatus : Obligations.RefusedChangesOnlyStatus := by
  refine ⟨fun w s t h href => ?_, fun i s t h href => ?_⟩
  · unfold State.issue at h
    split at h
    · next i hi =>
      obtain ⟨-, hwf⟩ := decode_eq_ok_iff.mp hi
      rcases exec_refused h href with ⟨hno, -⟩ | ⟨hno, rfl⟩ | ⟨rfl, hclosed, hillegal, rfl⟩
      · exact absurd hwf hno
      · exact ⟨rfl, .inr (.inr (.inl ⟨i, hi, hno, rfl⟩))⟩
      · exact ⟨rfl, .inr (.inr (.inr ⟨hi, hclosed, hillegal, rfl⟩))⟩
    · next k hk =>
      cases h
      cases k with
      | badOpcode => exact ⟨rfl, .inl ⟨hk, rfl⟩⟩
      | badField => exact ⟨rfl, .inr (.inl ⟨hk, rfl⟩)⟩
  · rcases exec_refused h href with ⟨-, rfl⟩ | ⟨-, rfl⟩ | ⟨-, -, -, rfl⟩ <;> rfl

/-- Settles O19: inside its states a command ends in a success or an ERROR, whose causes are of another class, or OPEN in CFG_ILLEGAL. -/
theorem commandsAreRefusedOutsideTheirStates : Obligations.CommandsAreRefusedOutsideTheirStates := by
  refine fun i s hwf => ⟨exec_of_not_allowed hwf, fun hallowed => ?_⟩
  obtain ⟨t, ht, hends⟩ := exec_of_allowed hwf hallowed
  refine ⟨t, ht, fun hcause => ?_⟩
  obtain ⟨hclass, -⟩ := everyOutcomeIsOfItsClass i s t ht
  have href : t.code = .refused := by
    rw [hcause] at hclass
    revert hclass; cases t.code <;> decide
  cases hends with
  | success _ hno => exact hno href
  | failure herr => rw [href] at herr; cases herr
  | illegalConfig _ _ heq => rw [heq] at hcause; cases hcause

/-! ## Bytes fed, and BUF (60_exceptions.md R260, 41_synchronizer.md R132) -/

/-- While OPEN, FEED answers as `feedByte` does, a held frame included. -/
theorem exec_feed_of_open {s : State} (hopen : s.isOpen = true) (b : Byte) : exec (.feed b) s = .next (feedByte b s) := by
  by_cases hheld : s.sstate = .complete
  · rw [exec_of_not_allowed (i := .feed b) rfl fun ⟨_, hfree⟩ => hfree hheld, feedByte, hheld]; rfl
  · exact exec_feed_of_free hopen hheld b

/-- Bytes fed while OPEN change SYNC alone, and BUF only at the addresses they store to. -/
theorem feedAll_changes (bs : List Byte) : ∀ {s u : State}, s.isOpen = true → feedAll bs s = .next u →
    SyncOnly s u ∧ ∀ a, a ∉ feedStores bs s → Memory.read u.buf a = Memory.read s.buf a := by
  induction bs with
  | nil => intro s u _ h; cases h; exact ⟨.refl s, fun _ _ => rfl⟩
  | cons b bs ih =>
    intro s u hopen h
    have hsync := feedByte_syncOnly b s
    rw [feedAll, List.map_cons, runAll, exec_feed_of_open hopen] at h
    obtain ⟨hrest, hreads⟩ := ih (hsync.isOpen.trans hopen) h
    refine ⟨hsync.trans hrest, fun a ha => ?_⟩
    rw [feedStores, List.mem_append, not_or] at ha
    obtain ⟨hfirst, hlater⟩ := ha
    exact (hreads a hlater).trans (feedByte_read_other hfirst)

/-- What `syncReset` leaves of a state that differs only in SYNC: BUF, the type registers and the outcome. -/
theorem SyncOnly.syncReset {s t : State} (h : SyncOnly s t) : t.syncReset = { s.syncReset with
    buf := t.buf, ftype := t.ftype, fdecIdx := t.fdecIdx, fdecHit := t.fdecHit, code := t.code, cause := t.cause } :=
  congrArg State.syncReset h

/-- Settles O18: what fails is one of `Fails`; FEEDN is the FEEDs of the bytes it consumed, the last of which left SYNC reset. -/
theorem errorsChangeOnlyWhatIsListed : Obligations.ErrorsChangeOnlyWhatIsListed := by
  intro i s t h herr
  obtain ⟨hwf, hallowed, hfails⟩ := exec_fails h herr
  cases i with
  | feed b =>
    obtain ⟨k, rfl⟩ := hfails
    exact ⟨rfl, fun a ha => Memory.read_write_other _ _ ha, Memory.read_write_same _ _⟩
  | feedn cnt =>
    obtain ⟨hopen, hfree⟩ := hallowed
    obtain ⟨hlo, hhi⟩ : 1 ≤ cnt.toNat ∧ cnt.toNat ≤ 4 := of_decide_eq_true hwf
    obtain ⟨t', u, ht', hu, heq, -⟩ := feednEqualsFeeds cnt s hlo hhi hopen hfree
    cases ht'.symm.trans h
    obtain ⟨hsync, hreads⟩ := feedAll_changes _ hopen hu
    generalize t.res0 = consumed at hu heq hreads ⊢
    subst heq
    refine ⟨?_, ⟨u, hu, rfl⟩, hreads⟩
    calc ({ u with res0 := consumed, res1 := 0 } : State)
      _ = { u.syncReset with res0 := consumed, res1 := 0 } := hfails.symm
      _ = _ := by rw [hsync.syncReset, show u.code = .error from herr]; rfl
  | obsRd | stgRd | lkRd => obtain ⟨k, rfl⟩ := hfails; rfl
  | fxU | fxS | fxF32 | fxF64 => exact hfails
  | _ => obtain ⟨k, rfl⟩ := hfails; rfl

end Sys2Proof.Machine
end

section
/-! What hardware reset leaves (70_reset_and_hazards.md R290): each piece of state with the value of R290's table, in the reset state and
after a step that takes a reset, and that the reset state is a good one. -/

namespace Sys2Proof.Machine

/-- With the default of a read as its only entry, a list reads alike inside and outside its length. -/
theorem getD_replicate_self {α : Type} (n i : Nat) (x : α) : (List.replicate n x).getD i x = x := by
  rw [List.getD_eq_getElem?_getD, List.getElem?_getD_replicate_default_eq]

/-! ## The registers made of several fields (10_state.md R27, R30, R32, R35) -/

@[simp] theorem State.resetOf_statusWord (p : Params) : (State.resetOf p).statusWord = 0 := by
  rw [State.statusWord, resetOf_werr, resetOf_sstate, resetOf_isOpen, resetOf_cause, resetOf_code]; rfl

@[simp] theorem State.resetOf_fxfWord (p : Params) : (State.resetOf p).fxfWord = 0 := by
  rw [State.fxfWord, resetOf_fxNan, resetOf_fxMissing]; rfl

@[simp] theorem State.resetOf_fdecWord (p : Params) : (State.resetOf p).fdecWord = 0 := by
  rw [State.fdecWord, resetOf_fdecHit, resetOf_fdecIdx]; rfl

@[simp] theorem State.resetOf_ckstatWord (p : Params) : (State.resetOf p).ckstatWord = 0 := by
  rw [State.ckstatWord, resetOf_ckf, resetOf_cka]; rfl

/-! ## The CFG registers -/

/-- The values of R290's table at the CFG offsets. -/
def cfgResetValue (p : Params) (off : Nat) : Word :=
  if off = 0x0A4 then BitVec.ofNat 32 p.bufSize else if off = 0x0AC then 1000000#32
  else if off = 0x0B0 then 50000000#32 else if off = 0x0B4 then 0xFFFFFFFF#32 else 0

/-- No value of the table but 0 stands at a TF_TYPE. -/
theorem cfgResetValue_tfType (p : Params) {off : Nat} (h : 0x100 ≤ off) : cfgResetValue p off = 0 := by
  unfold cfgResetValue
  rw [if_neg (by omega), if_neg (by omega), if_neg (by omega), if_neg (by omega)]

@[simp] theorem State.resetOf_tfType (p : Params) (j : Nat) : (State.resetOf p).tfType j = 0 := getD_replicate_self ..

theorem State.resetOf_busRead_listed (p : Params) : ∀ e ∈ cfgMasks, (State.resetOf p).busRead e.1 32 = cfgResetValue p e.1 :=
  List.forall_iff_forall_mem.mp ⟨rfl, rfl, rfl, rfl, rfl, rfl, rfl, rfl, rfl, rfl, rfl, rfl, rfl, rfl, rfl, rfl, rfl⟩

theorem State.resetOf_busRead_cfg (p : Params) {off : Nat} {mask : Word} (h : IsCfg off mask) :
    (State.resetOf p).busRead off 32 = cfgResetValue p off := by
  rcases h with hlisted | ⟨hlo, hhi, hal, -⟩
  · exact State.resetOf_busRead_listed p _ hlisted
  · obtain ⟨j, hj, rfl⟩ : ∃ j, j < 16 ∧ off = 0x100 + 4 * j := ⟨(off - 0x100) / 4, by omega, by omega⟩
    rw [State.busRead_reg _ (Reg.ofOffset_tfType hj), cfgResetValue_tfType p hlo]
    exact State.resetOf_tfType p j

/-! ## The arrays -/

theorem Rec.eq_zero_slot {n : Nat} {x : SlotRec} (h : x ∈ (Rec.zero n).slots) : x = SlotRec.zero := List.eq_of_mem_replicate h

/-- Inside the table and outside it LK reads the cleared entry. -/
theorem lkGet_zeroLk (p : Params) (sat slot : Nat) : lkGet (zeroLk p) sat slot = LkEntry.zero := by
  unfold lkGet zeroLk
  rcases Nat.lt_or_ge (sat - 1) p.maxSat with hin | hout
  · rw [List.getD_replicate _ hin]
    exact getD_replicate_self ..
  · rw [List.getD_eq_default (List.replicate ..) [] (by rwa [List.length_replicate])]
    rfl

/-! ## Every piece of state -/

/-- Settles O12: a reset step leaves the reset state but for the queue and the counter of free values (log 8), and no piece of R290's
table reads either. -/
theorem resetValues : Obligations.ResetValues := by
  intro p hp afterReset
  have hall : ∀ bus n, afterReset { State.resetOf p with bus := bus, freeCount := n } := by
    intro bus n
    obtain ⟨_, hbuf, _⟩ := Params.legal_bounds hp
    have hfits : p.bufSize < 2 ^ 32 := by omega
    refine ⟨rfl, rfl, rfl, rfl, State.resetOf_statusWord p, State.resetOf_fxfWord p, rfl, rfl, rfl, State.resetOf_fdecWord p,
      rfl, rfl, rfl, rfl, State.resetOf_ckstatWord p, rfl, fun off mask hcfg => State.resetOf_busRead_cfg p hcfg,
      rfl, rfl, Memory.read_nil, fun r hr => ?records, zeroRecords_length p, zeroRecords_length p, lkGet_zeroLk p,
      rfl, Params.param0_toNat hp, Nat.mod_eq_of_lt hfits⟩
    case records =>
      have hzero : r = Rec.zero p.nSlot := hr.elim eq_zero_of_mem_zeroRecords eq_zero_of_mem_zeroRecords
      subst hzero
      exact ⟨rfl, rfl, rfl, Rec.zero_slots_length _, fun _ => Rec.eq_zero_slot⟩
  refine ⟨hall [] 0, fun u rest hu hbus => ⟨_, (idleStepsAndHardwareReset u rest).2 hbus, ?_⟩⟩
  rw [hu]
  exact hall rest u.freeCount

/-! ## The invariant -/

/-- The defaults lie in the ranges of 00_scope.md R5. -/
theorem Params.default_legal : Params.default.legal = true := by decide

/-- Settles O14: the default instance is a legal one. -/
theorem resetMeetsTheInvariant : Obligations.ResetMeetsTheInvariant :=
  ⟨State.resetOf_inv Params.default_legal, fun _ hp => State.resetOf_inv hp⟩

end Sys2Proof.Machine
end
